-- ==== Sys2Proof/Word.lean ====
section
/-! DEFINITION. The widths of the machine (00_scope R7). -/

namespace Sys2Proof

/-- A data byte (00_scope R10). -/
abbrev Byte := BitVec 8

/-- One 14-bit program-memory location (00_scope R10, 30_encoding R140). -/
abbrev Word := BitVec 14

/-- A 10-bit program address (10_state R32). -/
abbrev ProgAddr := BitVec 10

/-- The 7-bit data address field `m` of an instruction (30_encoding R141). -/
abbrev DataAddr := BitVec 7

/-- The 3-bit bit number `i` of an instruction (30_encoding R141). -/
abbrev BitNo := BitVec 3

end Sys2Proof
end

