-- ==== Sys2Proof/Syntax.lean ====
section
/-! DEFINITION. The 63 instructions (30_encoding R146), one constructor per row of the opcode table. Operands are the
unsigned fields of 30_encoding R141 and R143, used as they stand. -/

namespace Sys2Proof

/-- One instruction, decoded. `m` is the data address field, `i` the bit number, `x` the immediate, `addr` the program
address (30_encoding R142). -/
inductive Instr where
  -- arithmetic (40_arithmetic)
  | addAM (m : DataAddr)      -- ADD A,[m]
  | addmAM (m : DataAddr)     -- ADDM A,[m]
  | addAX (x : Byte)          -- ADD A,x
  | adcAM (m : DataAddr)      -- ADC A,[m]
  | adcmAM (m : DataAddr)     -- ADCM A,[m]
  | subAX (x : Byte)          -- SUB A,x
  | subAM (m : DataAddr)      -- SUB A,[m]
  | submAM (m : DataAddr)     -- SUBM A,[m]
  | sbcAM (m : DataAddr)      -- SBC A,[m]
  | sbcmAM (m : DataAddr)     -- SBCM A,[m]
  | daaM (m : DataAddr)       -- DAA [m]
  -- logic (41_logic)
  | andAM (m : DataAddr)      -- AND A,[m]
  | orAM (m : DataAddr)       -- OR A,[m]
  | xorAM (m : DataAddr)      -- XOR A,[m]
  | andmAM (m : DataAddr)     -- ANDM A,[m]
  | ormAM (m : DataAddr)      -- ORM A,[m]
  | xormAM (m : DataAddr)     -- XORM A,[m]
  | andAX (x : Byte)          -- AND A,x
  | orAX (x : Byte)           -- OR A,x
  | xorAX (x : Byte)          -- XOR A,x
  | cplM (m : DataAddr)       -- CPL [m]
  | cplaM (m : DataAddr)      -- CPLA [m]
  -- increment and decrement (42_incdec)
  | incaM (m : DataAddr)      -- INCA [m]
  | incM (m : DataAddr)       -- INC [m]
  | decaM (m : DataAddr)      -- DECA [m]
  | decM (m : DataAddr)       -- DEC [m]
  -- rotate (43_rotate)
  | rraM (m : DataAddr)       -- RRA [m]
  | rrM (m : DataAddr)        -- RR [m]
  | rrcaM (m : DataAddr)      -- RRCA [m]
  | rrcM (m : DataAddr)       -- RRC [m]
  | rlaM (m : DataAddr)       -- RLA [m]
  | rlM (m : DataAddr)        -- RL [m]
  | rlcaM (m : DataAddr)      -- RLCA [m]
  | rlcM (m : DataAddr)       -- RLC [m]
  -- data move (44_datamove)
  | movAM (m : DataAddr)      -- MOV A,[m]
  | movMA (m : DataAddr)      -- MOV [m],A
  | movAX (x : Byte)          -- MOV A,x
  -- bit operation (45_bitop)
  | clrBit (i : BitNo) (m : DataAddr)   -- CLR [m].i
  | setBit (i : BitNo) (m : DataAddr)   -- SET [m].i
  -- branch (46_branch)
  | jmp (addr : ProgAddr)     -- JMP addr
  | szM (m : DataAddr)        -- SZ [m]
  | szaM (m : DataAddr)       -- SZA [m]
  | szBit (i : BitNo) (m : DataAddr)    -- SZ [m].i
  | snzBit (i : BitNo) (m : DataAddr)   -- SNZ [m].i
  | sizM (m : DataAddr)       -- SIZ [m]
  | sdzM (m : DataAddr)       -- SDZ [m]
  | sizaM (m : DataAddr)      -- SIZA [m]
  | sdzaM (m : DataAddr)      -- SDZA [m]
  | call (addr : ProgAddr)    -- CALL addr
  | ret                       -- RET
  | retAX (x : Byte)          -- RET A,x
  | reti                      -- RETI
  -- table read (47_tableread)
  | tabrdc (m : DataAddr)     -- TABRDC [m]
  | tabrdl (m : DataAddr)     -- TABRDL [m]
  -- miscellaneous (48_misc)
  | nop                       -- NOP
  | clrM (m : DataAddr)       -- CLR [m]
  | setM (m : DataAddr)       -- SET [m]
  | clrWdt                    -- CLR WDT
  | clrWdt1                   -- CLR WDT1
  | clrWdt2                   -- CLR WDT2
  | swapM (m : DataAddr)      -- SWAP [m]
  | swapaM (m : DataAddr)     -- SWAPA [m]
  | halt                      -- HALT
  deriving DecidableEq, Repr

end Sys2Proof
end

