-- ==== Sys2Proof/Config.lean ====
section
/-! DEFINITION. What one part fixes: the configuration options (00_scope R8), the parameters the spec
itself adds (00_scope R9), and the free values, which are constants with no body (93_implementation_defined,
treatment "any value"). The options are plain data and stand in State, so that a statement quantifies
over them; log 4. The free values are applied to the counter `draws` of State; log 9. -/

namespace Sys2Proof.Config

/-- `OSC_TYPE` (00_scope R8). -/
inductive OscType where
  | rc | crystal | rtc32k
  deriving DecidableEq, Repr

/-- `FS_SOURCE`, the clock fS (00_scope R8, 60_exceptions R360). -/
inductive FsSource where
  | fsysDiv4 | rtcOsc | wdtOsc
  deriving DecidableEq, Repr

/-- `CLRWDT_TIMES` (00_scope R8, 48_misc R298). -/
inductive ClrWdtTimes where
  | one | two
  deriving DecidableEq, Repr

/-- `TMR_CLK` (00_scope R8, 60_exceptions R375). -/
inductive TmrClk where
  | fsys | fsysDiv4
  deriving DecidableEq, Repr

/-- `LCD_DUTY` (00_scope R8): no rule of the model reads it (60_exceptions R390). -/
inductive LcdDuty where
  | two | three | four
  deriving DecidableEq, Repr

/-- `LCD_BIAS` (00_scope R8): electrical, read by no rule. -/
inductive LcdBias where
  | half | third
  deriving DecidableEq, Repr

/-- `LCD_TYPE` (00_scope R8): electrical, read by no rule. -/
inductive LcdType where
  | r | c
  deriving DecidableEq, Repr

/-- `LV_LEVEL` (00_scope R8): electrical, read by no rule. -/
inductive LvLevel where
  | low | middle | high
  deriving DecidableEq, Repr

/-- `PAGE_BASE` (00_scope R9, 92_eei D2): which PC value supplies the page bits. -/
inductive PageBase where
  | following   -- N + 1, the default
  | itself      -- N
  deriving DecidableEq, Repr

/-- `RAM_AFTER_RESET` (00_scope R9, 92_eei D19): the data memories after a chip reset other than power-on. -/
inductive RamAfterReset where
  | unchanged | unknown
  deriving DecidableEq, Repr

/-- The two readings of DAA's high-nibble test (40_arithmetic R182, 92_eei D6). -/
inductive DaaTest where
  | sequential    -- the spec's decision and default
  | original      -- the other reading
  deriving DecidableEq, Repr

/-- The configuration options and the spec's parameters of one part. No instruction and no event changes them
(00_scope R8, 70_reset R429). -/
structure Options where
  oscType : OscType
  fsSource : FsSource
  wdtEnable : Bool
  clrWdtTimes : ClrWdtTimes
  /-- `TB_PERIOD_LOG2` less 12 -/
  tbPeriod : Fin 4
  /-- `BZ_FREQ_LOG2` less 2 -/
  bzFreq : Fin 8
  /-- `PA_WAKE[7..0]` -/
  paWake : BitVec 8
  /-- `PA_PULLHIGH[3..0]`; PA4 to PA7 always have a pull-high -/
  paPullHigh : BitVec 4
  /-- `PA_CMOS[3..0]`, 1 is CMOS; PA4 to PA7 are always NMOS -/
  paCmos : BitVec 4
  tmrClk : TmrClk
  pa01Buzzer : Bool
  pa3Pfd : Bool
  lcdDuty : LcdDuty
  lcdBias : LcdBias
  lcdType : LcdType
  /-- `LCD_CLK_LOG2` less 2 -/
  lcdClk : Fin 7
  lcdOnAtHalt : Bool
  lvrEnable : Bool
  lvdEnable : Bool
  lvLevel : LvLevel
  pageBase : PageBase
  unimplBitRead : Bool
  unimplAddrRead : BitVec 8
  lcdMask : BitVec 8
  wdtDisabledClrFlags : Bool
  ramAfterReset : RamAfterReset
  daaTest : DaaTest
  /-- `ENC` (00_scope R9, 30_encoding R150): the words whose reading a vendor listing gives, with the instruction each
  stands for, or none where it stands for no instruction; every other word is read by the default table -/
  encListing : List (Word × Option Instr)
  deriving DecidableEq, Repr

/-- The options State.reset holds: the spec's defaults where it has one (00_scope R9, 95_test_vectors conventions),
else a choice of the model. DESIGN CHOICE, unsafe, log 4. -/
def Options.default : Options where
  oscType := .crystal
  fsSource := .fsysDiv4
  wdtEnable := true
  clrWdtTimes := .one
  tbPeriod := 3
  bzFreq := 0
  paWake := 0
  paPullHigh := 0xF
  paCmos := 0
  tmrClk := .fsysDiv4
  pa01Buzzer := false
  pa3Pfd := false
  lcdDuty := .four
  lcdBias := .third
  lcdType := .r
  lcdClk := 0
  lcdOnAtHalt := false
  lvrEnable := true
  lvdEnable := true
  lvLevel := .low
  pageBase := .following
  unimplBitRead := false
  unimplAddrRead := 0
  lcdMask := 0x0F
  wdtDisabledClrFlags := true
  ramAfterReset := .unchanged
  daaTest := .sequential
  encListing := []

/-- The values left in C, AC, Z and OV (bits 0 to 3) by an instruction that computes them and whose destination is
STATUS (10_state R47, 93 U9). -/
opaque freeFlags : Nat → BitVec 4

/-- The levels read from port A pins that nothing drives and that have no pull-high (60_exceptions R382, 93 V7). -/
opaque floatingPads : Nat → BitVec 8

/-- The polarity of the buzzer signal against its divider bit: no rule fixes its phase (60_exceptions R387), log 19. -/
opaque buzzerPolarity : Bool

/-- Pad PA3 in PFD mode with its latch bit 0 and the timer off ("U", 60_exceptions R388, 93 V9). -/
opaque pfdStopped : Nat → Bool

/-- Whether a clock tick that falls into a read of TMR is lost (60_exceptions R379, 93 V6). -/
opaque tickLost : Nat → Bool

/-- Whether a request raised during an instruction is seen only at the second boundary (60_exceptions R340, 93 V11). -/
opaque seenLate : Nat → Bool

/-- The content of TMR_CNT before the timer's first enable-then-disable (70_reset R432, 93 V5). -/
opaque timerNoise : Nat → BitVec 8

/-- Whether the timer overflows spuriously before its first enable-then-disable (70_reset R432, 93 V5). -/
opaque spuriousOverflow : Nat → Bool

/-- A byte of data space bank 0 left unknown by a chip reset, by draw and data address (10_state R71, R72, 93 V1 to V3). -/
opaque unknownByte : Nat → Nat → BitVec 8

/-- A byte of the LCD memory left unknown by a chip reset, by draw and address (10_state R72, 93 V3). -/
opaque unknownLcd : Nat → Nat → BitVec 8

/-- TMR_PRE after a chip reset (10_state R58, 93 V2). -/
opaque unknownPreload : Nat → BitVec 8

/-- pfd_phase after a power-on (60_exceptions R388, 93 V9). -/
opaque unknownPfd : Nat → Bool

/-- What a table read returns from a program address that the state gives no word for, by address (91 N21, log 7). -/
opaque unprogrammedWord : Nat → BitVec 14

end Sys2Proof.Config
end

