-- ==== Sys2Proof/WellFormed.lean ====
section
/-! DEFINITION. Which instructions have a word of their own. The operand ranges of 30_encoding R141 are the field widths
of Instr, so an operand out of range cannot be written; what remains is the word 0001H, which CLR WDT and CLR WDT1 share
and which the option CLRWDT_TIMES gives to one of them (30_encoding R148). -/

namespace Sys2Proof

/-- The instruction has a word on a part with this CLRWDT_TIMES option: CLR WDT only with one, CLR WDT1 only with two
(30_encoding R148). -/
def Instr.wellFormed (times : Config.ClrWdtTimes) : Instr → Bool
  | .clrWdt => times == .one
  | .clrWdt1 => times == .two
  | .addAM _ | .addmAM _ | .addAX _ | .adcAM _ | .adcmAM _ | .subAX _ | .subAM _ | .submAM _ | .sbcAM _ | .sbcmAM _
  | .daaM _ | .andAM _ | .orAM _ | .xorAM _ | .andmAM _ | .ormAM _ | .xormAM _ | .andAX _ | .orAX _ | .xorAX _ | .cplM _
  | .cplaM _ | .incaM _ | .incM _ | .decaM _ | .decM _ | .rraM _ | .rrM _ | .rrcaM _ | .rrcM _ | .rlaM _ | .rlM _
  | .rlcaM _ | .rlcM _ | .movAM _ | .movMA _ | .movAX _ | .clrBit _ _ | .setBit _ _ | .jmp _ | .szM _ | .szaM _
  | .szBit _ _ | .snzBit _ _ | .sizM _ | .sdzM _ | .sizaM _ | .sdzaM _ | .call _ | .ret | .retAX _ | .reti | .tabrdc _
  | .tabrdl _ | .nop | .clrM _ | .setM _ | .clrWdt2 | .swapM _ | .swapaM _ | .halt => true

end Sys2Proof
end

