-- ==== Sys2Proof/Decode.lean ====
section
/-! DEFINITION. The decoder and the encoder, from the formats of 30_encoding R144 and the opcode map of R145. The bit
patterns are from general knowledge (PRESUMED, log 1); the semantics does not depend on them (92_eei D1), and `enc` takes them as a parameter. -/

namespace Sys2Proof

/-- Why a word is no instruction (30_encoding R149). Both become the fault undefinedOpcode, which is safe: the spec gives
such a word no behaviour. -/
inductive BadWord where
  /-- the word matches no row of 30_encoding R145 -/
  | noRow
  /-- a JMP or CALL pattern with bit 10 set (92_eei D25) -/
  | spareAddressBit
  /-- the vendor listing says that the word is no instruction (30_encoding R150) -/
  | notInListing
  deriving DecidableEq, Repr

/-- Format N: the whole word is the opcode. The word 0001H is CLR WDT or CLR WDT1 by the option (30_encoding R148). -/
def decodeN (times : Config.ClrWdtTimes) (w : Nat) : Except BadWord Instr :=
  match w with
  | 0x0000 => .ok .nop
  | 0x0001 => match times with
    | .one => .ok .clrWdt
    | .two => .ok .clrWdt1
  | 0x0002 => .ok .halt
  | 0x0003 => .ok .ret
  | 0x0004 => .ok .reti
  | 0x0005 => .ok .clrWdt2
  | _ => .error .noRow

/-- Format M: opcode `w[13:7]`, here as a number, and `m = w[6:0]`. -/
def decodeM (op : Nat) (m : DataAddr) : Except BadWord Instr :=
  match op with
  | 0x01 => .ok (.movMA m)
  | 0x02 => .ok (.cplaM m)
  | 0x03 => .ok (.cplM m)
  | 0x04 => .ok (.subAM m)
  | 0x05 => .ok (.submAM m)
  | 0x06 => .ok (.addAM m)
  | 0x07 => .ok (.addmAM m)
  | 0x08 => .ok (.xorAM m)
  | 0x09 => .ok (.xormAM m)
  | 0x0A => .ok (.orAM m)
  | 0x0B => .ok (.ormAM m)
  | 0x0C => .ok (.andAM m)
  | 0x0D => .ok (.andmAM m)
  | 0x0E => .ok (.movAM m)
  | 0x20 => .ok (.szaM m)
  | 0x21 => .ok (.szM m)
  | 0x22 => .ok (.swapaM m)
  | 0x23 => .ok (.swapM m)
  | 0x24 => .ok (.sbcAM m)
  | 0x25 => .ok (.sbcmAM m)
  | 0x26 => .ok (.adcAM m)
  | 0x27 => .ok (.adcmAM m)
  | 0x28 => .ok (.incaM m)
  | 0x29 => .ok (.incM m)
  | 0x2A => .ok (.decaM m)
  | 0x2B => .ok (.decM m)
  | 0x2C => .ok (.sizaM m)
  | 0x2D => .ok (.sizM m)
  | 0x2E => .ok (.sdzaM m)
  | 0x2F => .ok (.sdzM m)
  | 0x30 => .ok (.rlaM m)
  | 0x31 => .ok (.rlM m)
  | 0x32 => .ok (.rraM m)
  | 0x33 => .ok (.rrM m)
  | 0x34 => .ok (.rlcaM m)
  | 0x35 => .ok (.rlcM m)
  | 0x36 => .ok (.rrcaM m)
  | 0x37 => .ok (.rrcM m)
  | 0x3A => .ok (.tabrdc m)
  | 0x3B => .ok (.tabrdl m)
  | 0x3D => .ok (.daaM m)
  | 0x3E => .ok (.clrM m)
  | 0x3F => .ok (.setM m)
  | _ => .error .noRow

/-- Format X: opcode `w[13:8]`, here as a number, and `x = w[7:0]`; none where the opcode is no format X row. -/
def decodeX (op : Nat) (x : Byte) : Option Instr :=
  match op with
  | 0x09 => some (.retAX x)
  | 0x0A => some (.subAX x)
  | 0x0B => some (.addAX x)
  | 0x0C => some (.xorAX x)
  | 0x0D => some (.orAX x)
  | 0x0E => some (.andAX x)
  | 0x0F => some (.movAX x)
  | _ => none

/-- The decoder ENC of 92_eei D1 at its default, total on every word: the instruction, or why there is none
(30_encoding R144, R145, R148, R149). -/
def decode (times : Config.ClrWdtTimes) (w : Word) : Except BadWord Instr :=
  let m := w.extractLsb' 0 7
  let i := w.extractLsb' 7 3
  let addr := w.extractLsb' 0 10
  match (w.extractLsb' 10 4).toNat with
  | 0x8 => .ok (.call addr)
  | 0xA => .ok (.jmp addr)
  | 0x9 => .error .spareAddressBit
  | 0xB => .error .spareAddressBit
  | 0xC => .ok (.setBit i m)
  | 0xD => .ok (.clrBit i m)
  | 0xE => .ok (.snzBit i m)
  | 0xF => .ok (.szBit i m)
  | _ =>
    match decodeX (w.extractLsb' 8 6).toNat (w.extractLsb' 0 8) with
    | some instr => .ok instr
    | none =>
      match (w.extractLsb' 7 7).toNat with
      | 0 => decodeN times w.toNat
      | op => decodeM op m

/-- `ENC`, the decoder parameter (30_encoding R150, 92_eei D1), total and single-valued: the listing's reading of the words
it lists, the default table's of the others. Every function from words to instructions or none is one listing's. -/
def enc (o : Config.Options) (w : Word) : Except BadWord Instr :=
  match o.encListing.lookup w with
  | some (some i) => .ok i
  | some none => .error .notInListing
  | none => decode o.clrWdtTimes w

/-- What the spec asks of ENC beside that (30_encoding R150): every instruction that has a word on the part is the reading
of at least one. -/
def EncOnto (o : Config.Options) : Prop :=
  ∀ i : Instr, i.wellFormed o.clrWdtTimes = true → ∃ w, enc o w = .ok i

/-- The word of an instruction, from the same rows of 30_encoding R145: the opcode bits, then the operand fields. -/
def encode : Instr → Word
  | .nop => 0x0000
  | .clrWdt1 => 0x0001
  | .clrWdt => 0x0001
  | .halt => 0x0002
  | .ret => 0x0003
  | .reti => 0x0004
  | .clrWdt2 => 0x0005
  | .movMA m => 0b0000001#7 ++ m
  | .cplaM m => 0b0000010#7 ++ m
  | .cplM m => 0b0000011#7 ++ m
  | .subAM m => 0b0000100#7 ++ m
  | .submAM m => 0b0000101#7 ++ m
  | .addAM m => 0b0000110#7 ++ m
  | .addmAM m => 0b0000111#7 ++ m
  | .xorAM m => 0b0001000#7 ++ m
  | .xormAM m => 0b0001001#7 ++ m
  | .orAM m => 0b0001010#7 ++ m
  | .ormAM m => 0b0001011#7 ++ m
  | .andAM m => 0b0001100#7 ++ m
  | .andmAM m => 0b0001101#7 ++ m
  | .movAM m => 0b0001110#7 ++ m
  | .retAX x => 0b001001#6 ++ x
  | .subAX x => 0b001010#6 ++ x
  | .addAX x => 0b001011#6 ++ x
  | .xorAX x => 0b001100#6 ++ x
  | .orAX x => 0b001101#6 ++ x
  | .andAX x => 0b001110#6 ++ x
  | .movAX x => 0b001111#6 ++ x
  | .szaM m => 0b0100000#7 ++ m
  | .szM m => 0b0100001#7 ++ m
  | .swapaM m => 0b0100010#7 ++ m
  | .swapM m => 0b0100011#7 ++ m
  | .sbcAM m => 0b0100100#7 ++ m
  | .sbcmAM m => 0b0100101#7 ++ m
  | .adcAM m => 0b0100110#7 ++ m
  | .adcmAM m => 0b0100111#7 ++ m
  | .incaM m => 0b0101000#7 ++ m
  | .incM m => 0b0101001#7 ++ m
  | .decaM m => 0b0101010#7 ++ m
  | .decM m => 0b0101011#7 ++ m
  | .sizaM m => 0b0101100#7 ++ m
  | .sizM m => 0b0101101#7 ++ m
  | .sdzaM m => 0b0101110#7 ++ m
  | .sdzM m => 0b0101111#7 ++ m
  | .rlaM m => 0b0110000#7 ++ m
  | .rlM m => 0b0110001#7 ++ m
  | .rraM m => 0b0110010#7 ++ m
  | .rrM m => 0b0110011#7 ++ m
  | .rlcaM m => 0b0110100#7 ++ m
  | .rlcM m => 0b0110101#7 ++ m
  | .rrcaM m => 0b0110110#7 ++ m
  | .rrcM m => 0b0110111#7 ++ m
  | .tabrdc m => 0b0111010#7 ++ m
  | .tabrdl m => 0b0111011#7 ++ m
  | .daaM m => 0b0111101#7 ++ m
  | .clrM m => 0b0111110#7 ++ m
  | .setM m => 0b0111111#7 ++ m
  | .call addr => 0b1000#4 ++ addr
  | .jmp addr => 0b1010#4 ++ addr
  | .setBit i m => 0b1100#4 ++ i ++ m
  | .clrBit i m => 0b1101#4 ++ i ++ m
  | .snzBit i m => 0b1110#4 ++ i ++ m
  | .szBit i m => 0b1111#4 ++ i ++ m

/-- The program word that a table row's bits stand for: the low `nbits` bits of `w` in one 14-bit word; none where they do
not fit one (30_encoding R140). -/
def wordOfBits (nbits w : Nat) : Option Word :=
  if w % 2 ^ nbits < 2 ^ 14 then some (BitVec.ofNat 14 (w % 2 ^ nbits)) else none

/-- The instruction the decoder reads from the bits of one opcode-table row, on a part with the default ENC and
CLRWDT_TIMES: there the word 0001H is CLR WDT (30_encoding R148, log 32). -/
def decodeTableWord (nbits w : Nat) : Option Instr :=
  match wordOfBits nbits w with
  | none => none
  | some word =>
    match enc Config.Options.default word with
    | .ok i => some i
    | .error _ => none

end Sys2Proof
end

