-- ==== Sys2Proof/Machine/Bits.lean ====
section
/-! DEFINITION. Bit-field helpers (00_scope R11). -/

namespace Sys2Proof.Machine

/-- A byte from its bits, bit 7 first, as the register tables list them (20_memory R106). -/
def packByte (b7 b6 b5 b4 b3 b2 b1 b0 : Bool) : Byte :=
  BitVec.ofBool b7 ++ BitVec.ofBool b6 ++ BitVec.ofBool b5 ++ BitVec.ofBool b4 ++
  BitVec.ofBool b3 ++ BitVec.ofBool b2 ++ BitVec.ofBool b1 ++ BitVec.ofBool b0

/-- Bit `i` of a byte, `v[i]` of 00_scope R11. -/
def bitOf (v : Byte) (i : Nat) : Bool := v.getLsbD i

/-- The byte whose bit `i` is `f i`. -/
def byteOf (f : Nat → Bool) : Byte := packByte (f 7) (f 6) (f 5) (f 4) (f 3) (f 2) (f 1) (f 0)

/-- `1 << i` in a byte (45_bitop R245, R246). -/
def bitMask (i : BitNo) : Byte := 1#8 <<< i.toNat

/-- The high nibble and the low nibble exchanged (48_misc R303). -/
def swapNibbles (v : Byte) : Byte := v.extractLsb' 0 4 ++ v.extractLsb' 4 4

/-- `b : v[7:1]`, one place right with `b` entering at bit 7 (43_rotate). -/
def shiftInRight (b : Bool) (v : Byte) : Byte := BitVec.ofBool b ++ v.extractLsb' 1 7

/-- `v[6:0] : b`, one place left with `b` entering at bit 0 (43_rotate). -/
def shiftInLeft (v : Byte) (b : Bool) : Byte := v.extractLsb' 0 7 ++ BitVec.ofBool b

/-- The low byte of a program address or of a program word. -/
def lowByte {w : Nat} (v : BitVec w) : Byte := v.extractLsb' 0 8

end Sys2Proof.Machine
end

