-- ==== Sys2Proof/Machine/Memory.lean ====
section
/-! DEFINITION. The storage behind the data memories and the program memory: lists of addresses and contents in one
canonical form, addresses strictly rising. -/

namespace Sys2Proof.Machine

/-- What is listed at an address, if anything. -/
def cellsGet {w : Nat} : List (Nat × BitVec w) → Nat → Option (BitVec w)
  | [], _ => none
  | (b, u) :: rest, a => if a = b then some u else cellsGet rest a

/-- List a content at an address, keeping the addresses rising. -/
def cellsSet {w : Nat} : List (Nat × BitVec w) → Nat → BitVec w → List (Nat × BitVec w)
  | [], a, v => [(a, v)]
  | (b, u) :: rest, a, v =>
    if a < b then (a, v) :: (b, u) :: rest
    else if a = b then (a, v) :: rest
    else (b, u) :: cellsSet rest a v

/-- Take an address off the list. -/
def cellsErase {w : Nat} : List (Nat × BitVec w) → Nat → List (Nat × BitVec w)
  | [], _ => []
  | (b, u) :: rest, a => if a = b then cellsErase rest a else (b, u) :: cellsErase rest a

/-- The addresses rise strictly, so none is listed twice. -/
abbrev CellsRising {w : Nat} (m : List (Nat × BitVec w)) : Prop := m.Pairwise (fun x y => x.1 < y.1)

/-- A data memory: the bytes that are not what an unlisted address reads as. -/
abbrev Memory := List Host.Cell

/-- What a data-memory byte that is not listed reads as. The spec gives RAM and LCD memory no power-on content
(10_state R72). DESIGN CHOICE, unsafe, log 6. -/
def Memory.unlisted : Byte := 0x00

/-- Read one byte of a data memory. -/
def Memory.read (m : Memory) (a : Nat) : Byte := (cellsGet m a).getD Memory.unlisted

/-- Write one byte of a data memory; writing what an unlisted address reads as takes the entry away. -/
def Memory.write (m : Memory) (a : Nat) (v : Byte) : Memory :=
  if v = Memory.unlisted then cellsErase m a else cellsSet m a v

/-- The canonical form: rising addresses, and no entry equal to what an unlisted address reads as. -/
abbrev Memory.wf (m : Memory) : Prop := CellsRising m ∧ ∀ c ∈ m, c.2 ≠ Memory.unlisted

/-- A memory written at each address of a list with the byte a function gives it, from nothing listed. -/
def Memory.filled (f : Nat → Byte) (addrs : List Nat) : Memory :=
  addrs.foldl (fun m a => Memory.write m a (f a)) []

/-- The program memory: the words the program image gives (10_state R68). An address it gives no word for holds no word
the model knows; log 7. -/
abbrev Rom := List (Nat × Word)

/-- `ProgRead` (00_scope R13): the word at a program address, if the image gives one. -/
def Rom.word (r : Rom) (p : ProgAddr) : Option Word := cellsGet r p.toNat

/-- The image with one word placed. -/
def Rom.place (r : Rom) (p : ProgAddr) (w : Word) : Rom := cellsSet r p.toNat w

/-- Rising addresses, all of them among the 1024 program addresses (20_memory R100). -/
abbrev Rom.wf (r : Rom) : Prop := CellsRising r ∧ ∀ c ∈ r, c.1 < 1024

end Sys2Proof.Machine
end

