-- ==== Sys2Proof/Machine/State.lean ====
section
/-! DEFINITION. The state of the machine as plain data (10_state R30, R69), the reasons a step can stop, and the state
after power-on. INVENTORY.md, under State, lists every field with its rule and reset value. -/

namespace Sys2Proof.Machine

/-- The four flags an arithmetic or logic instruction writes (10_state R40 to R43). -/
structure AluFlags where
  c : Bool
  ac : Bool
  z : Bool
  ov : Bool
  deriving DecidableEq, Repr

/-- The bits of INTC0 and INTC1 (10_state R56, R57): the master enable, the source enables, the request flags. -/
structure Intc where
  emi : Bool
  eei : Bool
  eti : Bool
  etbi : Bool
  erti : Bool
  eif : Bool
  tf : Bool
  tbf : Bool
  rtf : Bool
  deriving DecidableEq, Repr

/-- `tm_phase`, the pulse width measurement phase (60_exceptions R374). -/
inductive TmPhase where
  | idle | armed | counting
  deriving DecidableEq, Repr

/-- The timer/event counter: TMR (10_state R58), TMRC (R59) and its hidden state (R69). -/
structure Timer where
  cnt : BitVec 8
  pre : BitVec 8
  /-- TM1 : TM0 -/
  tm : BitVec 2
  ts : Bool
  ton : Bool
  te : Bool
  phase : TmPhase
  primed : Bool
  pfd : Bool
  deriving DecidableEq, Repr

/-- The stored bits of RTCC (10_state R60); LVDO is an input. -/
structure Rtcc where
  /-- RT2 : RT1 : RT0 -/
  rt : BitVec 3
  lvdc : Bool
  qosc : Bool
  deriving DecidableEq, Repr

/-- The watchdog stage and the pre-clear marks (10_state R69 (d)). -/
structure Wdt where
  cnt : Bool
  armed1 : Bool
  armed2 : Bool
  deriving DecidableEq, Repr

/-- Whether the machine executes, is halted, or waits out the start-up delay after a wake-up with so many system clock
periods left (60_exceptions R392, R397). -/
inductive Power where
  | running
  | halted
  | waking (periods : Nat)
  deriving DecidableEq, Repr

/-- What the outside world holds on the pins, which is also the last level each edge detector sampled (60_exceptions R355,
10_state R69 (c) and (g)). -/
structure Pins where
  /-- port A pins something outside drives -/
  paDriven : BitVec 8
  /-- the level it drives them to -/
  paLevel : BitVec 8
  /-- PB0/INT -/
  int : Bool
  /-- PB2/TMR -/
  tmr : Bool
  /-- the supply is below the low voltage detector's level -/
  vddLow : Bool
  deriving DecidableEq, Repr

/-- One device event that the outside world decides (60_exceptions R355). -/
inductive Event where
  /-- a tick of fS from a source other than the instruction clock -/
  | fsTick
  /-- what drives the port A pins changes -/
  | portA (driven level : BitVec 8)
  /-- the level on PB0/INT -/
  | intPin (level : Bool)
  /-- the level on PB2/TMR -/
  | tmrPin (level : Bool)
  /-- the supply falls below, or rises above, the low voltage detector's level -/
  | supply (low : Bool)
  /-- a low pulse on RES -/
  | resetPin
  /-- the supply stays in the low voltage window for longer than tLVR -/
  | lowVoltage
  /-- the supply rises from below VPOR -/
  | powerOn
  deriving DecidableEq, Repr

/-- What happens at one place between two instructions: an event from outside, or the device tick of that index among those
still due (20_memory R120, 60_exceptions R355, log 12). -/
inductive Happening where
  | event (e : Event)
  | tick (i : Nat)
  deriving DecidableEq, Repr

/-- What the outside world does around one step (60_exceptions R355): its events before the interrupt check, then the order
in which its events and the device ticks of the step's cycles come after the instruction. Ticks that `during` does not place
come after it, in the order they are due. -/
structure Boundary where
  before : List Event
  during : List Happening
  deriving DecidableEq, Repr

/-- Nothing from outside. -/
def Boundary.quiet : Boundary := { before := [], during := [] }

/-- The four interrupt sources (60_exceptions R321). -/
inductive Source where
  | ext | tmr | tb | rtc
  deriving DecidableEq, Repr

/-- One mark per source (the model's own, 60_exceptions R340, log 11). -/
structure Marks where
  ext : Bool
  tmr : Bool
  tb : Bool
  rtc : Bool
  deriving DecidableEq, Repr

/-- No source marked. -/
def Marks.clear : Marks := { ext := false, tmr := false, tb := false, rtc := false }

/-- The state of the machine. -/
structure State where
  acc : BitVec 8
  pc : BitVec 10
  /-- STK, newest first; `depth` is its length -/
  stk : List (BitVec 10)
  alu : AluFlags
  pdf : Bool
  /-- TO -/
  timeOut : Bool
  mp0 : BitVec 7
  mp1 : BitVec 7
  bp : Bool
  tblp : BitVec 8
  tblh : BitVec 6
  intc : Intc
  timer : Timer
  rtcc : Rtcc
  paLatch : BitVec 8
  ram : List Host.Cell
  lcd : List Host.Cell
  wdt : Wdt
  mft : BitVec 15
  power : Power
  -- parameters and inputs of the step
  rom : List (Nat × BitVec 14)
  opts : Config.Options
  pins : Pins
  /-- what the outside world does around the steps to come, nearest first; nothing where the list ends -/
  inputs : List Boundary
  -- the model's own
  draws : Nat
  tmrBlocked : Bool
  unseen : Marks
  deriving DecidableEq, Repr

/-- Why the machine stops. The hardware has no trap (60_exceptions R320): each of these marks a point where the spec gives
the machine no behaviour. -/
inductive Fault where
  /-- Raised by the fetch, on a word that decodes to no instruction (30_encoding R149). Safe: the spec says nothing about
  what the hardware does there. -/
  | undefinedOpcode (w : BitVec 14)
  /-- Raised by RET, RET A,x and RETI on an empty stack (10_state R37). Safe. -/
  | stackUnderflow
  /-- Raised by any access through MP1 with BP = 1 outside 40H to 4EH (20_memory R108). Safe. -/
  | bank1OutsideLcd
  /-- Raised by SIZ and SDZ whose operand is PCL (46_branch R271). Safe. -/
  | skipWritesPcl
  /-- Raised by a write to TMRC that turns the timer on in the unused mode 00 (60_exceptions R375). Safe. -/
  | timerMode00
  /-- Raised by the fetch, at a program address the image gives no word for (91 N21, log 7). Safe. -/
  | wordNotGiven (p : BitVec 10)
  deriving DecidableEq, Repr

/-- What the model declines to run. -/
inductive Refusal where
  /-- Raised by an arm of exec whose instruction has no meaning yet; no arm of this model does. Safe. -/
  | notModelled (mnemonic : String)
  deriving DecidableEq, Repr

/-- The outcome of a step or of an instruction. -/
abbrev Result := Host.Outcome State Fault Refusal

/-- The state after power-on (70_reset R422, R423, 10_state R71, R72). What the spec marks unknown has a named value here
(log 5, log 6); the options, the pins and the empty list of boundaries are the model's (log 4, log 8). -/
def State.reset : State where
  acc := 0x00        -- unknown: DESIGN CHOICE, unsafe, log 5
  pc := 0x000
  stk := []
  alu := { c := false, ac := false, z := false, ov := false }   -- unknown: DESIGN CHOICE, unsafe, log 5
  pdf := false
  timeOut := false
  mp0 := 0x00        -- unknown: DESIGN CHOICE, unsafe, log 5
  mp1 := 0x00        -- unknown: DESIGN CHOICE, unsafe, log 5
  bp := false
  tblp := 0x00       -- unknown: DESIGN CHOICE, unsafe, log 5
  tblh := 0x00       -- unknown: DESIGN CHOICE, unsafe, log 5
  intc := { emi := false, eei := false, eti := false, etbi := false, erti := false
            eif := false, tf := false, tbf := false, rtf := false }
  timer := { cnt := 0x00, pre := 0x00   -- unknown: DESIGN CHOICE, unsafe, log 5
             tm := 0b00, ts := false, ton := false, te := true
             phase := .idle, primed := false
             pfd := false }             -- not given: DESIGN CHOICE, unsafe, log 5
  rtcc := { rt := 0b111, lvdc := false, qosc := false }
  paLatch := 0xFF
  ram := []
  lcd := []
  wdt := { cnt := false, armed1 := false, armed2 := false }
  mft := 0
  power := .running
  rom := []
  opts := Config.Options.default
  pins := { paDriven := 0x00, paLevel := 0x00, int := true, tmr := true, vddLow := false }
  inputs := []
  draws := 0
  tmrBlocked := false
  unseen := Marks.clear

end Sys2Proof.Machine
end

