-- ==== Sys2Proof/Machine/Flags.lean ====
section
/-! DEFINITION. The flag computations: the adder (40_arithmetic R170, R171), zero (41_logic R201, 42_incdec R214), the
rotates' carry (43_rotate R228), decimal adjust (40_arithmetic R182), and which flags an instruction writes. -/

namespace Sys2Proof.Machine

/-- The flags an instruction writes, with their values; `none` where it leaves the flag alone. -/
structure FlagUpdate where
  c : Option Bool := none
  ac : Option Bool := none
  z : Option Bool := none
  ov : Option Bool := none
  deriving DecidableEq, Repr

/-- The flags after an update. -/
def AluFlags.update (f : AluFlags) (u : FlagUpdate) : AluFlags where
  c := u.c.getD f.c
  ac := u.ac.getD f.ac
  z := u.z.getD f.z
  ov := u.ov.getD f.ov

/-- The same flags written, with free values: bits 0 to 3 of `free` (10_state R47). -/
def FlagUpdate.freed (u : FlagUpdate) (free : BitVec 4) : FlagUpdate where
  c := u.c.map fun _ => free.getLsbD 0
  ac := u.ac.map fun _ => free.getLsbD 1
  z := u.z.map fun _ => free.getLsbD 2
  ov := u.ov.map fun _ => free.getLsbD 3

/-- The exact sum of `add8` (40_arithmetic R170). -/
def addExact (a b : Byte) (cin : Bool) : Nat := a.toNat + b.toNat + cin.toNat

/-- The result byte of `add8`. -/
def addResult (a b : Byte) (cin : Bool) : Byte := BitVec.ofNat 8 (addExact a b cin)

/-- The carry into bit 7, `c6` of 40_arithmetic R170. -/
def addCarry6 (a b : Byte) (cin : Bool) : Bool := 128 ≤ a.toNat % 128 + b.toNat % 128 + cin.toNat

/-- The carry out of bit 7. -/
def addCarry (a b : Byte) (cin : Bool) : Bool := 256 ≤ addExact a b cin

/-- The four flags of `add8` (40_arithmetic R170). -/
def addUpdate (a b : Byte) (cin : Bool) : FlagUpdate where
  c := some (addCarry a b cin)
  ac := some (decide (16 ≤ a.toNat % 16 + b.toNat % 16 + cin.toNat))
  z := some (addResult a b cin == 0)
  ov := some (addCarry6 a b cin ^^ addCarry a b cin)

/-- Z alone, from the result byte (41_logic R201, 42_incdec R214). -/
def zeroUpdate (r : Byte) : FlagUpdate := { z := some (r == 0) }

/-- C alone (43_rotate R228, 40_arithmetic R182). -/
def carryUpdate (c : Bool) : FlagUpdate := { c := some c }

/-- DAA's value before it is cut to a byte (40_arithmetic R182): 00H, 06H, 60H or 66H added to ACC. The option picks the
reading of the high-nibble test (92_eei D6); the spec's decision is the sequential one. -/
def daaExact (test : Config.DaaTest) (a : Byte) (ac c : Bool) : Nat :=
  let low := if 9 < a.toNat % 16 || ac then a.toNat + 0x06 else a.toNat
  let tested := match test with
    | .sequential => low
    | .original => a.toNat
  if 9 < tested / 16 || c then low + 0x60 else low

/-- The byte DAA writes. -/
def daaResult (test : Config.DaaTest) (a : Byte) (ac c : Bool) : Byte := BitVec.ofNat 8 (daaExact test a ac c)

/-- The carry DAA leaves: never cleared, set by a carry out of bit 7. -/
def daaCarry (test : Config.DaaTest) (a : Byte) (ac c : Bool) : Bool := c || decide (256 ≤ daaExact test a ac c)

end Sys2Proof.Machine
end

