-- ==== Sys2Proof/Machine/Ports.lean ====
section
/-! DEFINITION. The levels on the port pads (60_exceptions R381 to R388). -/

namespace Sys2Proof.Machine

/-- The port A pins configured CMOS; PA4 to PA7 never are (60_exceptions R381). -/
def cmosPins (o : Config.Options) : Byte := 0x0#4 ++ o.paCmos

/-- The port A pins with a pull-high; PA4 to PA7 always have one (60_exceptions R381). -/
def pulledPins (o : Config.Options) : Byte := 0xF#4 ++ o.paPullHigh

/-- `ext[i]` of 60_exceptions R382: what the outside drives, else 1 with a pull-high, else a free value. -/
def externalPad (s : State) (draw : Nat) (i : Nat) : Bool :=
  if bitOf s.pins.paDriven i then bitOf s.pins.paLevel i
  else if bitOf (pulledPins s.opts) i then true
  else bitOf (Config.floatingPads draw) i

/-- The buzzer function reaches PA0 and PA1: option selected and both pins CMOS outputs (60_exceptions R387, 93 V16). -/
def buzzerOn (o : Config.Options) : Bool := o.pa01Buzzer && bitOf (cmosPins o) 0 && bitOf (cmosPins o) 1

/-- The buzzer signal BZ, of frequency fS/2^BZ_FREQ_LOG2: the divider bit of that frequency (60_exceptions R362, R387), in
a polarity no rule fixes. DEDUCED, log 19. -/
def buzzerSignal (s : State) : Bool := s.mft.getLsbD (1 + s.opts.bzFreq.val) ^^ Config.buzzerPolarity

/-- The PFD function reaches PA3 (60_exceptions R388, 93 V16). -/
def pfdOn (o : Config.Options) : Bool := o.pa3Pfd && bitOf (cmosPins o) 3

/-- The level a CMOS pin of port A drives: its latch bit, or the buzzer or PFD signal gated by it (60_exceptions R382,
tables of R387 and R388). -/
def drivenPad (s : State) (draw : Nat) (i : Nat) : Bool :=
  let latch := bitOf s.paLatch
  if i = 0 ∧ buzzerOn s.opts then !latch 0 && buzzerSignal s
  else if i = 1 ∧ buzzerOn s.opts then !latch 0 && !latch 1 && !buzzerSignal s
  else if i = 3 ∧ pfdOn s.opts then !latch 3 && (if s.timer.ton then s.timer.pfd else Config.pfdStopped draw)
  else latch i

/-- `pad[i]` of port A (60_exceptions R382): a CMOS pin as driven, an NMOS pin the AND of its latch and the outside. -/
def padA (s : State) (draw : Nat) (i : Nat) : Bool :=
  if bitOf (cmosPins s.opts) i then drivenPad s draw i
  else bitOf s.paLatch i && externalPad s draw i

/-- The port A pad levels as a byte. -/
def padsA (s : State) (draw : Nat) : Byte := byteOf (padA s draw)

/-- What a read of PB returns: the pad levels in bits 0 and 2, `UNIMPL_BIT_READ` elsewhere (20_memory R106). -/
def padsB (s : State) : Byte :=
  let u := s.opts.unimplBitRead
  packByte u u u u u s.pins.tmr u s.pins.int

/-- The port A pins that can wake the machine: selected by option, NMOS, latch bit 1 (60_exceptions R396). -/
def wakePins (s : State) : Byte := s.opts.paWake &&& ~~~cmosPins s.opts &&& s.paLatch

end Sys2Proof.Machine
end

