-- ==== Sys2Proof/Machine/Ops.lean ====
section
/-! DEFINITION. The named operations over memory and registers: where a data address leads (20_memory R104 to R108), what a
read returns and does, what a write does, the stack (10_state R36, R37), the interrupt requests, taking an interrupt and
returning from one (60_exceptions R339 to R342), waking (R397), and the program memory. -/

namespace Sys2Proof.Machine

/-- Go on from an outcome where it is a next state. -/
def andThen (o : Result) (k : State → Result) : Result :=
  match o with
  | .next s => k s
  | .fault f => .fault f
  | .refused r => .refused r

/-! ### Where a data address leads -/

/-- What a resolved operand is: a register, a byte of a memory, or one of the places the spec gives no storage
(10_state R70, 20_memory R106 to R108). -/
inductive Loc where
  /-- 00H or 02H, reached indirectly (20_memory R105) -/
  | iar
  | mp0 | mp1 | bp | acc | pcl | tblp | tblh | rtcc | status | intc0 | tmr | tmrc | pa | pb | intc1
  /-- a general purpose byte, 40H to 7FH -/
  | ram (a : Nat)
  /-- an LCD display byte, 40H to 4EH of bank 1 -/
  | lcd (a : Nat)
  /-- a bank 0 address with no register (10_state R73) -/
  | unimplemented
  /-- bank 1 outside 40H to 4EH (20_memory R108) -/
  | bank1Hole
  deriving DecidableEq, Repr

/-- Bank 0, by address (10_state R70). -/
def bank0 (a : DataAddr) : Loc :=
  match a.toNat with
  | 0x00 => .iar
  | 0x01 => .mp0
  | 0x02 => .iar
  | 0x03 => .mp1
  | 0x04 => .bp
  | 0x05 => .acc
  | 0x06 => .pcl
  | 0x07 => .tblp
  | 0x08 => .tblh
  | 0x09 => .rtcc
  | 0x0A => .status
  | 0x0B => .intc0
  | 0x0D => .tmr
  | 0x0E => .tmrc
  | 0x12 => .pa
  | 0x14 => .pb
  | 0x1E => .intc1
  | n => if 0x40 ≤ n then .ram n else .unimplemented

/-- Bank 1, by address (20_memory R108). -/
def bank1 (a : DataAddr) : Loc :=
  if 0x40 ≤ a.toNat ∧ a.toNat ≤ 0x4E then .lcd a.toNat else .bank1Hole

/-- `Resolve` (20_memory R104): 00H goes through MP0 to bank 0, 02H through MP1 to the bank BP selects, any other field is
the bank 0 address itself. -/
def locate (m : DataAddr) (s : State) : Loc :=
  if m = 0x00 then bank0 s.mp0
  else if m = 0x02 then (if s.bp then bank1 s.mp1 else bank0 s.mp1)
  else bank0 m

/-! ### Reading -/

/-- STATUS as a byte (10_state R46). -/
def statusByte (s : State) : Byte :=
  packByte false false s.timeOut s.pdf s.alu.ov s.alu.z s.alu.ac s.alu.c

/-- INTC0 as a byte (10_state R56). -/
def intc0Byte (s : State) : Byte :=
  packByte false s.intc.tbf s.intc.tf s.intc.eif s.intc.etbi s.intc.eti s.intc.eei s.intc.emi

/-- INTC1 as a byte (10_state R57). -/
def intc1Byte (s : State) : Byte := packByte false false false s.intc.rtf false false false s.intc.erti

/-- TMRC as a byte (10_state R59). -/
def tmrcByte (s : State) : Byte :=
  packByte (s.timer.tm.getLsbD 1) (s.timer.tm.getLsbD 0) s.timer.ts s.timer.ton s.timer.te false false false

/-- LVDO (10_state R62): the comparator while option and LVDC enable it, else 0 (92_eei D12). -/
def lvdo (s : State) : Bool := s.opts.lvdEnable && s.rtcc.lvdc && s.pins.vddLow

/-- RTCC as a byte (10_state R60). -/
def rtccByte (s : State) : Byte :=
  packByte false false (lvdo s) s.rtcc.qosc s.rtcc.lvdc
    (s.rtcc.rt.getLsbD 2) (s.rtcc.rt.getLsbD 1) (s.rtcc.rt.getLsbD 0)

/-- BP as a byte (10_state R52). -/
def bpByte (s : State) : Byte :=
  let u := s.opts.unimplBitRead
  packByte u u u u u u u s.bp

/-- `ReadTarget`: the byte a read returns (20_memory R105, R106, R108). -/
def readLoc (l : Loc) (s : State) : Byte :=
  match l with
  | .iar => 0x00
  | .mp0 => 1#1 ++ s.mp0
  | .mp1 => 1#1 ++ s.mp1
  | .bp => bpByte s
  | .acc => s.acc
  | .pcl => lowByte s.pc
  | .tblp => s.tblp
  | .tblh => 0b00#2 ++ s.tblh
  | .rtcc => rtccByte s
  | .status => statusByte s
  | .intc0 => intc0Byte s
  | .tmr => s.timer.cnt
  | .tmrc => tmrcByte s
  | .pa => padsA s s.draws
  | .pb => padsB s
  | .intc1 => intc1Byte s
  | .ram a => Memory.read s.ram a
  | .lcd a => Memory.read s.lcd a
  | .unimplemented => s.opts.unimplAddrRead
  | .bank1Hole => 0x00   -- never reached: an operand there faults

/-- What a read does (20_memory R106): a read of TMR blocks its clock, a read of port A uses up one draw of the floating
pads; nothing else. -/
def readEffect (l : Loc) (s : State) : State :=
  match l with
  | .tmr => { s with tmrBlocked := true }
  | .pa => { s with draws := s.draws + 1 }
  | .iar | .mp0 | .mp1 | .bp | .acc | .pcl | .tblp | .tblh | .rtcc | .status | .intc0 | .tmrc | .pb | .intc1 | .ram _
  | .lcd _ | .unimplemented | .bank1Hole => s

/-! ### Writing -/

/-- Bits 9 and 8 of PC for a PCL write and for TABRDC (10_state R49, 47_tableread R286): those of N + 1, which PC holds
during execution, or of N by the option PAGE_BASE (92_eei D2). -/
def pageBits (s : State) : BitVec 2 :=
  match s.opts.pageBase with
  | .following => s.pc.extractLsb' 8 2
  | .itself => (s.pc - 1).extractLsb' 8 2

/-- A write to TMRC (10_state R59, 60_exceptions R376): in pulse width mode a 0-to-1 write of TON arms the measurement; a
1-to-0 write of TON completes the first enable-then-disable (70_reset R432). -/
def writeTmrc (v : Byte) (t : Timer) : Timer :=
  let tm := v.extractLsb' 6 2
  let ton := bitOf v 4
  { t with
    tm := tm
    ts := bitOf v 5
    ton := ton
    te := bitOf v 3
    phase := if tm = 0b11 ∧ ton ∧ !t.ton then .armed else t.phase
    primed := t.primed || (t.ton && !ton) }

/-- A write to TMR (10_state R58): the preload register, and the counter too while the timer is off. -/
def writeTmr (v : Byte) (t : Timer) : Timer :=
  { t with pre := v, cnt := if t.ton then t.cnt else v }

/-- `WriteTarget` (20_memory R105, R107, R108): what writing a byte does, where the write is defined. -/
def writeLoc (l : Loc) (v : Byte) (s : State) : State :=
  match l with
  | .iar => s
  | .mp0 => { s with mp0 := v.extractLsb' 0 7 }
  | .mp1 => { s with mp1 := v.extractLsb' 0 7 }
  | .bp => { s with bp := bitOf v 0 }
  | .acc => { s with acc := v }
  | .pcl => { s with pc := pageBits s ++ v }
  | .tblp => { s with tblp := v }
  | .tblh => s
  | .rtcc => { s with rtcc := { rt := v.extractLsb' 0 3, lvdc := bitOf v 3, qosc := bitOf v 4 } }
  | .status => { s with alu := { c := bitOf v 0, ac := bitOf v 1, z := bitOf v 2, ov := bitOf v 3 } }
  | .intc0 =>
    { s with intc := { s.intc with
        emi := bitOf v 0, eei := bitOf v 1, eti := bitOf v 2, etbi := bitOf v 3
        eif := bitOf v 4, tf := bitOf v 5, tbf := bitOf v 6 } }
  | .tmr => { s with timer := writeTmr v s.timer }
  | .tmrc => { s with timer := writeTmrc v s.timer }
  | .pa => { s with paLatch := v }
  | .pb => s
  | .intc1 => { s with intc := { s.intc with erti := bitOf v 0, rtf := bitOf v 4 } }
  | .ram a => { s with ram := Memory.write s.ram a v }
  | .lcd a => { s with lcd := Memory.write s.lcd a (v &&& s.opts.lcdMask) }
  | .unimplemented => s
  | .bank1Hole => s   -- never reached: an operand there faults

/-- The write turns the timer on in the unused mode 00 (60_exceptions R375). -/
def startsMode00 (l : Loc) (v : Byte) : Bool := decide (l = .tmrc) && bitOf v 4 && (v.extractLsb' 6 2 == 0b00)

/-- `MemWrite` at a resolved operand, with the two points at which the spec gives a write no behaviour
(20_memory R108, 60_exceptions R375). -/
def store (l : Loc) (v : Byte) (s : State) : Result :=
  if l = .bank1Hole then .fault .bank1OutsideLcd
  else if startsMode00 l v then .fault .timerMode00
  else .next (writeLoc l v s)

/-! ### The stack -/

/-- `push` (10_state R36): the newest two addresses are kept. -/
def push (p : ProgAddr) (stk : List ProgAddr) : List ProgAddr := (p :: stk).take 2

/-- `pop` into PC, the return from a subroutine and from an interrupt (10_state R37, 60_exceptions R342); what else the
return does is done after it. -/
def returnThen (k : State → State) (s : State) : Result :=
  match s.stk with
  | [] => .fault .stackUnderflow
  | p :: rest => .next (k { s with pc := p, stk := rest })

/-! ### Interrupts -/

/-- The request flag of a source (60_exceptions R321). -/
def requested (i : Intc) : Source → Bool
  | .ext => i.eif
  | .tmr => i.tf
  | .tb => i.tbf
  | .rtc => i.rtf

/-- The enable bit of a source (60_exceptions R321). -/
def enabled (i : Intc) : Source → Bool
  | .ext => i.eei
  | .tmr => i.eti
  | .tb => i.etbi
  | .rtc => i.erti

/-- A source's request flag written. -/
def setRequest (src : Source) (b : Bool) (i : Intc) : Intc :=
  match src with
  | .ext => { i with eif := b }
  | .tmr => { i with tf := b }
  | .tb => { i with tbf := b }
  | .rtc => { i with rtf := b }

/-- The entry address of a source (60_exceptions R321, 20_memory R115). -/
def vector : Source → ProgAddr
  | .ext => 0x004
  | .tmr => 0x008
  | .tb => 0x00C
  | .rtc => 0x010

/-- A source's mark. -/
def marked (k : Marks) : Source → Bool
  | .ext => k.ext
  | .tmr => k.tmr
  | .tb => k.tb
  | .rtc => k.rtc

/-- A source's mark written. -/
def setMark (src : Source) (b : Bool) (k : Marks) : Marks :=
  match src with
  | .ext => { k with ext := b }
  | .tmr => { k with tmr := b }
  | .tb => { k with tb := b }
  | .rtc => { k with rtc := b }

/-- `acknowledgeable` (60_exceptions R339), for a request the check already sees (R340, log 11). -/
def acknowledgeable (src : Source) (s : State) : Bool :=
  s.intc.emi && decide (s.stk.length < 2) && requested s.intc src && enabled s.intc src && !marked s.unseen src

/-- Taking an interrupt (60_exceptions R341): PC is pushed, the request flag and EMI are cleared, PC gets the entry
address; nothing else changes. -/
def enter (src : Source) (s : State) : State :=
  { s with
    stk := push s.pc s.stk
    intc := { setRequest src false s.intc with emi := false }
    pc := vector src }

/-- The interrupt check before an instruction (60_exceptions R340), in the priority order of R338. -/
def interruptCheck (s : State) : State :=
  if acknowledgeable .ext s then enter .ext s
  else if acknowledgeable .tmr s then enter .tmr s
  else if acknowledgeable .tb s then enter .tb s
  else if acknowledgeable .rtc s then enter .rtc s
  else s

/-- The start-up delay after a wake-up, in system clock periods (60_exceptions R397). -/
def startUpPeriods : Nat := 1024

/-- `wake()` (60_exceptions R397): a halted machine starts the start-up delay. -/
def wake (s : State) : State :=
  match s.power with
  | .halted => { s with power := .waking startUpPeriods }
  | .running | .waking _ => s

/-- A device raises a request (60_exceptions R335): the flag sticks; a 0-to-1 change wakes a halted machine (R395); raised
while the machine runs, the next check may miss it, by a free value (R340, log 11). -/
def raise (src : Source) (s : State) : State :=
  if requested s.intc src then s
  else
    let s' := { s with intc := setRequest src true s.intc }
    match s'.power with
    | .running => { s' with unseen := setMark src (Config.seenLate s'.draws) s'.unseen, draws := s'.draws + 1 }
    | .halted => wake s'
    | .waking _ => s'

/-! ### The program memory -/

/-- The word a table read gets (47_tableread R285): the image's, or a free value of the address where the image gives none
(log 7). -/
def tableWord (s : State) (p : ProgAddr) : Word :=
  (Rom.word s.rom p).getD (Config.unprogrammedWord p.toNat)

end Sys2Proof.Machine
end

