-- ==== Sys2Proof/Machine/Operands.lean ====
section
/-! DEFINITION. The operand forms: an instruction reads `[m]` once, computes, and leaves its result in ACC or writes it back
to the operand resolved once (20_memory R110, R113); the flags it computes; the skip (46_branch R256). -/

namespace Sys2Proof.Machine

/-- `MemRead` of the operand (20_memory R104, R106): go on with the resolved operand, the byte and the state after the
read's effect. -/
def withOperand (m : DataAddr) (s : State) (k : Loc → Byte → State → Result) : Result :=
  let l := locate m s
  if l = .bank1Hole then .fault .bank1OutsideLcd
  else k l (readLoc l s) (readEffect l s)

/-- The result byte and the flags go to ACC and STATUS. -/
def setAccFlags (r : Byte) (u : FlagUpdate) (s : State) : State :=
  { s with acc := r, alu := s.alu.update u }

/-- The flags an instruction computes, after its write to `l`: where that was STATUS, the flags the instruction affects
are free values (10_state R47). -/
def setFlagsAfter (l : Loc) (u : FlagUpdate) (s : State) : State :=
  if l = .status then { s with alu := s.alu.update (u.freed (Config.freeFlags s.draws)), draws := s.draws + 1 }
  else { s with alu := s.alu.update u }

/-- Result in ACC: `ACC <- f [m]`, and the flags `u [m]`. -/
def loadOp (m : DataAddr) (f : Byte → Byte) (u : Byte → FlagUpdate) (s : State) : Result :=
  withOperand m s fun _ v s' => .next (setAccFlags (f v) (u v) s')

/-- Read-modify-write with flags: `[m] <- f [m]`, and the flags `u [m]`. -/
def modifyFlags (m : DataAddr) (f : Byte → Byte) (u : Byte → FlagUpdate) (s : State) : Result :=
  withOperand m s fun l v s' => andThen (store l (f v) s') fun s'' => .next (setFlagsAfter l (u v) s'')

/-- Read-modify-write with no flag: `[m] <- f [m]`. -/
def modifyByte (m : DataAddr) (f : Byte → Byte) (s : State) : Result :=
  withOperand m s fun l v s' => store l (f v) s'

/-- A write with no read: `[m] <- v`. -/
def write (m : DataAddr) (v : Byte) (s : State) : Result := store (locate m s) v s

/-- `skip` where the condition holds (46_branch R256): PC, which is the following word's address, passes it. -/
def skipIf (cond : Bool) (s : State) : State := if cond then { s with pc := s.pc + 1 } else s

/-- Test the operand and skip (46_branch R262, R264, R265). -/
def testSkip (m : DataAddr) (cond : Byte → Bool) (s : State) : Result :=
  withOperand m s fun _ v s' => .next (skipIf (cond v) s')

/-- `ACC <- f [m]`, and skip where the result is zero (46_branch R263, R269, R270). -/
def loadSkip (m : DataAddr) (f : Byte → Byte) (s : State) : Result :=
  withOperand m s fun _ v s' => .next (skipIf (f v == 0) { s' with acc := f v })

/-- `[m] <- f [m]`, and skip where the result is zero (46_branch R267, R268); PCL as the operand has no defined result
(R271). -/
def modifySkip (m : DataAddr) (f : Byte → Byte) (s : State) : Result :=
  withOperand m s fun l v s' =>
    if l = .pcl then .fault .skipWritesPcl
    else andThen (store l (f v) s') fun s'' => .next (skipIf (f v == 0) s'')

/-- A table read (47_tableread R285): the low byte of the word at `p` to `[m]`, bits 13 to 8 to TBLH, in that order. -/
def tableRead (p : ProgAddr) (m : DataAddr) (s : State) : Result :=
  let w := tableWord s p
  andThen (write m (lowByte w) s) fun s' => .next { s' with tblh := w.extractLsb' 8 6 }

end Sys2Proof.Machine
end

