-- ==== Sys2Proof/Machine/Arithmetic.lean ====
section
/-! DEFINITION. The arithmetic instructions (40_arithmetic). Subtraction is `add8(a, ~b, 1)`, with carry `add8(a, ~b, C)`
(R171). -/

namespace Sys2Proof.Machine

/-- ADD A,[m] (40_arithmetic R172). -/
def execAddAM (m : DataAddr) (s : State) : Result :=
  loadOp m (fun v => addResult s.acc v false) (fun v => addUpdate s.acc v false) s

/-- ADDM A,[m] (40_arithmetic R173). -/
def execAddmAM (m : DataAddr) (s : State) : Result :=
  modifyFlags m (fun v => addResult s.acc v false) (fun v => addUpdate s.acc v false) s

/-- ADD A,x (40_arithmetic R174). -/
def execAddAX (x : Byte) (s : State) : Result :=
  .next (setAccFlags (addResult s.acc x false) (addUpdate s.acc x false) s)

/-- ADC A,[m] (40_arithmetic R175). -/
def execAdcAM (m : DataAddr) (s : State) : Result :=
  loadOp m (fun v => addResult s.acc v s.alu.c) (fun v => addUpdate s.acc v s.alu.c) s

/-- ADCM A,[m] (40_arithmetic R176). -/
def execAdcmAM (m : DataAddr) (s : State) : Result :=
  modifyFlags m (fun v => addResult s.acc v s.alu.c) (fun v => addUpdate s.acc v s.alu.c) s

/-- SUB A,x (40_arithmetic R177). -/
def execSubAX (x : Byte) (s : State) : Result :=
  .next (setAccFlags (addResult s.acc (~~~x) true) (addUpdate s.acc (~~~x) true) s)

/-- SUB A,[m] (40_arithmetic R178). -/
def execSubAM (m : DataAddr) (s : State) : Result :=
  loadOp m (fun v => addResult s.acc (~~~v) true) (fun v => addUpdate s.acc (~~~v) true) s

/-- SUBM A,[m] (40_arithmetic R179): ACC less memory, to memory. -/
def execSubmAM (m : DataAddr) (s : State) : Result :=
  modifyFlags m (fun v => addResult s.acc (~~~v) true) (fun v => addUpdate s.acc (~~~v) true) s

/-- SBC A,[m] (40_arithmetic R180). -/
def execSbcAM (m : DataAddr) (s : State) : Result :=
  loadOp m (fun v => addResult s.acc (~~~v) s.alu.c) (fun v => addUpdate s.acc (~~~v) s.alu.c) s

/-- SBCM A,[m] (40_arithmetic R181). -/
def execSbcmAM (m : DataAddr) (s : State) : Result :=
  modifyFlags m (fun v => addResult s.acc (~~~v) s.alu.c) (fun v => addUpdate s.acc (~~~v) s.alu.c) s

/-- DAA [m] (40_arithmetic R182): the adjusted ACC is written to memory, which is not read; only C is a flag of it. -/
def execDaaM (m : DataAddr) (s : State) : Result :=
  andThen (write m (daaResult s.opts.daaTest s.acc s.alu.ac s.alu.c) s) fun s' =>
    .next (setFlagsAfter (locate m s) (carryUpdate (daaCarry s.opts.daaTest s.acc s.alu.ac s.alu.c)) s')

end Sys2Proof.Machine
end

