-- ==== Sys2Proof/Machine/BitOp.lean ====
section
/-! DEFINITION. The bit operation instructions (45_bitop): read-modify-write of the whole byte, no flag (R247). -/

namespace Sys2Proof.Machine

/-- CLR [m].i (45_bitop R245). -/
def execClrBit (i : BitNo) (m : DataAddr) (s : State) : Result :=
  modifyByte m (fun v => v &&& ~~~bitMask i) s

/-- SET [m].i (45_bitop R246). -/
def execSetBit (i : BitNo) (m : DataAddr) (s : State) : Result :=
  modifyByte m (fun v => v ||| bitMask i) s

end Sys2Proof.Machine
end

