-- ==== Sys2Proof/Machine/Branch.lean ====
section
/-! DEFINITION. The branch instructions (46_branch). PC already holds the address of the following word (00_scope R16). -/

namespace Sys2Proof.Machine

/-- JMP addr (46_branch R257). -/
def execJmp (addr : ProgAddr) (s : State) : Result := .next { s with pc := addr }

/-- CALL addr (46_branch R258). -/
def execCall (addr : ProgAddr) (s : State) : Result := .next { s with stk := push s.pc s.stk, pc := addr }

/-- RET (46_branch R259). -/
def execRet (s : State) : Result := returnThen (fun s' => s') s

/-- RET A,x (46_branch R260). -/
def execRetAX (x : Byte) (s : State) : Result := returnThen (fun s' => { s' with acc := x }) s

/-- RETI (46_branch R261). -/
def execReti (s : State) : Result := returnThen (fun s' => { s' with intc := { s'.intc with emi := true } }) s

/-- SZ [m] (46_branch R262). -/
def execSzM (m : DataAddr) (s : State) : Result := testSkip m (fun v => v == 0) s

/-- SZA [m] (46_branch R263). -/
def execSzaM (m : DataAddr) (s : State) : Result := loadSkip m (fun v => v) s

/-- SZ [m].i (46_branch R264). -/
def execSzBit (i : BitNo) (m : DataAddr) (s : State) : Result := testSkip m (fun v => !bitOf v i.toNat) s

/-- SNZ [m].i (46_branch R265). -/
def execSnzBit (i : BitNo) (m : DataAddr) (s : State) : Result := testSkip m (fun v => bitOf v i.toNat) s

/-- SIZ [m] (46_branch R267). -/
def execSizM (m : DataAddr) (s : State) : Result := modifySkip m (fun v => v + 1) s

/-- SDZ [m] (46_branch R268). -/
def execSdzM (m : DataAddr) (s : State) : Result := modifySkip m (fun v => v + 255) s

/-- SIZA [m] (46_branch R269). -/
def execSizaM (m : DataAddr) (s : State) : Result := loadSkip m (fun v => v + 1) s

/-- SDZA [m] (46_branch R270). -/
def execSdzaM (m : DataAddr) (s : State) : Result := loadSkip m (fun v => v + 255) s

end Sys2Proof.Machine
end

