-- ==== Sys2Proof/Machine/IncDec.lean ====
section
/-! DEFINITION. The increment and decrement instructions (42_incdec). They wrap; Z is the only flag (R214). -/

namespace Sys2Proof.Machine

/-- INCA [m] (42_incdec R210). -/
def execIncaM (m : DataAddr) (s : State) : Result :=
  loadOp m (fun v => v + 1) (fun v => zeroUpdate (v + 1)) s

/-- INC [m] (42_incdec R211). -/
def execIncM (m : DataAddr) (s : State) : Result :=
  modifyFlags m (fun v => v + 1) (fun v => zeroUpdate (v + 1)) s

/-- DECA [m] (42_incdec R212). -/
def execDecaM (m : DataAddr) (s : State) : Result :=
  loadOp m (fun v => v + 255) (fun v => zeroUpdate (v + 255)) s

/-- DEC [m] (42_incdec R213). -/
def execDecM (m : DataAddr) (s : State) : Result :=
  modifyFlags m (fun v => v + 255) (fun v => zeroUpdate (v + 255)) s

end Sys2Proof.Machine
end

