-- ==== Sys2Proof/Machine/Logic.lean ====
section
/-! DEFINITION. The logic instructions (41_logic). Z is the only flag, from the computed byte (R201). -/

namespace Sys2Proof.Machine

/-- AND A,[m] (41_logic R190). -/
def execAndAM (m : DataAddr) (s : State) : Result :=
  loadOp m (fun v => s.acc &&& v) (fun v => zeroUpdate (s.acc &&& v)) s

/-- OR A,[m] (41_logic R191). -/
def execOrAM (m : DataAddr) (s : State) : Result :=
  loadOp m (fun v => s.acc ||| v) (fun v => zeroUpdate (s.acc ||| v)) s

/-- XOR A,[m] (41_logic R192). -/
def execXorAM (m : DataAddr) (s : State) : Result :=
  loadOp m (fun v => s.acc ^^^ v) (fun v => zeroUpdate (s.acc ^^^ v)) s

/-- ANDM A,[m] (41_logic R193). -/
def execAndmAM (m : DataAddr) (s : State) : Result :=
  modifyFlags m (fun v => s.acc &&& v) (fun v => zeroUpdate (s.acc &&& v)) s

/-- ORM A,[m] (41_logic R194). -/
def execOrmAM (m : DataAddr) (s : State) : Result :=
  modifyFlags m (fun v => s.acc ||| v) (fun v => zeroUpdate (s.acc ||| v)) s

/-- XORM A,[m] (41_logic R195). -/
def execXormAM (m : DataAddr) (s : State) : Result :=
  modifyFlags m (fun v => s.acc ^^^ v) (fun v => zeroUpdate (s.acc ^^^ v)) s

/-- AND A,x (41_logic R196). -/
def execAndAX (x : Byte) (s : State) : Result :=
  .next (setAccFlags (s.acc &&& x) (zeroUpdate (s.acc &&& x)) s)

/-- OR A,x (41_logic R197). -/
def execOrAX (x : Byte) (s : State) : Result :=
  .next (setAccFlags (s.acc ||| x) (zeroUpdate (s.acc ||| x)) s)

/-- XOR A,x (41_logic R198). -/
def execXorAX (x : Byte) (s : State) : Result :=
  .next (setAccFlags (s.acc ^^^ x) (zeroUpdate (s.acc ^^^ x)) s)

/-- CPL [m] (41_logic R199). -/
def execCplM (m : DataAddr) (s : State) : Result :=
  modifyFlags m (fun v => ~~~v) (fun v => zeroUpdate (~~~v)) s

/-- CPLA [m] (41_logic R200). -/
def execCplaM (m : DataAddr) (s : State) : Result :=
  loadOp m (fun v => ~~~v) (fun v => zeroUpdate (~~~v)) s

end Sys2Proof.Machine
end

