-- ==== Sys2Proof/Machine/Devices.lean ====
section
/-! DEFINITION. The on-chip devices: the resets (70_reset R420 to R427, 60_exceptions R366, R398), the timer/event counter
(60_exceptions R374 to R379), the multi-function timer with the watchdog, time base and real time clock (R360 to R373), the
pin events, and the order of events and ticks between two instructions (20_memory R120, 60_exceptions R355). -/

namespace Sys2Proof.Machine

/-! ### Reset -/

/-- The chip resets; an LVR is a RES reset in normal operation (70_reset R420, R424). -/
inductive ResetKind where
  | powerOn | resNormal | resHalt | wdtNormal
  deriving DecidableEq, Repr

/-- The general purpose addresses 40H to 7FH. -/
def ramAddrs : List Nat := List.range' 0x40 64

/-- The LCD display addresses 40H to 4EH. -/
def lcdAddrs : List Nat := List.range' 0x40 15

/-- RAM and LCD memory with content no rule fixes (10_state R72, 93 V3). -/
def forgetMemories (draw : Nat) (s : State) : State :=
  { s with
    ram := Memory.filled (Config.unknownByte draw) ramAddrs
    lcd := Memory.filled (fun a => Config.unknownLcd draw a &&& s.opts.lcdMask) lcdAddrs }

/-- What a power-on leaves unknown beside the memories (10_state R71, 70_reset R422). -/
def forgetRegisters (draw : Nat) (s : State) : State :=
  { s with
    acc := Config.unknownByte draw 0x05
    tblp := Config.unknownByte draw 0x07
    tblh := (Config.unknownByte draw 0x08).extractLsb' 0 6
    mp0 := (Config.unknownByte draw 0x01).extractLsb' 0 7
    mp1 := (Config.unknownByte draw 0x03).extractLsb' 0 7
    alu := { c := bitOf (Config.unknownByte draw 0x0A) 0, ac := bitOf (Config.unknownByte draw 0x0A) 1
             z := bitOf (Config.unknownByte draw 0x0A) 2, ov := bitOf (Config.unknownByte draw 0x0A) 3 }
    timer := { s.timer with pfd := Config.unknownPfd draw } }

/-- TO after each chip reset (70_reset R426). -/
def timeOutAfter (k : ResetKind) (old : Bool) : Bool :=
  match k with
  | .powerOn => false
  | .resNormal => old
  | .resHalt => false
  | .wdtNormal => true

/-- PDF after each chip reset (70_reset R426). -/
def pdfAfter (k : ResetKind) (old : Bool) : Bool :=
  match k with
  | .powerOn => false
  | .resNormal => old
  | .resHalt => true
  | .wdtNormal => old

/-- What every chip reset does (70_reset R422, R427, 10_state R71, R72); TMR and its preload become unknown, here free
values. -/
def resetCommon (k : ResetKind) (s : State) : State :=
  { s with
    pc := 0x000
    stk := []
    power := .running
    timer := { s.timer with
      cnt := Config.unknownByte s.draws 0x0D, pre := Config.unknownPreload s.draws
      tm := 0b00, ts := false, ton := false, te := true, phase := .idle, primed := false }
    intc := State.reset.intc
    rtcc := State.reset.rtcc
    paLatch := 0xFF
    bp := false
    mft := 0
    wdt := State.reset.wdt
    timeOut := timeOutAfter k s.timeOut
    pdf := pdfAfter k s.pdf
    tmrBlocked := false
    unseen := Marks.clear
    draws := s.draws + 1 }

/-- `chip_reset(k)` (70_reset R422). After a power-on the registers without a reset value and the memories are free values;
after the others they keep their values, the memories by the option RAM_AFTER_RESET (92_eei D19). -/
def chipReset (k : ResetKind) (s : State) : State :=
  let s' := resetCommon k s
  match k with
  | .powerOn => forgetMemories s.draws (forgetRegisters s.draws s')
  | .resNormal | .resHalt | .wdtNormal =>
    match s.opts.ramAfterReset with
    | .unchanged => s'
    | .unknown => forgetMemories s.draws s'

/-- The warm reset (60_exceptions R398, 70_reset R425): only PC, the stack and TO, and a wake-up with its start-up delay.
PDF stays. -/
def warmReset (s : State) : State :=
  { s with pc := 0x000, stk := [], timeOut := true, power := .waking startUpPeriods }

/-- A watchdog time-out: a chip reset while running (60_exceptions R366), else the warm reset (R367). -/
def watchdogTimeOut (s : State) : State :=
  match s.power with
  | .running => chipReset .wdtNormal s
  | .halted | .waking _ => warmReset s

/-! ### The timer/event counter -/

/-- An overflow's effects beside the reload (60_exceptions R377): the PFD phase toggles, TF is requested. -/
def timerOverflow (s : State) : State :=
  raise .tmr { s with timer := { s.timer with pfd := !s.timer.pfd } }

/-- One count (60_exceptions R377). -/
def timerCount (s : State) : State :=
  if s.timer.cnt = 0xFF then timerOverflow { s with timer := { s.timer with cnt := s.timer.pre } }
  else { s with timer := { s.timer with cnt := s.timer.cnt + 1 } }

/-- The timer turned on before its first enable-then-disable (70_reset R432): any content, perhaps a spurious overflow. -/
def timerNoise (s : State) : State :=
  if s.timer.ton && !s.timer.primed then
    let s' := { s with timer := { s.timer with cnt := Config.timerNoise s.draws }, draws := s.draws + 1 }
    if Config.spuriousOverflow s.draws then timerOverflow s' else s'
  else s

/-- A clock tick at the counter (60_exceptions R377). In a cycle that reads TMR it may be lost (R379); before the first
enable-then-disable its effect is not specified (70_reset R432). -/
def timerTick (s : State) : State :=
  if !s.timer.ton then s
  else if !s.timer.primed then timerNoise s
  else if s.tmrBlocked then
    let s' := { s with draws := s.draws + 1 }
    if Config.tickLost s.draws then s' else timerCount s'
  else timerCount s

/-- A tick of the internal clock (60_exceptions R375): it counts in timer mode, and in pulse width mode while measuring. -/
def internalTick (s : State) : State :=
  if s.timer.tm = 0b10 then timerTick s
  else if s.timer.tm = 0b11 ∧ s.timer.phase = .counting then timerTick s
  else s

/-- The start edge of pulse width mode (60_exceptions R378). -/
def startEdge (s : State) : State :=
  if s.timer.ton ∧ s.timer.phase = .armed then { s with timer := { s.timer with phase := .counting } } else s

/-- The stop edge of pulse width mode (60_exceptions R378): TON is cleared, which completes an enable-then-disable. -/
def stopEdge (s : State) : State :=
  if s.timer.phase = .counting then
    { s with timer := { s.timer with phase := .idle, ton := false, primed := s.timer.primed || s.timer.ton } }
  else s

/-- An edge on the TMR pin (60_exceptions R375, R378): in event count mode a tick on the falling edge if TE = 1, on the
rising edge if TE = 0; in pulse width mode the start edge is the rising one if TE = 1, the falling one if TE = 0. -/
def tmrEdge (rising : Bool) (s : State) : State :=
  if s.timer.tm = 0b01 then (if rising = !s.timer.te then timerTick s else s)
  else if s.timer.tm = 0b11 then (if rising = s.timer.te then startEdge s else stopEdge s)
  else s

/-! ### The multi-function timer -/

/-- Tap `k` fires on the tick that leaves this count (60_exceptions R360). -/
def tapFires (mft : BitVec 15) (k : Nat) : Bool := mft.toNat % 2 ^ k == 0

/-- The time base (60_exceptions R371): TBF at each tap TB_PERIOD_LOG2. -/
def timeBaseTap (s : State) : State :=
  if tapFires s.mft (12 + s.opts.tbPeriod.val) then raise .tb s else s

/-- The real time clock (60_exceptions R372): RTF at each tap 8 + RT, and with TS = 0 a clock tick of the timer (R373). -/
def rtcTap (s : State) : State :=
  if tapFires s.mft (8 + s.rtcc.rt.toNat) then
    let s' := raise .rtc s
    if s'.timer.ts then s' else internalTick s'
  else s

/-- The watchdog stage (60_exceptions R365): clocked by tap 15, a time-out on its overflow; nothing with the watchdog
disabled (R364). -/
def watchdogTap (s : State) : State :=
  if s.opts.wdtEnable && tapFires s.mft 15 then
    if s.wdt.cnt then watchdogTimeOut { s with wdt := { s.wdt with cnt := false } }
    else { s with wdt := { s.wdt with cnt := true } }
  else s

/-- One tick of fS (60_exceptions R360, R365, R371, R372). The requests come before the watchdog, since a reset wins over
everything (R338), log 22. -/
def fsTick (s : State) : State :=
  watchdogTap (rtcTap (timeBaseTap { s with mft := s.mft + 1 }))

/-- The next tick of fS is a watchdog time-out. -/
def watchdogExpires (s : State) : Bool := s.opts.wdtEnable && s.wdt.cnt && tapFires (s.mft + 1) 15

/-- `wdt_clear()` (60_exceptions R365, 48_misc R298): the watchdog stage restarts; the multi-function timer does not. -/
def watchdogClear (s : State) : State := { s with wdt := { s.wdt with cnt := false } }

/-! ### One instruction cycle -/

/-- A tick of the timer's system clock input: a tick of the internal clock with TS = 1 (60_exceptions R375), else none. -/
def systemTick (s : State) : State := if s.timer.ts then internalTick s else s

/-- The system-clock ticks of the timer in one instruction cycle (60_exceptions R375). -/
def ticksPerCycle (o : Config.Options) : Nat :=
  match o.tmrClk with
  | .fsys => 4
  | .fsysDiv4 => 1

/-! ### Events from outside -/

/-- A change of what drives port A (60_exceptions R396): a falling edge on a pin that can wake the machine wakes it. -/
def portAEvent (driven level : Byte) (s : State) : State :=
  let old := externalPad s s.draws
  let s' := { s with pins := { s.pins with paDriven := driven, paLevel := level }, draws := s.draws + 2 }
  let new := externalPad s' (s.draws + 1)
  if wakePins s &&& byteOf (fun i => old i && !new i) = 0 then s' else wake s'

/-- A level on PB0/INT (60_exceptions R331): a falling edge requests the external interrupt. -/
def intPinEvent (level : Bool) (s : State) : State :=
  let s' := { s with pins := { s.pins with int := level } }
  if s.pins.int && !level then raise .ext s' else s'

/-- A level on PB2/TMR: an edge where it differs from the last level. -/
def tmrPinEvent (level : Bool) (s : State) : State :=
  let s' := { s with pins := { s.pins with tmr := level } }
  if level = s.pins.tmr then s' else tmrEdge level s'

/-- A low pulse on RES (70_reset R421): the kind depends on whether the machine is halted. -/
def resetPinEvent (s : State) : State :=
  match s.power with
  | .running => chipReset .resNormal s
  | .halted | .waking _ => chipReset .resHalt s

/-- A low voltage reset takes place (70_reset R424): by option, and never while halted. -/
def lowVoltageResets (s : State) : Bool := s.opts.lvrEnable && decide (s.power = .running)

/-- The low voltage reset (70_reset R424). -/
def lowVoltageEvent (s : State) : State := if lowVoltageResets s then chipReset .resNormal s else s

/-- One device event (60_exceptions R355). A tick of a free-running fS is none on a part whose fS is the instruction
clock, whose ticks the instruction cycles make due. -/
def applyEvent (s : State) (e : Event) : State :=
  match e with
  | .fsTick => if s.opts.fsSource = .fsysDiv4 then s else fsTick s
  | .portA driven level => portAEvent driven level s
  | .intPin level => intPinEvent level s
  | .tmrPin level => tmrPinEvent level s
  | .supply low => { s with pins := { s.pins with vddLow := low } }
  | .resetPin => resetPinEvent s
  | .lowVoltage => lowVoltageEvent s
  | .powerOn => chipReset .powerOn s

/-- The next tick of fS is a chip reset (60_exceptions R366). -/
def watchdogResets (s : State) : Bool := watchdogExpires s && decide (s.power = .running)

/-- The event is a chip reset (70_reset R420). -/
def eventResets (e : Event) (s : State) : Bool :=
  match e with
  | .resetPin | .powerOn => true
  | .lowVoltage => lowVoltageResets s
  | .fsTick => decide (s.opts.fsSource ≠ .fsysDiv4) && watchdogResets s
  | .portA _ _ | .intPin _ | .tmrPin _ | .supply _ => false

/-! ### The ticks of an instruction's cycles, among the events -/

/-- What an instruction cycle makes due after the instruction: a tick of fS, a tick of the timer's system clock input, the
end of the cycle. -/
inductive Tick where
  | fs | clock | cycleEnd
  deriving DecidableEq, Repr

/-- One of them happens. With the end of its first cycle the clock block of an instruction that read TMR is over
(60_exceptions R379), log 15. -/
def applyTick (t : Tick) (s : State) : State :=
  match t with
  | .fs => fsTick s
  | .clock => systemTick s
  | .cycleEnd => { s with tmrBlocked := false }

/-- The tick is a chip reset (60_exceptions R366). -/
def tickResets (t : Tick) (s : State) : Bool := decide (t = .fs) && watchdogResets s

/-- What one instruction cycle makes due (60_exceptions R360, R375, R377): an fS tick if fS is the instruction clock, the
timer's system clock ticks, the end. -/
def cycleTicks (o : Config.Options) : List Tick :=
  (if o.fsSource = .fsysDiv4 then [.fs] else []) ++ List.replicate (ticksPerCycle o) .clock ++ [.cycleEnd]

/-- What `n` instruction cycles make due. -/
def dueTicks (n : Nat) (o : Config.Options) : List Tick := (List.replicate n (cycleTicks o)).flatten

/-- The due tick of that index, where it can come next: the ticks of one cycle come in any order (20_memory R120, log 12),
none before the end of the cycle before it. -/
def pickTick (due : List Tick) (i : Nat) : Option Tick :=
  if i ≠ 0 ∧ .cycleEnd ∈ due.take (i + 1) then none else due[i]?

/-- The due ticks in their order. A chip reset ends the cycles of the instruction it follows (60_exceptions R366),
log 22. -/
def runDue : List Tick → State → State
  | [], s => s
  | t :: rest, s => if tickResets t s then applyTick t s else runDue rest (applyTick t s)

/-- The events and the due ticks after an instruction, in the order the outside world gives (20_memory R120,
60_exceptions R355), then the ticks it did not place; a chip reset leaves no tick due, log 22. -/
def runSchedule : List Happening → List Tick → State → State
  | [], due, s => runDue due s
  | .event e :: rest, due, s => runSchedule rest (if eventResets e s then [] else due) (applyEvent s e)
  | .tick i :: rest, due, s =>
    match pickTick due i with
    | none => runSchedule rest due s
    | some t => runSchedule rest (if tickResets t s then [] else due.eraseIdx i) (applyTick t s)

/-- What the outside world does around the next step. -/
def nextBoundary (s : State) : Boundary := s.inputs.headD .quiet

/-- The events before the next instruction's interrupt check, in order (60_exceptions R355). -/
def takeInputs (s : State) : State :=
  (nextBoundary s).before.foldl applyEvent { s with inputs := s.inputs.tail }

end Sys2Proof.Machine
end

