-- ==== Sys2Proof/Machine/Misc.lean ====
section
/-! DEFINITION. The miscellaneous instructions (48_misc). -/

namespace Sys2Proof.Machine

/-- NOP (48_misc R295). -/
def execNop (s : State) : Result := .next s

/-- CLR [m] (48_misc R296). -/
def execClrM (m : DataAddr) (s : State) : Result := write m 0x00 s

/-- SET [m] (48_misc R297). -/
def execSetM (m : DataAddr) (s : State) : Result := write m 0xFF s

/-- SWAP [m] (48_misc R303). -/
def execSwapM (m : DataAddr) (s : State) : Result := modifyByte m swapNibbles s

/-- SWAPA [m] (48_misc R304). -/
def execSwapaM (m : DataAddr) (s : State) : Result := loadOp m swapNibbles (fun _ => {}) s

/-- What an effective watchdog clear does (48_misc R299): the watchdog restarts, TO and PDF are cleared. -/
def clearWatchdogAndFlags (s : State) : State := { watchdogClear s with timeOut := false, pdf := false }

/-- Whether a watchdog-clear instruction of the active type does anything (48_misc R298): with the watchdog disabled, only
by the option WDT_DISABLED_CLR_FLAGS (92_eei D15). -/
def clearsActive (o : Config.Options) : Bool := o.wdtEnable || o.wdtDisabledClrFlags

/-- CLR WDT (48_misc R299); a NOP where the option selects the other type (R298, 92_eei D17). -/
def execClrWdt (s : State) : Result :=
  if s.opts.clrWdtTimes = .one ∧ clearsActive s.opts then .next (clearWatchdogAndFlags s) else .next s

/-- CLR WDT1 (48_misc R300): it completes a pair if CLR WDT2 left its mark, else it leaves its own. -/
def execClrWdt1 (s : State) : Result :=
  if s.opts.clrWdtTimes = .two ∧ clearsActive s.opts then
    if s.wdt.armed2 then
      .next { clearWatchdogAndFlags s with wdt := { cnt := false, armed1 := false, armed2 := false } }
    else .next { s with wdt := { s.wdt with armed1 := true } }
  else .next s

/-- CLR WDT2 (48_misc R301): the mirror image of CLR WDT1. -/
def execClrWdt2 (s : State) : Result :=
  if s.opts.clrWdtTimes = .two ∧ clearsActive s.opts then
    if s.wdt.armed1 then
      .next { clearWatchdogAndFlags s with wdt := { cnt := false, armed1 := false, armed2 := false } }
    else .next { s with wdt := { s.wdt with armed2 := true } }
  else .next s

/-- HALT (48_misc R302, 60_exceptions R361): TO cleared, PDF set, the watchdog and the prescaler cleared, the machine
halted; PC already holds the following address. -/
def execHalt (s : State) : Result :=
  .next { watchdogClear s with
    timeOut := false
    pdf := true
    mft := 0#7 ++ s.mft.extractLsb' 0 8
    power := .halted }

end Sys2Proof.Machine
end

