-- ==== Sys2Proof/Machine/Move.lean ====
section
/-! DEFINITION. The data move instructions (44_datamove). None writes a flag (R238). -/

namespace Sys2Proof.Machine

/-- MOV A,[m] (44_datamove R235). -/
def execMovAM (m : DataAddr) (s : State) : Result :=
  loadOp m (fun v => v) (fun _ => {}) s

/-- MOV [m],A (44_datamove R236). -/
def execMovMA (m : DataAddr) (s : State) : Result := write m s.acc s

/-- MOV A,x (44_datamove R237). -/
def execMovAX (x : Byte) (s : State) : Result := .next { s with acc := x }

end Sys2Proof.Machine
end

