-- ==== Sys2Proof/Machine/Rotate.lean ====
section
/-! DEFINITION. The rotate instructions (43_rotate). The plain rotates write no flag; those through carry write C (R228). -/

namespace Sys2Proof.Machine

/-- RRA [m] (43_rotate R220). -/
def execRraM (m : DataAddr) (s : State) : Result :=
  loadOp m (fun v => shiftInRight (bitOf v 0) v) (fun _ => {}) s

/-- RR [m] (43_rotate R221). -/
def execRrM (m : DataAddr) (s : State) : Result :=
  modifyByte m (fun v => shiftInRight (bitOf v 0) v) s

/-- RRCA [m] (43_rotate R222). -/
def execRrcaM (m : DataAddr) (s : State) : Result :=
  loadOp m (fun v => shiftInRight s.alu.c v) (fun v => carryUpdate (bitOf v 0)) s

/-- RRC [m] (43_rotate R223). -/
def execRrcM (m : DataAddr) (s : State) : Result :=
  modifyFlags m (fun v => shiftInRight s.alu.c v) (fun v => carryUpdate (bitOf v 0)) s

/-- RLA [m] (43_rotate R224). -/
def execRlaM (m : DataAddr) (s : State) : Result :=
  loadOp m (fun v => shiftInLeft v (bitOf v 7)) (fun _ => {}) s

/-- RL [m] (43_rotate R225). -/
def execRlM (m : DataAddr) (s : State) : Result :=
  modifyByte m (fun v => shiftInLeft v (bitOf v 7)) s

/-- RLCA [m] (43_rotate R226). -/
def execRlcaM (m : DataAddr) (s : State) : Result :=
  loadOp m (fun v => shiftInLeft v s.alu.c) (fun v => carryUpdate (bitOf v 7)) s

/-- RLC [m] (43_rotate R227). -/
def execRlcM (m : DataAddr) (s : State) : Result :=
  modifyFlags m (fun v => shiftInLeft v s.alu.c) (fun v => carryUpdate (bitOf v 7)) s

end Sys2Proof.Machine
end

