-- ==== Sys2Proof/Machine/Table.lean ====
section
/-! DEFINITION. The table read instructions (47_tableread). -/

namespace Sys2Proof.Machine

/-- TABRDC [m] (47_tableread R286): the page of the instruction, by PAGE_BASE. -/
def execTabrdc (m : DataAddr) (s : State) : Result := tableRead (pageBits s ++ s.tblp) m s

/-- TABRDL [m] (47_tableread R287): the last page, 300H to 3FFH. -/
def execTabrdl (m : DataAddr) (s : State) : Result := tableRead (0b11#2 ++ s.tblp) m s

end Sys2Proof.Machine
end

