-- ==== Sys2Proof/Machine/Dispatch.lean ====
section
/-! DEFINITION. The execution of one decoded instruction: one arm per constructor of Instr. PC of the state already holds
the address of the following word (00_scope R16). -/

namespace Sys2Proof.Machine

def exec (i : Instr) (s : State) : Host.Outcome State Fault Refusal :=
  match i with
  | .addAM m => Sys2Proof.Machine.execAddAM m s
  | .addmAM m => Sys2Proof.Machine.execAddmAM m s
  | .addAX x => Sys2Proof.Machine.execAddAX x s
  | .adcAM m => Sys2Proof.Machine.execAdcAM m s
  | .adcmAM m => Sys2Proof.Machine.execAdcmAM m s
  | .subAX x => Sys2Proof.Machine.execSubAX x s
  | .subAM m => Sys2Proof.Machine.execSubAM m s
  | .submAM m => Sys2Proof.Machine.execSubmAM m s
  | .sbcAM m => Sys2Proof.Machine.execSbcAM m s
  | .sbcmAM m => Sys2Proof.Machine.execSbcmAM m s
  | .daaM m => Sys2Proof.Machine.execDaaM m s
  | .andAM m => Sys2Proof.Machine.execAndAM m s
  | .orAM m => Sys2Proof.Machine.execOrAM m s
  | .xorAM m => Sys2Proof.Machine.execXorAM m s
  | .andmAM m => Sys2Proof.Machine.execAndmAM m s
  | .ormAM m => Sys2Proof.Machine.execOrmAM m s
  | .xormAM m => Sys2Proof.Machine.execXormAM m s
  | .andAX x => Sys2Proof.Machine.execAndAX x s
  | .orAX x => Sys2Proof.Machine.execOrAX x s
  | .xorAX x => Sys2Proof.Machine.execXorAX x s
  | .cplM m => Sys2Proof.Machine.execCplM m s
  | .cplaM m => Sys2Proof.Machine.execCplaM m s
  | .incaM m => Sys2Proof.Machine.execIncaM m s
  | .incM m => Sys2Proof.Machine.execIncM m s
  | .decaM m => Sys2Proof.Machine.execDecaM m s
  | .decM m => Sys2Proof.Machine.execDecM m s
  | .rraM m => Sys2Proof.Machine.execRraM m s
  | .rrM m => Sys2Proof.Machine.execRrM m s
  | .rrcaM m => Sys2Proof.Machine.execRrcaM m s
  | .rrcM m => Sys2Proof.Machine.execRrcM m s
  | .rlaM m => Sys2Proof.Machine.execRlaM m s
  | .rlM m => Sys2Proof.Machine.execRlM m s
  | .rlcaM m => Sys2Proof.Machine.execRlcaM m s
  | .rlcM m => Sys2Proof.Machine.execRlcM m s
  | .movAM m => Sys2Proof.Machine.execMovAM m s
  | .movMA m => Sys2Proof.Machine.execMovMA m s
  | .movAX x => Sys2Proof.Machine.execMovAX x s
  | .clrBit b m => Sys2Proof.Machine.execClrBit b m s
  | .setBit b m => Sys2Proof.Machine.execSetBit b m s
  | .jmp addr => Sys2Proof.Machine.execJmp addr s
  | .szM m => Sys2Proof.Machine.execSzM m s
  | .szaM m => Sys2Proof.Machine.execSzaM m s
  | .szBit b m => Sys2Proof.Machine.execSzBit b m s
  | .snzBit b m => Sys2Proof.Machine.execSnzBit b m s
  | .sizM m => Sys2Proof.Machine.execSizM m s
  | .sdzM m => Sys2Proof.Machine.execSdzM m s
  | .sizaM m => Sys2Proof.Machine.execSizaM m s
  | .sdzaM m => Sys2Proof.Machine.execSdzaM m s
  | .call addr => Sys2Proof.Machine.execCall addr s
  | .ret => Sys2Proof.Machine.execRet s
  | .retAX x => Sys2Proof.Machine.execRetAX x s
  | .reti => Sys2Proof.Machine.execReti s
  | .tabrdc m => Sys2Proof.Machine.execTabrdc m s
  | .tabrdl m => Sys2Proof.Machine.execTabrdl m s
  | .nop => Sys2Proof.Machine.execNop s
  | .clrM m => Sys2Proof.Machine.execClrM m s
  | .setM m => Sys2Proof.Machine.execSetM m s
  | .clrWdt => Sys2Proof.Machine.execClrWdt s
  | .clrWdt1 => Sys2Proof.Machine.execClrWdt1 s
  | .clrWdt2 => Sys2Proof.Machine.execClrWdt2 s
  | .swapM m => Sys2Proof.Machine.execSwapM m s
  | .swapaM m => Sys2Proof.Machine.execSwapaM m s
  | .halt => Sys2Proof.Machine.execHalt s

end Sys2Proof.Machine
end

