-- ==== Sys2Proof/Machine/Timing.lean ====
section
/-! DEFINITION. Instruction cycles (70_reset R441). -/

namespace Sys2Proof.Machine

/-- An instruction whose destination is `[m]`: one cycle more when the write goes to PCL (70_reset R441, note 2). -/
def destCycles (m : DataAddr) (s : State) : Nat := if locate m s = .pcl then 2 else 1

/-- A skip instruction: one cycle more when the skip is taken, which shows in PC (70_reset R441, note 1). -/
def skipCycles (s s' : State) : Nat := if s'.pc = s.pc then 1 else 2

/-- The cycles of an instruction executed in `s`, where PC is the following word's address, with `s'` the state after it
(70_reset R441). -/
def cyclesOf (i : Instr) (s s' : State) : Nat :=
  match i with
  | .jmp _ | .call _ | .ret | .retAX _ | .reti | .tabrdc _ | .tabrdl _ => 2
  | .szM _ | .szaM _ | .szBit _ _ | .snzBit _ _ | .sizM _ | .sdzM _ | .sizaM _ | .sdzaM _ => skipCycles s s'
  | .addmAM m | .adcmAM m | .submAM m | .sbcmAM m | .daaM m | .andmAM m | .ormAM m | .xormAM m | .cplM m | .incM m
  | .decM m | .rrM m | .rrcM m | .rlM m | .rlcM m | .movMA m | .clrBit _ m | .setBit _ m | .clrM m | .setM m
  | .swapM m => destCycles m s
  | .addAM _ | .addAX _ | .adcAM _ | .subAX _ | .subAM _ | .sbcAM _ | .andAM _ | .orAM _ | .xorAM _ | .andAX _ | .orAX _
  | .xorAX _ | .cplaM _ | .incaM _ | .decaM _ | .rraM _ | .rrcaM _ | .rlaM _ | .rlcaM _ | .movAM _ | .movAX _ | .swapaM _
  | .nop | .clrWdt | .clrWdt1 | .clrWdt2 | .halt => 1

end Sys2Proof.Machine
end

