-- ==== Sys2Proof/Machine/Run.lean ====
section
/-! DEFINITION. One instruction boundary: the interrupt check, the fetch, the instruction and the ticks of its cycles
(00_scope R16, 60_exceptions R340, R377); the steps of a halted machine and of the start-up delay (R392, R393, R397). -/

namespace Sys2Proof.Machine

/-- After the instruction: the requests the last check missed are seen from now on (60_exceptions R340), then the device
ticks of its `n` cycles among the events of the schedule `hs` (R355, R377), then the unprimed timer's effects
(70_reset R432). -/
def afterInstr (hs : List Happening) (n : Nat) (s : State) : State :=
  timerNoise (runSchedule hs (dueTicks n s.opts) { s with unseen := Marks.clear })

/-- Execute a fetched instruction, in the state after the fetch, and what follows it. -/
def runInstr (hs : List Happening) (i : Instr) (s : State) : Result :=
  andThen (exec i s) fun s' => .next (afterInstr hs (cyclesOf i s s') s')

/-- PC after the fetch increment (10_state R32, R33); the clock block of an earlier read of TMR is over. -/
def afterFetch (s : State) : State := { s with pc := s.pc + 1, tmrBlocked := false }

/-- Fetch, decode by ENC and execute (00_scope R16); a word that is no instruction, or that the image does not give, stops
the model. -/
def fetchAndRun (hs : List Happening) (s : State) : Result :=
  match Rom.word s.rom s.pc with
  | none => .fault (.wordNotGiven s.pc)
  | some w =>
    match enc s.opts w with
    | .error _ => .fault (.undefinedOpcode w)
    | .ok i => runInstr hs i (afterFetch s)

/-- One instruction cycle's time while halted (60_exceptions R393): the system clock runs only if it is the 32768 Hz
crystal; a free-running fS ticks by events. -/
def idle (hs : List Happening) (s : State) : State :=
  timerNoise (runSchedule hs (dueTicks (if s.opts.oscType = .rtc32k then 1 else 0) s.opts) { s with tmrBlocked := false })

/-- The start-up delay is over when no period is left. -/
def settle (s : State) : State :=
  match s.power with
  | .waking 0 => { s with power := .running }
  | .waking (_ + 1) | .running | .halted => s

/-- One instruction cycle, four system clock periods, of the start-up delay (60_exceptions R397), log 14. -/
def wakingCycle (hs : List Happening) (periods : Nat) (s : State) : State :=
  settle (timerNoise (runSchedule hs (dueTicks 1 s.opts) { s with power := .waking (periods - 4), tmrBlocked := false }))

/-- What the machine does at a boundary once the events before it have happened; `hs` is the schedule of what follows. -/
def boundary (hs : List Happening) (s : State) : Result :=
  match s.power with
  | .running => fetchAndRun hs (interruptCheck s)
  | .halted => .next (idle hs s)
  | .waking n => .next (wakingCycle hs n s)

/-- Where the next instruction is fetched by a running machine with no event to come. -/
def nextFetch (s : State) : ProgAddr := (interruptCheck s).pc

/-- The state with one word placed where the next instruction is fetched, running and with no event to come, so that the
next step runs it. -/
def placeAtFetch (w : Word) (s : State) : State :=
  { s with rom := Rom.place s.rom (nextFetch s) w, power := .running, inputs := [] }

end Sys2Proof.Machine
end

