-- ==== Sys2Proof/Machine/Step.lean ====
section
/-! DEFINITION. One step of the machine: the device events of one boundary, then the boundary (60_exceptions R340, R355). -/

namespace Sys2Proof.Machine

/-- One step: the events before the boundary, then the interrupt check and one instruction, or one idle cycle of a halted or
waking machine, then the device ticks of its cycles among the events that follow. -/
def step (s : State) : Host.Outcome State Fault Refusal := boundary (nextBoundary s).during (takeInputs s)

/-- The state with the instruction of these bits stored where the next step fetches (log 7). -/
def State.withFetchWord (s : State) (nbits w : Nat) : State := placeAtFetch (BitVec.ofNat 14 (w % 2 ^ nbits)) s

end Sys2Proof.Machine
end

