-- ==== Sys2Proof/Safety.lean ====
section
/-! DEFINITION. The terms claims use: which states the machine can be in, and that a run goes on. -/

namespace Sys2Proof.Safety

open Sys2Proof.Machine

/-- The stack holds at most two addresses (10_state R35). -/
def StackBounded (s : State) : Prop := s.stk.length ≤ 2

/-- The general purpose memory is canonical and lists only 40H to 7FH (10_state R66). -/
def RamLegal (s : State) : Prop := Memory.wf s.ram ∧ ∀ c ∈ s.ram, 0x40 ≤ c.1 ∧ c.1 ≤ 0x7F

/-- The display memory is canonical, lists only 40H to 4EH, and stores only the LCD_MASK bits (10_state R67). -/
def LcdLegal (s : State) : Prop :=
  Memory.wf s.lcd ∧ ∀ c ∈ s.lcd, 0x40 ≤ c.1 ∧ c.1 ≤ 0x4E ∧ c.2 &&& ~~~s.opts.lcdMask = 0

/-- The timer does not run in the unused mode 00 (60_exceptions R375). -/
def TimerModeLegal (s : State) : Prop := s.timer.ton = true → s.timer.tm ≠ 0b00

/-- The two pre-clear marks are never set together (48_misc R300, R301). -/
def WdtMarksExclusive (s : State) : Prop := ¬(s.wdt.armed1 = true ∧ s.wdt.armed2 = true)

/-- A halted machine, and one waiting out the start-up delay, has PDF set (60_exceptions R392, R398). -/
def PowerDownMarked (s : State) : Prop := s.power = .running ∨ s.pdf = true

/-- The start-up delay never exceeds its length (60_exceptions R397). -/
def DelayBounded (s : State) : Prop := ∀ n, s.power = .waking n → n ≤ startUpPeriods

/-- The program image is canonical (10_state R68). -/
def RomLegal (s : State) : Prop := Rom.wf s.rom

/-- The invariant of the machine: every state a run from reset reaches meets it. -/
structure Legal (s : State) : Prop where
  stack : StackBounded s
  ram : RamLegal s
  lcd : LcdLegal s
  timer : TimerModeLegal s
  marks : WdtMarksExclusive s
  power : PowerDownMarked s
  delay : DelayBounded s
  rom : RomLegal s

/-- The machine is running, no event comes before this boundary's interrupt check, and no request is acknowledged at it: the
next step fetches at PC (60_exceptions R340). -/
def AtInstruction (s : State) : Prop :=
  s.power = .running ∧ (nextBoundary s).before = [] ∧
  ∀ src, acknowledgeable src s = false

/-- A step that does not stop. -/
def Runs (s : State) : Prop := ∃ t, step s = .next t

end Sys2Proof.Safety
end

