-- ==== Sys2Proof/Certificates/Slice0/Obligations.lean ====
section
/-! DEFINITION. The statements for the provers. Each docstring names the rules of spec/ it formalises; a clause that rests on
a decision of the spec (92_eei) or on an entry of the assumption log says so. -/

namespace Sys2Proof.Claims

open Sys2Proof.Machine

/-! ### Terms of the statements -/

/-- The instruction completes, in a state of which `P` holds. -/
def Completes (i : Instr) (s : State) (P : State → Prop) : Prop := ∃ t, exec i s = .next t ∧ P t

/-- The operand can be read: it is no bank 1 address outside the display memory (20_memory R108). -/
abbrev Readable (m : DataAddr) (s : State) : Prop := locate m s ≠ .bank1Hole

/-- The byte can be written to the operand: it is readable, and a write to TMRC does not turn the timer on in the unused
mode 00 (60_exceptions R375). -/
abbrev Writable (m : DataAddr) (v : Byte) (s : State) : Prop :=
  Readable m s ∧ (locate m s = .tmrc → v.getLsbD 4 = true → v.extractLsb' 6 2 ≠ 0)

/-- The byte the operand reads as. -/
def operand (m : DataAddr) (s : State) : Byte := readLoc (locate m s) s

/-- Nothing changes but ACC, the four ALU flags and the model's own two read effects: no register, no special register, no
exception register, no PC, no byte of memory. -/
def OnlyAccAndFlags (s t : State) : Prop :=
  { t with acc := s.acc, alu := s.alu, draws := s.draws, tmrBlocked := s.tmrBlocked } = s

/-- Nothing changes but PC and the model's own two read effects. -/
def OnlyPc (s t : State) : Prop :=
  { t with pc := s.pc, draws := s.draws, tmrBlocked := s.tmrBlocked } = s

/-- Nothing changes but ACC, PC and the model's own two read effects. -/
def OnlyAccAndPc (s t : State) : Prop :=
  { t with acc := s.acc, pc := s.pc, draws := s.draws, tmrBlocked := s.tmrBlocked } = s

/-- What an instruction with the destination `l` leaves unchanged: every register but the one `l` names, every byte of both
data memories but the one `l` names, and all the rest of the state. The four ALU flags, PC and the model's own counters are
not spoken of here. -/
structure KeptOutside (l : Loc) (s t : State) : Prop where
  acc : l ≠ .acc → t.acc = s.acc
  mp0 : l ≠ .mp0 → t.mp0 = s.mp0
  mp1 : l ≠ .mp1 → t.mp1 = s.mp1
  bp : l ≠ .bp → t.bp = s.bp
  tblp : l ≠ .tblp → t.tblp = s.tblp
  rtcc : l ≠ .rtcc → t.rtcc = s.rtcc
  paLatch : l ≠ .pa → t.paLatch = s.paLatch
  intc0 : l ≠ .intc0 → { t.intc with erti := s.intc.erti, rtf := s.intc.rtf } = s.intc
  intc1 : l ≠ .intc1 → t.intc.erti = s.intc.erti ∧ t.intc.rtf = s.intc.rtf
  count : l ≠ .tmr → t.timer.cnt = s.timer.cnt ∧ t.timer.pre = s.timer.pre
  control : l ≠ .tmrc → { t.timer with cnt := s.timer.cnt, pre := s.timer.pre } = s.timer
  ram : ∀ a, l ≠ .ram a → Memory.read t.ram a = Memory.read s.ram a
  lcd : ∀ a, l ≠ .lcd a → Memory.read t.lcd a = Memory.read s.lcd a
  stk : t.stk = s.stk
  tblh : t.tblh = s.tblh
  timeOut : t.timeOut = s.timeOut
  pdf : t.pdf = s.pdf
  wdt : t.wdt = s.wdt
  mft : t.mft = s.mft
  power : t.power = s.power
  rom : t.rom = s.rom
  opts : t.opts = s.opts
  pins : t.pins = s.pins
  inputs : t.inputs = s.inputs
  unseen : t.unseen = s.unseen

/-- What the destination holds after the byte `v` is written to it, row by row of 20_memory R107, R105 and R108; STATUS is
spoken of by `FlagsAfter`. PCL's high bits by PAGE_BASE are the spec's decision 92_eei D2, the LCD_MASK bits of a display
byte D10, the read-only places that keep nothing D12. -/
def Stored (l : Loc) (v : Byte) (s t : State) : Prop :=
  match l with
  | .acc => t.acc = v
  | .mp0 => t.mp0.toNat = v.toNat % 128
  | .mp1 => t.mp1.toNat = v.toNat % 128
  | .bp => t.bp = v.getLsbD 0
  | .pcl => t.pc.toNat % 256 = v.toNat ∧
      (s.opts.pageBase = .following → t.pc.toNat / 256 = s.pc.toNat / 256) ∧
      (s.opts.pageBase = .itself → t.pc.toNat / 256 = (s.pc - 1).toNat / 256)
  | .tblp => t.tblp = v
  | .rtcc => t.rtcc.rt.toNat = v.toNat % 8 ∧ t.rtcc.lvdc = v.getLsbD 3 ∧ t.rtcc.qosc = v.getLsbD 4
  | .intc0 => t.intc.emi = v.getLsbD 0 ∧ t.intc.eei = v.getLsbD 1 ∧ t.intc.eti = v.getLsbD 2 ∧
      t.intc.etbi = v.getLsbD 3 ∧ t.intc.eif = v.getLsbD 4 ∧ t.intc.tf = v.getLsbD 5 ∧ t.intc.tbf = v.getLsbD 6
  | .intc1 => t.intc.erti = v.getLsbD 0 ∧ t.intc.rtf = v.getLsbD 4
  | .tmr => t.timer.pre = v ∧ t.timer.cnt = (if s.timer.ton then s.timer.cnt else v)
  | .tmrc => t.timer.tm.toNat = v.toNat / 64 ∧ t.timer.ts = v.getLsbD 5 ∧ t.timer.ton = v.getLsbD 4 ∧
      t.timer.te = v.getLsbD 3 ∧ t.timer.cnt = s.timer.cnt ∧ t.timer.pre = s.timer.pre ∧ t.timer.pfd = s.timer.pfd ∧
      t.timer.primed = (s.timer.primed || (s.timer.ton && !v.getLsbD 4)) ∧
      t.timer.phase = (if 192 ≤ v.toNat ∧ v.getLsbD 4 = true ∧ s.timer.ton = false then .armed else s.timer.phase)
  | .pa => t.paLatch = v
  | .ram a => Memory.read t.ram a = v
  | .lcd a => Memory.read t.lcd a = v &&& s.opts.lcdMask
  | .status | .iar | .tblh | .pb | .unimplemented | .bank1Hole => True

/-- One flag after an instruction that writes the byte `v` to `l`, `data` being the flag's bit of `v` (10_state R46, R47):
where the destination is STATUS a flag the instruction does not affect takes the data, and one it affects is free; elsewhere
an affected flag takes its value and the others stay. That an affected flag is free where the destination is STATUS is the
spec's decision 92_eei D11. -/
def flagAfter (l : Loc) (data old new : Bool) (affected : Option Bool) : Prop :=
  match affected with
  | some b => l ≠ .status → new = b
  | none => new = (if l = .status then data else old)

/-- The four flags after an instruction that writes the byte `v` to `l`. -/
def FlagsAfter (l : Loc) (v : Byte) (s t : State) (u : FlagUpdate) : Prop :=
  flagAfter l (v.getLsbD 0) s.alu.c t.alu.c u.c ∧ flagAfter l (v.getLsbD 1) s.alu.ac t.alu.ac u.ac ∧
  flagAfter l (v.getLsbD 2) s.alu.z t.alu.z u.z ∧ flagAfter l (v.getLsbD 3) s.alu.ov t.alu.ov u.ov

/-- All an instruction does that writes the byte `v` to the operand `m` and affects the flags `u`. -/
def WritesBack (m : DataAddr) (v : Byte) (u : FlagUpdate) (s t : State) : Prop :=
  Stored (locate m s) v s t ∧ KeptOutside (locate m s) s t ∧ FlagsAfter (locate m s) v s t u ∧
  (locate m s ≠ .pcl → t.pc = s.pc)

/-- The sum `a + b + carry` as a result byte with its four flags (40_arithmetic R170, 10_state R40 to R43). -/
abbrev IsSum (a b : Byte) (carry : Nat) (r : Byte) (f : AluFlags) : Prop :=
  r.toNat = (a.toNat + b.toNat + carry) % 256 ∧
  f.c = decide (256 ≤ a.toNat + b.toNat + carry) ∧
  f.ac = decide (16 ≤ a.toNat % 16 + b.toNat % 16 + carry) ∧
  f.z = decide (r.toNat = 0) ∧
  f.ov = (decide (128 ≤ a.toNat % 128 + b.toNat % 128 + carry) ^^ decide (256 ≤ a.toNat + b.toNat + carry))

/-- The difference `a - b - borrow` as a result byte with its four flags (40_arithmetic R171): C is no borrow, AC is no
borrow out of the low nibble, OV is the borrow into bit 7 against the borrow out of it. -/
abbrev IsDifference (a b : Byte) (borrow : Nat) (r : Byte) (f : AluFlags) : Prop :=
  (r.toNat : Int) = ((a.toNat : Int) - b.toNat - borrow) % 256 ∧
  f.c = decide (b.toNat + borrow ≤ a.toNat) ∧
  f.ac = decide (b.toNat % 16 + borrow ≤ a.toNat % 16) ∧
  f.z = decide (r.toNat = 0) ∧
  f.ov = (decide (a.toNat % 128 < b.toNat % 128 + borrow) ^^ decide (a.toNat < b.toNat + borrow))

/-- The four flags written, to state a memory result. -/
def allFlags (f : AluFlags) : FlagUpdate := { c := some f.c, ac := some f.ac, z := some f.z, ov := some f.ov }

/-- Only Z written: set where the result is zero. -/
def onlyZero (r : Byte) : FlagUpdate := { z := some (decide (r.toNat = 0)) }

/-- Only C written. -/
def onlyCarry (c : Bool) : FlagUpdate := { c := some c }

/-- No flag written. -/
def noFlags : FlagUpdate := {}

/-- Result in ACC, Z from it, no other flag, nothing else (41_logic R201, 42_incdec R214). -/
def AccAndZero (r : Byte) (s t : State) : Prop :=
  t.acc = r ∧ t.alu = { s.alu with z := decide (r.toNat = 0) } ∧ OnlyAccAndFlags s t

/-- Result in ACC, no flag, nothing else. -/
def AccAlone (r : Byte) (s t : State) : Prop := t.acc = r ∧ t.alu = s.alu ∧ OnlyAccAndFlags s t

/-- Result in ACC, C, no other flag, nothing else (43_rotate R228). -/
def AccAndCarry (r : Byte) (c : Bool) (s t : State) : Prop :=
  t.acc = r ∧ t.alu = { s.alu with c := c } ∧ OnlyAccAndFlags s t

/-- `r` is `v` rotated right by one with `b` entering at bit 7 (43_rotate). -/
abbrev RotatedRight (b : Bool) (v r : Byte) : Prop :=
  r.getLsbD 7 = b ∧ ∀ i < 7, r.getLsbD i = v.getLsbD (i + 1)

/-- `r` is `v` rotated left by one with `b` entering at bit 0 (43_rotate). -/
abbrev RotatedLeft (b : Bool) (v r : Byte) : Prop :=
  r.getLsbD 0 = b ∧ ∀ i < 7, r.getLsbD (i + 1) = v.getLsbD i

/-- `r` is `v` with its nibbles exchanged (48_misc R303). -/
abbrev NibblesSwapped (v r : Byte) : Prop := r.toNat = v.toNat % 16 * 16 + v.toNat / 16

/-- PC after a skip instruction, whose own state holds the following address, and the cycles it takes (46_branch R256). -/
def Skips (cond : Prop) [Decidable cond] (i : Instr) (s t : State) : Prop :=
  (t.pc = if cond then s.pc + 1 else s.pc) ∧ cyclesOf i s t = if cond then 2 else 1

/-- `n` ticks of fS. -/
def fsTicks : Nat → State → State
  | 0, s => s
  | n + 1, s => fsTicks n (fsTick s)

/-- The value of a packed BCD byte. -/
def bcd (v : Byte) : Nat := v.toNat / 16 * 10 + v.toNat % 16

/-- Both nibbles are decimal digits. -/
abbrev IsBcd (v : Byte) : Prop := v.toNat / 16 ≤ 9 ∧ v.toNat % 16 ≤ 9

/-- The instructions that read `[m]`, by operand. -/
def readers (m : DataAddr) (i : BitNo) : List Instr :=
  [.addAM m, .addmAM m, .adcAM m, .adcmAM m, .subAM m, .submAM m, .sbcAM m, .sbcmAM m, .andAM m, .orAM m, .xorAM m,
   .andmAM m, .ormAM m, .xormAM m, .cplM m, .cplaM m, .incaM m, .incM m, .decaM m, .decM m, .rraM m, .rrM m, .rrcaM m,
   .rrcM m, .rlaM m, .rlM m, .rlcaM m, .rlcM m, .movAM m, .clrBit i m, .setBit i m, .szM m, .szaM m, .szBit i m,
   .snzBit i m, .sizM m, .sdzM m, .sizaM m, .sdzaM m, .swapM m, .swapaM m]

/-- The instructions that write `[m]` without reading it. -/
def writers (m : DataAddr) : List Instr := [.movMA m, .clrM m, .setM m, .daaM m, .tabrdc m, .tabrdl m]

/-- The instructions that leave sequential execution and the table reads, two cycles each (70_reset R441). -/
def twoCycle (m : DataAddr) (x : Byte) (addr : ProgAddr) : List Instr :=
  [.jmp addr, .call addr, .ret, .retAX x, .reti, .tabrdc m, .tabrdl m]

/-- The instructions whose destination is `[m]`, the skips apart (70_reset R441). -/
def destinations (m : DataAddr) (i : BitNo) : List Instr :=
  [.addmAM m, .adcmAM m, .submAM m, .sbcmAM m, .daaM m, .andmAM m, .ormAM m, .xormAM m, .cplM m, .incM m, .decM m, .rrM m,
   .rrcM m, .rlM m, .rlcM m, .movMA m, .clrBit i m, .setBit i m, .clrM m, .setM m, .swapM m]

/-- Every other instruction, one cycle each (70_reset R441). -/
def oneCycle (m : DataAddr) (x : Byte) : List Instr :=
  [.addAM m, .addAX x, .adcAM m, .subAX x, .subAM m, .sbcAM m, .andAM m, .orAM m, .xorAM m, .andAX x, .orAX x, .xorAX x,
   .cplaM m, .incaM m, .decaM m, .rraM m, .rrcaM m, .rlaM m, .rlcaM m, .movAM m, .movAX x, .swapaM m, .nop, .clrWdt,
   .clrWdt1, .clrWdt2, .halt]

/-- The skip instructions, with the condition each skips on (46_branch R262 to R270). -/
def skips (m : DataAddr) (i : BitNo) (s : State) : List (Instr × Bool) :=
  [(.szM m, decide ((operand m s).toNat = 0)), (.szaM m, decide ((operand m s).toNat = 0)),
   (.szBit i m, !(operand m s).getLsbD i.toNat), (.snzBit i m, (operand m s).getLsbD i.toNat),
   (.sizM m, decide ((operand m s).toNat = 255)), (.sdzM m, decide ((operand m s).toNat = 1)),
   (.sizaM m, decide ((operand m s).toNat = 255)), (.sdzaM m, decide ((operand m s).toNat = 1))]

end Sys2Proof.Claims

open Sys2Proof Sys2Proof.Machine Sys2Proof.Claims Sys2Proof.Safety

/-! ### Encoding -/

/-- Decoding the word of an instruction gives the instruction back, with every operand at every value, on either setting of
CLRWDT_TIMES under which the instruction has a word (30_encoding R144, R145, R148; the bit patterns are PRESUMED, log 1); so
ENC at its default is onto the instructions the part has a word for (R150). -/
def Obligations.DecodeOfEncode : Prop :=
  (∀ (times : Config.ClrWdtTimes) (i : Instr), i.wellFormed times = true → decode times (encode i) = .ok i) ∧
  ∀ o : Config.Options, o.encListing = [] → EncOnto o

/-- A word that decodes is the word of the instruction it decodes to, and that instruction has a word under the option: no
two words decode to one instruction (30_encoding R145; the bit patterns are PRESUMED, log 1). -/
def Obligations.EncodeOfDecode : Prop :=
  ∀ (times : Config.ClrWdtTimes) (w : Word) (i : Instr), decode times w = .ok i → encode i = w ∧ i.wellFormed times = true

/-- The words that are no instruction in the default table are exactly those of the ranges of 30_encoding R149, and a machine
that fetches a word that its ENC reads as none stops by name (92_eei D18, D25; the ranges are PRESUMED, log 1); so does one that fetches where the program image gives no word
(log 7). -/
def Obligations.UndefinedWordsStop : Prop :=
  (∀ (times : Config.ClrWdtTimes) (w : Word),
    (∃ e, decode times w = .error e) ↔
      (0x0006 ≤ w.toNat ∧ w.toNat ≤ 0x007F) ∨ (0x0780 ≤ w.toNat ∧ w.toNat ≤ 0x08FF) ∨
      (0x1C00 ≤ w.toNat ∧ w.toNat ≤ 0x1CFF) ∨ (0x1E00 ≤ w.toNat ∧ w.toNat ≤ 0x1E7F) ∨
      (0x2400 ≤ w.toNat ∧ w.toNat ≤ 0x27FF) ∨ (0x2C00 ≤ w.toNat ∧ w.toNat ≤ 0x2FFF)) ∧
  (∀ (s : State) (w : Word) (e : BadWord), AtInstruction s → Rom.word s.rom s.pc = some w →
    enc s.opts w = .error e → step s = .fault (.undefinedOpcode w)) ∧
  ∀ (s : State), AtInstruction s → Rom.word s.rom s.pc = none → step s = .fault (.wordNotGiven s.pc)

/-- Words of every family, written out bit by bit from 30_encoding R145, decode to the instructions they stand for (the bit
patterns are PRESUMED, log 1). -/
def Obligations.SpecWordsDecode : Prop :=
  decodeTableWord 16 0b00001101000000 = some (.addAM 0x40) ∧
  decodeTableWord 16 0b00011001000000 = some (.andAM 0x40) ∧
  decodeTableWord 16 0b01010011000000 = some (.incM 0x40) ∧
  decodeTableWord 16 0b01101011000000 = some (.rlcM 0x40) ∧
  decodeTableWord 16 0b00111110100101 = some (.movAX 0xA5) ∧
  decodeTableWord 16 0b11001111000000 = some (.setBit 7 0x40) ∧
  decodeTableWord 16 0b10101111111111 = some (.jmp 0x3FF) ∧
  decodeTableWord 16 0b01110111000001 = some (.tabrdl 0x41) ∧
  decodeTableWord 16 0b00000000000010 = some .halt

/-! ### The step, the invariant, reset -/

/-- At an instruction boundary with nothing to acknowledge, a step executes the instruction ENC reads with PC at the following
address, then the device ticks of its cycles among the events the outside world puts after it (00_scope R16, 20_memory R120,
60_exceptions R377, 70_reset R441). -/
def Obligations.StepRunsInstruction : Prop :=
  ∀ (s : State) (w : Word) (i : Instr), AtInstruction s → Rom.word s.rom s.pc = some w → enc s.opts w = .ok i →
    step s =
      (match exec i { s with pc := s.pc + 1, tmrBlocked := false, inputs := s.inputs.tail } with
      | .next t => .next (afterInstr (nextBoundary s).during
          (cyclesOf i { s with pc := s.pc + 1, tmrBlocked := false, inputs := s.inputs.tail } t) t)
      | .fault f => .fault f
      | .refused r => .refused r)

/-- Every step keeps the invariant `Legal`: at most two return addresses (10_state R35), canonical data memories within
their addresses with only LCD_MASK bits stored (10_state R66, R67), no timer running in mode 00 (60_exceptions R375), never
both pre-clear marks (48_misc R300, R301), PDF set while powered down (60_exceptions R392, R398). -/
def Obligations.StepKeepsLegal : Prop := ∀ s t : State, Legal s → step s = .next t → Legal t

/-- The state after power-on meets the invariant. -/
def Obligations.ResetIsLegal : Prop := Legal State.reset

/-- What the spec gives the machine after power-on (70_reset R422, R426, 10_state R71, R72), read through the model's own
register reads: PC, the empty stack, TO and PDF, the interrupt registers, TMRC, RTCC, the port latch, BP, the watchdog and
divider state. -/
def Obligations.ResetGivesSpecValues : Prop :=
  State.reset.pc = 0x000 ∧ State.reset.stk = [] ∧ State.reset.power = .running ∧
  State.reset.timeOut = false ∧ State.reset.pdf = false ∧
  readLoc .intc0 State.reset = 0x00 ∧ readLoc .intc1 State.reset = 0x00 ∧
  readLoc .tmrc State.reset = 0x08 ∧ readLoc .rtcc State.reset = 0x07 ∧
  State.reset.paLatch = 0xFF ∧ State.reset.bp = false ∧ State.reset.mft = 0 ∧
  State.reset.wdt.cnt = false ∧ State.reset.wdt.armed1 = false ∧ State.reset.wdt.armed2 = false ∧
  State.reset.timer.phase = .idle ∧ State.reset.timer.primed = false

/-! ### Arithmetic -/

/-- ADD A,[m], ADC A,[m] and ADD A,x complete, with the sum and its four flags and nothing else changed. -/
def Obligations.AddsToAcc : Prop :=
  (∀ m s, Readable m s → Completes (.addAM m) s fun t =>
    IsSum s.acc (operand m s) 0 t.acc t.alu ∧ OnlyAccAndFlags s t) ∧
  (∀ m s, Readable m s → Completes (.adcAM m) s fun t =>
    IsSum s.acc (operand m s) s.alu.c.toNat t.acc t.alu ∧ OnlyAccAndFlags s t) ∧
  (∀ x s, Completes (.addAX x) s fun t => IsSum s.acc x 0 t.acc t.alu ∧ OnlyAccAndFlags s t)

/-- SUB A,[m], SUB A,x and SBC A,[m] complete, with the difference ACC - operand (less one more where SBC finds C clear) and
its flags: C and AC mean that no borrow took place; nothing else changes. -/
def Obligations.SubtractsFromAcc : Prop :=
  (∀ m s, Readable m s → Completes (.subAM m) s fun t =>
    IsDifference s.acc (operand m s) 0 t.acc t.alu ∧ OnlyAccAndFlags s t) ∧
  (∀ x s, Completes (.subAX x) s fun t => IsDifference s.acc x 0 t.acc t.alu ∧ OnlyAccAndFlags s t) ∧
  (∀ m s, Readable m s → Completes (.sbcAM m) s fun t =>
    IsDifference s.acc (operand m s) (1 - s.alu.c.toNat) t.acc t.alu ∧ OnlyAccAndFlags s t)

/-- ADDM A,[m] and ADCM A,[m] complete wherever the sum can be written, with every effect of the write and the sum's flags;
what is not the destination is unchanged. -/
def Obligations.AddsToMemory : Prop :=
  (∀ m s r f, IsSum s.acc (operand m s) 0 r f → Writable m r s →
    Completes (.addmAM m) s (WritesBack m r (allFlags f) s)) ∧
  (∀ m s r f, IsSum s.acc (operand m s) s.alu.c.toNat r f → Writable m r s →
    Completes (.adcmAM m) s (WritesBack m r (allFlags f) s))

/-- SUBM A,[m] and SBCM A,[m] complete wherever the difference ACC - [m] can be written, with every effect of the write and
the difference's flags; what is not the destination is unchanged. -/
def Obligations.SubtractsToMemory : Prop :=
  (∀ m s r f, IsDifference s.acc (operand m s) 0 r f → Writable m r s →
    Completes (.submAM m) s (WritesBack m r (allFlags f) s)) ∧
  (∀ m s r f, IsDifference s.acc (operand m s) (1 - s.alu.c.toNat) r f → Writable m r s →
    Completes (.sbcmAM m) s (WritesBack m r (allFlags f) s))

/-- OV after an addition and after a subtraction is signed overflow: it is set exactly when the exact two's-complement
result does not fit a byte (40_arithmetic R171, R183). -/
def Obligations.OverflowIsSigned : Prop :=
  (∀ x s t, exec (.addAX x) s = .next t →
    (t.alu.ov = true ↔ (s.acc.toInt + x.toInt < -128 ∨ 127 < s.acc.toInt + x.toInt))) ∧
  (∀ x s t, exec (.subAX x) s = .next t →
    (t.alu.ov = true ↔ (s.acc.toInt - x.toInt < -128 ∨ 127 < s.acc.toInt - x.toInt))) ∧
  (∀ m s t, Readable m s → exec (.adcAM m) s = .next t →
    (t.alu.ov = true ↔ (s.acc.toInt + (operand m s).toInt + s.alu.c.toNat < -128 ∨
      127 < s.acc.toInt + (operand m s).toInt + s.alu.c.toNat)))

/-- DAA [m] completes with the adjusted ACC written, C set if it was set or the adjustment carried, and no other effect. The
high-nibble test is made after the low-nibble correction, the spec's decision D6, or on the original byte, as the option says
(log 25). -/
def Obligations.DaaAdjusts : Prop :=
  ∀ (m : DataAddr) (s : State) (low tested sum : Nat) (r : Byte),
    low = s.acc.toNat + (if 9 < s.acc.toNat % 16 ∨ s.alu.ac = true then 6 else 0) →
    tested = (if s.opts.daaTest = .sequential then low else s.acc.toNat) →
    sum = low + (if 9 < tested / 16 ∨ s.alu.c = true then 0x60 else 0) →
    r.toNat = sum % 256 → Writable m r s →
    Completes (.daaM m) s (WritesBack m r (onlyCarry (s.alu.c || decide (256 ≤ sum))) s)

/-- Adding two BCD bytes and a carry with ADC and adjusting with DAA gives the BCD sum, C the hundreds carry: the property the
spec's reading of DAA was chosen for (92_eei D6, 40_arithmetic R182). -/
def Obligations.BcdAdditionIsCorrect : Prop :=
  ∀ (a : Nat) (s t u : State), 0x40 ≤ a → a ≤ 0x7F → s.opts.daaTest = .sequential →
    IsBcd s.acc → IsBcd (Memory.read s.ram a) →
    exec (.adcAM (BitVec.ofNat 7 a)) s = .next t → exec (.daaM 0x05) t = .next u →
    IsBcd u.acc ∧
    bcd u.acc + 100 * u.alu.c.toNat = bcd s.acc + bcd (Memory.read s.ram a) + s.alu.c.toNat

/-! ### Logic, increment and decrement, rotate, move, bit -/

/-- AND, OR and XOR with memory or an immediate, and CPLA, complete with the bitwise result in ACC, Z from it, and nothing
else changed. -/
def Obligations.LogicToAcc : Prop :=
  (∀ m s, Readable m s →
    Completes (.andAM m) s (AccAndZero (s.acc &&& operand m s) s) ∧
    Completes (.orAM m) s (AccAndZero (s.acc ||| operand m s) s) ∧
    Completes (.xorAM m) s (AccAndZero (s.acc ^^^ operand m s) s) ∧
    Completes (.cplaM m) s (AccAndZero (~~~operand m s) s)) ∧
  ∀ x s,
    Completes (.andAX x) s (AccAndZero (s.acc &&& x) s) ∧
    Completes (.orAX x) s (AccAndZero (s.acc ||| x) s) ∧
    Completes (.xorAX x) s (AccAndZero (s.acc ^^^ x) s)

/-- ANDM, ORM, XORM and CPL complete wherever the bitwise result can be written, with every effect of the write, Z from the
computed byte, and nothing else changed. -/
def Obligations.LogicToMemory : Prop :=
  ∀ (m : DataAddr) (s : State),
    (Writable m (s.acc &&& operand m s) s →
      Completes (.andmAM m) s (WritesBack m (s.acc &&& operand m s) (onlyZero (s.acc &&& operand m s)) s)) ∧
    (Writable m (s.acc ||| operand m s) s →
      Completes (.ormAM m) s (WritesBack m (s.acc ||| operand m s) (onlyZero (s.acc ||| operand m s)) s)) ∧
    (Writable m (s.acc ^^^ operand m s) s →
      Completes (.xormAM m) s (WritesBack m (s.acc ^^^ operand m s) (onlyZero (s.acc ^^^ operand m s)) s)) ∧
    (Writable m (~~~operand m s) s →
      Completes (.cplM m) s (WritesBack m (~~~operand m s) (onlyZero (~~~operand m s)) s))

/-- INCA and DECA complete with the byte plus or minus one modulo 256 in ACC, Z from it, and nothing else changed. -/
def Obligations.IncrementsToAcc : Prop :=
  ∀ (m : DataAddr) (s : State) (r : Byte), Readable m s →
    (r.toNat = ((operand m s).toNat + 1) % 256 → Completes (.incaM m) s (AccAndZero r s)) ∧
    (r.toNat = ((operand m s).toNat + 255) % 256 → Completes (.decaM m) s (AccAndZero r s))

/-- INC and DEC complete wherever the byte plus or minus one modulo 256 can be written, with every effect of the write, Z
from the computed byte, and nothing else changed. -/
def Obligations.IncrementsMemory : Prop :=
  ∀ (m : DataAddr) (s : State) (r : Byte), Writable m r s →
    (r.toNat = ((operand m s).toNat + 1) % 256 → Completes (.incM m) s (WritesBack m r (onlyZero r) s)) ∧
    (r.toNat = ((operand m s).toNat + 255) % 256 → Completes (.decM m) s (WritesBack m r (onlyZero r) s))

/-- RRA, RRCA, RLA and RLCA complete with the rotated byte in ACC: the plain rotates write no flag, those through carry take C
in and leave the bit that fell out in C; nothing else changes. -/
def Obligations.RotatesToAcc : Prop :=
  ∀ (m : DataAddr) (s : State) (r : Byte), Readable m s →
    (RotatedRight ((operand m s).getLsbD 0) (operand m s) r → Completes (.rraM m) s (AccAlone r s)) ∧
    (RotatedRight s.alu.c (operand m s) r →
      Completes (.rrcaM m) s (AccAndCarry r ((operand m s).getLsbD 0) s)) ∧
    (RotatedLeft ((operand m s).getLsbD 7) (operand m s) r → Completes (.rlaM m) s (AccAlone r s)) ∧
    (RotatedLeft s.alu.c (operand m s) r →
      Completes (.rlcaM m) s (AccAndCarry r ((operand m s).getLsbD 7) s))

/-- RR, RRC, RL and RLC complete wherever the rotated byte can be written, with every effect of the write, C as for the forms
to ACC, and nothing else changed. -/
def Obligations.RotatesMemory : Prop :=
  ∀ (m : DataAddr) (s : State) (r : Byte), Writable m r s →
    (RotatedRight ((operand m s).getLsbD 0) (operand m s) r → Completes (.rrM m) s (WritesBack m r noFlags s)) ∧
    (RotatedRight s.alu.c (operand m s) r →
      Completes (.rrcM m) s (WritesBack m r (onlyCarry ((operand m s).getLsbD 0)) s)) ∧
    (RotatedLeft ((operand m s).getLsbD 7) (operand m s) r → Completes (.rlM m) s (WritesBack m r noFlags s)) ∧
    (RotatedLeft s.alu.c (operand m s) r →
      Completes (.rlcM m) s (WritesBack m r (onlyCarry ((operand m s).getLsbD 7)) s))

/-- MOV A,[m], MOV A,x and SWAPA complete with the byte, the immediate and the nibble-swapped byte in ACC; no flag and
nothing else changes. -/
def Obligations.MovesToAcc : Prop :=
  (∀ m s, Readable m s → Completes (.movAM m) s (AccAlone (operand m s) s)) ∧
  (∀ x s, Completes (.movAX x) s (AccAlone x s)) ∧
  (∀ m s r, Readable m s → NibblesSwapped (operand m s) r → Completes (.swapaM m) s (AccAlone r s))

/-- MOV [m],A, CLR [m], SET [m] and SWAP [m] complete wherever the byte can be written, with every effect of the write and
nothing else changed; a write to STATUS sets the four ALU flags from the byte and leaves TO and PDF. -/
def Obligations.StoresBytes : Prop :=
  ∀ (m : DataAddr) (s : State),
    (Writable m s.acc s → Completes (.movMA m) s (WritesBack m s.acc noFlags s)) ∧
    (Writable m 0x00 s → Completes (.clrM m) s (WritesBack m 0x00 noFlags s)) ∧
    (Writable m 0xFF s → Completes (.setM m) s (WritesBack m 0xFF noFlags s)) ∧
    ∀ r, NibblesSwapped (operand m s) r → Writable m r s → Completes (.swapM m) s (WritesBack m r noFlags s)

/-- CLR [m].i and SET [m].i complete wherever the changed byte can be written: that one bit of the byte read is 0 or 1, the
other seven are written back as read, with every effect of the write and nothing else changed. -/
def Obligations.BitOperations : Prop :=
  ∀ (i : BitNo) (m : DataAddr) (s : State) (r : Byte), Writable m r s →
    (∀ j < 8, j ≠ i.toNat → r.getLsbD j = (operand m s).getLsbD j) →
    (r.getLsbD i.toNat = false → Completes (.clrBit i m) s (WritesBack m r noFlags s)) ∧
    (r.getLsbD i.toNat = true → Completes (.setBit i m) s (WritesBack m r noFlags s))

/-! ### Control flow -/

/-- JMP loads PC; CALL pushes the following address and loads PC, and on a full stack the oldest address is lost (10_state
R36, 92_eei D4); nothing else changes. -/
def Obligations.JumpsAndCalls : Prop :=
  ∀ (addr : ProgAddr) (s : State),
    exec (.jmp addr) s = .next { s with pc := addr } ∧
    (s.stk.length < 2 → exec (.call addr) s = .next { s with pc := addr, stk := s.pc :: s.stk }) ∧
    ∀ newer older, s.stk = [newer, older] →
      exec (.call addr) s = .next { s with pc := addr, stk := [s.pc, newer] }

/-- RET, RET A,x and RETI take PC from the stack; RET A,x loads ACC, RETI sets EMI; nothing else changes. On an empty stack
they stop by name (10_state R37, 92_eei D5). -/
def Obligations.ReturnsPopPc : Prop :=
  (∀ (p : ProgAddr) (rest : List ProgAddr) (s : State), s.stk = p :: rest →
    exec .ret s = .next { s with pc := p, stk := rest } ∧
    (∀ x, exec (.retAX x) s = .next { s with pc := p, stk := rest, acc := x }) ∧
    exec .reti s = .next { s with pc := p, stk := rest, intc := { s.intc with emi := true } }) ∧
  ∀ (s : State), s.stk = [] →
    exec .ret s = .fault .stackUnderflow ∧ (∀ x, exec (.retAX x) s = .fault .stackUnderflow) ∧
    exec .reti s = .fault .stackUnderflow

/-- A subroutine that returns at once leaves the caller where it was, with the stack it had. Three nested calls on the
two-level stack lose the oldest return address: after them two returns come back in order and the third stops (10_state R36,
R37, 46_branch R272; 92_eei D4, D5). -/
def Obligations.CallsNestTwoDeep : Prop :=
  (∀ (addr : ProgAddr) (s t : State), s.stk.length < 2 → exec (.call addr) s = .next t → exec .ret t = .next s) ∧
  ∀ (a b c p q r : ProgAddr) (s t u v : State), s.stk = [] →
    exec (.call a) { s with pc := p } = .next t → exec (.call b) { t with pc := q } = .next u →
    exec (.call c) { u with pc := r } = .next v →
    ∃ x y, exec .ret v = .next x ∧ x.pc = r ∧ exec .ret x = .next y ∧ y.pc = q ∧ exec .ret y = .fault .stackUnderflow

/-- SZ [m], SZ [m].i and SNZ [m].i complete: PC passes the following instruction exactly when the byte is zero, the bit is
zero, the bit is one, in two cycles then and else in one; nothing else changes (46_branch R262, R264, R265). -/
def Obligations.TestsSkip : Prop :=
  ∀ (m : DataAddr) (i : BitNo) (s : State), Readable m s →
    Completes (.szM m) s (fun t => Skips ((operand m s).toNat = 0) (.szM m) s t ∧ OnlyPc s t) ∧
    Completes (.szBit i m) s (fun t =>
      Skips ((operand m s).getLsbD i.toNat = false) (.szBit i m) s t ∧ OnlyPc s t) ∧
    Completes (.snzBit i m) s (fun t =>
      Skips ((operand m s).getLsbD i.toNat = true) (.snzBit i m) s t ∧ OnlyPc s t)

/-- SZA, SIZA and SDZA complete: ACC gets the byte, the byte plus one, the byte minus one, modulo 256, and PC passes the
following instruction exactly when that is zero, in two cycles then and else in one; no flag and nothing else changes
(46_branch R263, R269, R270). -/
def Obligations.LoadsSkip : Prop :=
  ∀ (m : DataAddr) (s : State) (r : Byte), Readable m s →
    (r = operand m s →
      Completes (.szaM m) s (fun t =>
        t.acc = r ∧ Skips (r.toNat = 0) (.szaM m) s t ∧ OnlyAccAndPc s t)) ∧
    (r.toNat = ((operand m s).toNat + 1) % 256 →
      Completes (.sizaM m) s (fun t =>
        t.acc = r ∧ Skips (r.toNat = 0) (.sizaM m) s t ∧ OnlyAccAndPc s t)) ∧
    (r.toNat = ((operand m s).toNat + 255) % 256 →
      Completes (.sdzaM m) s (fun t =>
        t.acc = r ∧ Skips (r.toNat = 0) (.sdzaM m) s t ∧ OnlyAccAndPc s t))

/-- SIZ and SDZ complete wherever the byte plus or minus one can be written and the operand is not PCL: the byte is written
with every effect of the write, PC passes the following instruction exactly when it is zero, in two cycles then and else in
one, no flag is written as a flag, nothing else changes (46_branch R267, R268). -/
def Obligations.CountsSkip : Prop :=
  ∀ (m : DataAddr) (s : State) (r : Byte), Writable m r s → locate m s ≠ .pcl →
    (r.toNat = ((operand m s).toNat + 1) % 256 →
      Completes (.sizM m) s fun t => Stored (locate m s) r s t ∧ KeptOutside (locate m s) s t ∧
        FlagsAfter (locate m s) r s t noFlags ∧ Skips (r.toNat = 0) (.sizM m) s t) ∧
    (r.toNat = ((operand m s).toNat + 255) % 256 →
      Completes (.sdzM m) s fun t => Stored (locate m s) r s t ∧ KeptOutside (locate m s) s t ∧
        FlagsAfter (locate m s) r s t noFlags ∧ Skips (r.toNat = 0) (.sdzM m) s t)

/-! ### Table reads -/

/-- TABRDC reads the program word at TBLP in the page PAGE_BASE selects, that of the following address at its default (92_eei
D2), TABRDL the one at TBLP in the last page; the low byte is written to the operand with every effect of the write, bits 13 to
8 go to TBLH, nothing else changes. Where the image gives no word the value read is free (log 7). -/
def Obligations.TableReadsSplitTheWord : Prop :=
  ∀ (m : DataAddr) (s : State) (p : ProgAddr) (w : Word) (lo : Byte),
    (Rom.word s.rom p = some w ∨ (Rom.word s.rom p = none ∧ w = Config.unprogrammedWord p.toNat)) →
    lo.toNat = w.toNat % 256 → Writable m lo s →
    ((s.opts.pageBase = .following ∧ p.toNat = s.pc.toNat / 256 * 256 + s.tblp.toNat) ∨
      (s.opts.pageBase = .itself ∧ p.toNat = (s.pc - 1).toNat / 256 * 256 + s.tblp.toNat) →
      Completes (.tabrdc m) s fun t =>
        WritesBack m lo noFlags s { t with tblh := s.tblh } ∧ t.tblh.toNat = w.toNat / 256) ∧
    (p.toNat = 0x300 + s.tblp.toNat →
      Completes (.tabrdl m) s fun t =>
        WritesBack m lo noFlags s { t with tblh := s.tblh } ∧ t.tblh.toNat = w.toNat / 256)

/-! ### Miscellaneous and power-down -/

/-- NOP changes nothing. CLR WDT, where the option selects it, restarts the watchdog and clears TO and PDF and nothing else
(48_misc R298, R299); the watchdog-clear instructions the option does not select are NOPs (92_eei D17). With the watchdog
disabled the option WDT_DISABLED_CLR_FLAGS says whether the selected one is a NOP too (92_eei D15). -/
def Obligations.NopAndClearWatchdog : Prop :=
  ∀ (s : State), exec .nop s = .next s ∧
    (s.opts.clrWdtTimes = .one → s.opts.wdtEnable = true ∨ s.opts.wdtDisabledClrFlags = true →
      exec .clrWdt s = .next { s with timeOut := false, pdf := false, wdt := { s.wdt with cnt := false } }) ∧
    (s.opts.clrWdtTimes = .two → exec .clrWdt s = .next s) ∧
    (s.opts.clrWdtTimes = .one → exec .clrWdt1 s = .next s ∧ exec .clrWdt2 s = .next s) ∧
    (s.opts.wdtEnable = false → s.opts.wdtDisabledClrFlags = false →
      exec .clrWdt s = .next s ∧ exec .clrWdt1 s = .next s ∧ exec .clrWdt2 s = .next s)

/-- With the pair selected, and the watchdog enabled or WDT_DISABLED_CLR_FLAGS set (92_eei D15): CLR WDT1 and CLR WDT2, in
either order, restart the watchdog and clear TO, PDF and both marks; one alone, however often, only leaves its mark (48_misc R300, R301; the automaton is 92_eei D16). -/
def Obligations.WatchdogPairClears : Prop :=
  ∀ (s : State), s.opts.clrWdtTimes = .two → s.opts.wdtEnable = true ∨ s.opts.wdtDisabledClrFlags = true →
    s.wdt.armed1 = false → s.wdt.armed2 = false →
    ∃ one two : State,
      exec .clrWdt1 s = .next one ∧ one = { s with wdt := { s.wdt with armed1 := true } } ∧
      exec .clrWdt1 one = .next one ∧
      exec .clrWdt2 s = .next two ∧ two = { s with wdt := { s.wdt with armed2 := true } } ∧
      exec .clrWdt2 two = .next two ∧
      exec .clrWdt2 one = .next { s with timeOut := false, pdf := false, wdt := { s.wdt with cnt := false } } ∧
      exec .clrWdt1 two = .next { s with timeOut := false, pdf := false, wdt := { s.wdt with cnt := false } }

/-- HALT clears TO, sets PDF, restarts the watchdog, clears the prescaler (the upper seven bits of the divider chain, 92_eei
D32) and halts; nothing else changes. -/
def Obligations.HaltPowersDown : Prop :=
  ∀ (s : State), Completes .halt s fun t =>
    t.timeOut = false ∧ t.pdf = true ∧ t.wdt.cnt = false ∧ t.mft.toNat = s.mft.toNat % 256 ∧ t.power = .halted ∧
    { t with timeOut := s.timeOut, pdf := s.pdf, wdt := { t.wdt with cnt := s.wdt.cnt }, mft := s.mft, power := s.power } = s

/-! ### Data space -/

/-- An operand field 00H goes through MP0 to bank 0, whatever MP0 holds, 02H through MP1 to the bank BP selects; every other
field is its own bank 0 address, whatever BP holds (20_memory R104). Each bank 0 address is the register the data-space map
names for it, 06H being PCL, or a general purpose byte, or none (10_state R70, R73); in bank 1 the display bytes stand at 40H
to 4EH (20_memory R108). -/
def Obligations.OperandsResolve : Prop :=
  (∀ (a : DataAddr) s, s.mp0 = a → a ≠ 0x00 → a ≠ 0x02 → locate 0x00 s = locate a s) ∧
  (∀ (a : DataAddr) s, s.bp = false → s.mp1 = a → a ≠ 0x00 → a ≠ 0x02 → locate 0x02 s = locate a s) ∧
  (∀ s, s.bp = true → 0x40 ≤ s.mp1.toNat → s.mp1.toNat ≤ 0x4E → locate 0x02 s = .lcd s.mp1.toNat) ∧
  (∀ s, s.mp0 = 0x00 ∨ s.mp0 = 0x02 → locate 0x00 s = .iar) ∧
  (∀ s, s.bp = false → s.mp1 = 0x00 ∨ s.mp1 = 0x02 → locate 0x02 s = .iar) ∧
  (∀ s, 0x40 ≤ s.mp0.toNat → locate 0x00 s = .ram s.mp0.toNat) ∧
  (∀ s, s.bp = false → 0x40 ≤ s.mp1.toNat → locate 0x02 s = .ram s.mp1.toNat) ∧
  (∀ (m : DataAddr) s, 0x40 ≤ m.toNat → locate m s = .ram m.toNat) ∧
  (∀ s, locate 0x01 s = .mp0 ∧ locate 0x03 s = .mp1 ∧ locate 0x04 s = .bp ∧ locate 0x05 s = .acc ∧ locate 0x06 s = .pcl ∧
    locate 0x07 s = .tblp ∧ locate 0x08 s = .tblh ∧ locate 0x09 s = .rtcc ∧ locate 0x0A s = .status ∧
    locate 0x0B s = .intc0 ∧ locate 0x0D s = .tmr ∧ locate 0x0E s = .tmrc ∧ locate 0x12 s = .pa ∧ locate 0x14 s = .pb ∧
    locate 0x1E s = .intc1) ∧
  (∀ (m : DataAddr) s, m.toNat = 0x0C ∨ (0x0F ≤ m.toNat ∧ m.toNat ≤ 0x11) ∨ m.toNat = 0x13 ∨
    (0x15 ≤ m.toNat ∧ m.toNat ≤ 0x1D) ∨ (0x1F ≤ m.toNat ∧ m.toNat ≤ 0x3F) → locate m s = .unimplemented) ∧
  (∀ (m : DataAddr) s t, m ≠ 0x00 → m ≠ 0x02 → locate m s = locate m t)

/-- An operand that lands on an indirect addressing register, 00H or 02H reached through a pointer, reads 00H and a write to
it does nothing (20_memory R105): for every operand that resolves so, and said of MOV with each pointer at 00H and 02H. -/
def Obligations.IndirectRegisterIsEmpty : Prop :=
  ∀ (s : State),
    (∀ m, locate m s = .iar → operand m s = 0x00 ∧ ∀ v, write m v s = .next s) ∧
    (s.mp0 = 0x00 ∨ s.mp0 = 0x02 → locate 0x00 s = .iar ∧
      exec (.movAM 0x00) s = .next { s with acc := 0x00 } ∧ exec (.movMA 0x00) s = .next s) ∧
    ((s.mp1 = 0x00 ∨ s.mp1 = 0x02) → s.bp = false → locate 0x02 s = .iar ∧
      exec (.movAM 0x02) s = .next { s with acc := 0x00 } ∧ exec (.movMA 0x02) s = .next s)

/-- An access through MP1 with BP = 1 outside 40H to 4EH stops by name, for every instruction with an operand (20_memory R108,
92_eei D9). -/
def Obligations.Bank1HoleStops : Prop :=
  ∀ (s : State) (i : BitNo), s.bp = true → s.mp1.toNat < 0x40 ∨ 0x4E < s.mp1.toNat →
    ∀ instr ∈ readers 0x02 i ++ writers 0x02, exec instr s = .fault .bank1OutsideLcd

/-- Writes the spec gives no behaviour stop by name: turning the timer on in the unused mode 00, by MOV [m],A, by SET [m].4 and
in the store every writing instruction ends in (60_exceptions R375, 92_eei D28, log 17); SIZ and SDZ on PCL, reached directly or
through a pointer (46_branch R271, 92_eei D23, log 18). -/
def Obligations.UndefinedWritesStop : Prop :=
  ∀ (s : State) (m : DataAddr),
    (locate m s = .tmrc →
      (s.acc.getLsbD 4 = true → s.acc.toNat < 64 → exec (.movMA m) s = .fault .timerMode00) ∧
      (s.timer.tm = 0 → exec (.setBit 4 m) s = .fault .timerMode00) ∧
      ∀ v t, v.getLsbD 4 = true → v.toNat < 64 → store (locate m s) v t = .fault .timerMode00) ∧
    (locate m s = .pcl → exec (.sizM m) s = .fault .skipWritesPcl ∧ exec (.sdzM m) s = .fault .skipWritesPcl)

/-- What MOV A,[m] reads from the control registers, bit by bit (20_memory R106): STATUS, INTC0, INTC1, TMRC, RTCC, the
pointers, TBLH, PCL, and TMR, whose counter is read and not its preload. -/
def Obligations.RegistersReadBitByBit : Prop :=
  ∀ (s : State),
    Completes (.movAM 0x0A) s (fun t => t.acc.toNat = s.alu.c.toNat + 2 * s.alu.ac.toNat + 4 * s.alu.z.toNat +
      8 * s.alu.ov.toNat + 16 * s.pdf.toNat + 32 * s.timeOut.toNat) ∧
    Completes (.movAM 0x0B) s (fun t => t.acc.toNat = s.intc.emi.toNat + 2 * s.intc.eei.toNat + 4 * s.intc.eti.toNat +
      8 * s.intc.etbi.toNat + 16 * s.intc.eif.toNat + 32 * s.intc.tf.toNat + 64 * s.intc.tbf.toNat) ∧
    Completes (.movAM 0x1E) s (fun t => t.acc.toNat = s.intc.erti.toNat + 16 * s.intc.rtf.toNat) ∧
    Completes (.movAM 0x0E) s (fun t => t.acc.toNat = 8 * s.timer.te.toNat + 16 * s.timer.ton.toNat +
      32 * s.timer.ts.toNat + 64 * s.timer.tm.toNat) ∧
    Completes (.movAM 0x09) s (fun t => t.acc.toNat = s.rtcc.rt.toNat + 8 * s.rtcc.lvdc.toNat + 16 * s.rtcc.qosc.toNat +
      32 * (s.opts.lvdEnable && s.rtcc.lvdc && s.pins.vddLow).toNat) ∧
    Completes (.movAM 0x01) s (fun t => t.acc.toNat = 128 + s.mp0.toNat) ∧
    Completes (.movAM 0x03) s (fun t => t.acc.toNat = 128 + s.mp1.toNat) ∧
    Completes (.movAM 0x08) s (fun t => t.acc.toNat = s.tblh.toNat) ∧
    Completes (.movAM 0x06) s (fun t => t.acc.toNat = s.pc.toNat % 256) ∧
    Completes (.movAM 0x0D) s (fun t => t.acc = s.timer.cnt ∧ t.tmrBlocked = true)

/-- A byte stored in the general purpose memory through any operand form is what any operand form that reaches the same
address then reads (10_state R66, 20_memory R106, R107). -/
def Obligations.RamReadsWhatWasStored : Prop :=
  ∀ (m n : DataAddr) (s t u : State) (a : Nat), locate m s = .ram a → exec (.movMA m) s = .next t →
    locate n t = .ram a → exec (.movAM n) t = .next u → u.acc = s.acc

/-- Saving STATUS and restoring it loses none of C, AC, Z and OV and cannot change TO or PDF (10_state R46, R48). -/
def Obligations.StatusSaveRestore : Prop :=
  ∀ (s t u v : State), exec (.movAM 0x0A) s = .next t →
    u.acc = t.acc → exec (.movMA 0x0A) u = .next v →
    v.alu = s.alu ∧ v.timeOut = u.timeOut ∧ v.pdf = u.pdf

/-! ### Whole-machine rules -/

/-- STATUS as data (10_state R46): a write sets C, AC, Z and OV from bits 0 to 3 and changes nothing else, a read returns the
six flags in their places, and no instruction but HALT and the watchdog clears, whatever its operand, changes TO or PDF. -/
def Obligations.StatusAsData : Prop :=
  ∀ (s : State),
    exec (.movMA 0x0A) s = .next { s with alu := {
      c := s.acc.getLsbD 0, ac := s.acc.getLsbD 1, z := s.acc.getLsbD 2, ov := s.acc.getLsbD 3 } } ∧
    Completes (.movAM 0x0A) s (fun t => OnlyAccAndFlags s t ∧ t.alu = s.alu ∧ t.acc.toNat = s.alu.c.toNat +
      2 * s.alu.ac.toNat + 4 * s.alu.z.toNat + 8 * s.alu.ov.toNat + 16 * s.pdf.toNat + 32 * s.timeOut.toNat) ∧
    ∀ (i : Instr) (t : State), exec i s = .next t →
      i ≠ .halt → i ≠ .clrWdt → i ≠ .clrWdt1 → i ≠ .clrWdt2 → t.timeOut = s.timeOut ∧ t.pdf = s.pdf

/-- Only the table reads write TBLH (10_state R55), and the display memory is out of reach of every instruction while BP is 0
(20_memory R102, R104). -/
def Obligations.TblhAndLcdAreReachedOneWay : Prop :=
  ∀ (i : Instr) (s t : State), exec i s = .next t →
    ((∀ m, i ≠ .tabrdc m ∧ i ≠ .tabrdl m) → t.tblh = s.tblh) ∧ (s.bp = false → t.lcd = s.lcd)

/-- No step of the machine, whatever instruction it runs and whatever events, interrupts and resets come, changes the program
memory or the configuration options (20_memory R123, 70_reset R429). -/
def Obligations.ProgramAndOptionsNeverChange : Prop :=
  ∀ (s t : State), step s = .next t → t.rom = s.rom ∧ t.opts = s.opts

/-! ### Interrupts -/

/-- Taking an interrupt: for the acknowledgeable source of highest priority the check pushes PC, clears that source's request
flag and EMI, and loads the entry address 004H, 008H, 00CH or 010H; nothing else changes (60_exceptions R338, R340, R341). -/
def Obligations.InterruptEntry : Prop :=
  ∀ (s : State),
    (acknowledgeable .ext s = true → interruptCheck s =
      { s with stk := s.pc :: s.stk, pc := 0x004, intc := { s.intc with eif := false, emi := false } }) ∧
    (acknowledgeable .ext s = false → acknowledgeable .tmr s = true → interruptCheck s =
      { s with stk := s.pc :: s.stk, pc := 0x008, intc := { s.intc with tf := false, emi := false } }) ∧
    (acknowledgeable .ext s = false → acknowledgeable .tmr s = false → acknowledgeable .tb s = true → interruptCheck s =
      { s with stk := s.pc :: s.stk, pc := 0x00C, intc := { s.intc with tbf := false, emi := false } }) ∧
    (acknowledgeable .ext s = false → acknowledgeable .tmr s = false → acknowledgeable .tb s = false →
      acknowledgeable .rtc s = true → interruptCheck s =
      { s with stk := s.pc :: s.stk, pc := 0x010, intc := { s.intc with rtf := false, emi := false } })

/-- While the stack is full, and while EMI is 0, no request is acknowledged: the check changes nothing, so every request flag
stays recorded (60_exceptions R337, R336). -/
def Obligations.FullStackHoldsInterrupts : Prop :=
  ∀ (s : State), s.stk.length = 2 ∨ s.intc.emi = false → interruptCheck s = s

/-- An acknowledgeable request takes the machine to the handler before the next instruction of the program: the step fetches
and runs the word at the entry address, in the entered state (60_exceptions R340, R341). -/
def Obligations.StepEntersHandler : Prop :=
  ∀ (s : State) (src : Source) (w : Word) (i : Instr), s.power = .running → s.inputs = [] →
    acknowledgeable src s = true → (∀ other, other ≠ src → acknowledgeable other s = false) →
    Rom.word s.rom (vector src) = some w → enc s.opts w = .ok i →
    step s = runInstr [] i { s with
      stk := s.pc :: s.stk, pc := vector src + 1
      intc := { setRequest src false s.intc with emi := false }, tmrBlocked := false }

/-- An interrupt and the RETI of its handler leave the interrupted program where it was, with EMI set again and the request
served (60_exceptions R341, R342, 46_branch R261). -/
def Obligations.InterruptThenReti : Prop :=
  ∀ (s : State) (src : Source), acknowledgeable src s = true →
    exec .reti (enter src s) = .next { s with intc := setRequest src false s.intc }

/-! ### Devices -/

/-- A clock tick at a timer that is on, past its first enable-then-disable and not being read: the counter counts, and from FFH
it is reloaded, TF is requested and the PFD phase toggles (60_exceptions R377). A tick of the internal clock is a clock tick in
mode 10, and in mode 11 exactly while measuring; with TS = 0 it is the real time clock's time-out, with TS = 1 it comes four
times or once a cycle by TMR_CLK (R373, R375), so that a NOP adds 4 or 1 to the counter; with TS = 0 a NOP adds nothing. That
the ticks come after the instruction is 92_eei D31. -/
def Obligations.TimerCountsAndReloads : Prop :=
  (∀ (s : State), s.timer.ton = true → s.timer.primed = true → s.tmrBlocked = false →
    (s.timer.cnt ≠ 0xFF → timerTick s = { s with timer := { s.timer with cnt := s.timer.cnt + 1 } }) ∧
    (s.timer.cnt = 0xFF →
      (timerTick s).timer = { s.timer with cnt := s.timer.pre, pfd := !s.timer.pfd } ∧
      (timerTick s).intc = { s.intc with tf := true } ∧ (timerTick s).pc = s.pc ∧ (timerTick s).acc = s.acc)) ∧
  (∀ (s : State), s.timer.ton = false → timerTick s = s) ∧
  (∀ (s : State),
    (s.timer.tm = 0b10 → internalTick s = timerTick s) ∧
    (s.timer.tm = 0b11 → s.timer.phase = .counting → internalTick s = timerTick s) ∧
    (s.timer.tm = 0b11 → s.timer.phase ≠ .counting → internalTick s = s) ∧
    (s.timer.tm = 0b01 → internalTick s = s) ∧
    (s.mft.toNat % 2 ^ (8 + s.rtcc.rt.toNat) = 0 → s.timer.ts = false → rtcTap s = internalTick (raise .rtc s)) ∧
    (s.mft.toNat % 2 ^ (8 + s.rtcc.rt.toNat) = 0 → s.timer.ts = true → rtcTap s = raise .rtc s) ∧
    (s.mft.toNat % 2 ^ (8 + s.rtcc.rt.toNat) ≠ 0 → rtcTap s = s)) ∧
  ∀ (s : State) (w : Word), AtInstruction s → s.inputs = [] → Rom.word s.rom s.pc = some w → enc s.opts w = .ok .nop →
    s.opts.fsSource ≠ .fsysDiv4 → s.timer.tm = 0b10 → s.timer.ton = true → s.timer.primed = true →
    s.timer.cnt.toNat < 252 →
    ∃ t, step s = .next t ∧ t.timer.cnt.toNat = s.timer.cnt.toNat +
      (if s.timer.ts = false then 0 else if s.opts.tmrClk = .fsys then 4 else 1)

/-- In event count mode the counter counts falling edges of the TMR pin if TE = 1, rising edges if TE = 0, and no other
(60_exceptions R375). -/
def Obligations.EventModeCountsEdges : Prop :=
  ∀ (s : State) (level : Bool), s.timer.tm = 0b01 → s.timer.ton = true → s.timer.primed = true → s.tmrBlocked = false →
    s.timer.cnt ≠ 0xFF →
    (applyEvent s (.tmrPin level)).timer.cnt =
      (if level ≠ s.pins.tmr ∧ level = !s.timer.te then s.timer.cnt + 1 else s.timer.cnt) ∧
    (applyEvent s (.tmrPin level)).pins.tmr = level

/-- Pulse width measurement (60_exceptions R378): with TE = 1 a rising edge is the start edge and a falling one the stop edge,
with TE = 0 the other way round. Armed with the pin at its level before the start edge, that edge starts the count, the stop
edge stops it, clears TON and leaves the counter, and a second pulse changes nothing. -/
def Obligations.PulseWidthMeasuresOnce : Prop :=
  ∀ (s a b : State) (te : Bool), s.timer.tm = 0b11 → s.timer.te = te → s.timer.ton = true → s.timer.phase = .armed →
    s.pins.tmr = !te → a = applyEvent s (.tmrPin te) → b = applyEvent a (.tmrPin (!te)) →
    a.timer.phase = .counting ∧ a.timer.ton = true ∧ a.timer.cnt = s.timer.cnt ∧
    b.timer.phase = .idle ∧ b.timer.ton = false ∧ b.timer.cnt = s.timer.cnt ∧
    applyEvent (applyEvent b (.tmrPin te)) (.tmrPin (!te)) = b

/-- One tick of fS that is no watchdog time-out: the divider counts modulo 2^15, the time base requests at every 2^12 to 2^15
ticks by option, the real time clock at every 2^(8+RT) ticks, and the watchdog stage is clocked at every 2^15 while the
watchdog is enabled (60_exceptions R360, R365, R371, R372; the structure is 92_eei D32). -/
def Obligations.FsTickFiresTaps : Prop :=
  ∀ (s : State), watchdogExpires s = false →
    (fsTick s).mft = s.mft + 1 ∧
    (fsTick s).intc.tbf = (s.intc.tbf || decide ((s.mft.toNat + 1) % 2 ^ (12 + s.opts.tbPeriod.val) = 0)) ∧
    (fsTick s).intc.rtf = (s.intc.rtf || decide ((s.mft.toNat + 1) % 2 ^ (8 + s.rtcc.rt.toNat) = 0)) ∧
    (fsTick s).wdt.cnt = (s.wdt.cnt || (s.opts.wdtEnable && decide (s.mft.toNat + 1 = 2 ^ 15))) ∧
    (fsTick s).pc = s.pc ∧ (fsTick s).intc.emi = s.intc.emi

/-- The watchdog's contract with the program: after a watchdog clear, wherever the divider stands, no tick of fS up to the
2^15th is a time-out, and one of the first 2^16 is (60_exceptions R365). -/
def Obligations.WatchdogTimesOutInRange : Prop :=
  ∀ (s : State), s.opts.wdtEnable = true →
    (∀ n < 2 ^ 15, watchdogExpires (fsTicks n (watchdogClear s)) = false) ∧
    ∃ n < 2 ^ 16, watchdogExpires (fsTicks n (watchdogClear s)) = true ∧
      ∀ k < n, watchdogExpires (fsTicks k (watchdogClear s)) = false

/-- A watchdog time-out while running is a chip reset with TO set and PDF kept, while halted a warm reset that changes only PC,
the stack and TO and wakes the machine (60_exceptions R366, R367, R398, 70_reset R425). The tick of fS that brings the warm
reset changes, beside these, only what any tick does: the divider, the watchdog stage, request flags, and the counter and
PFD phase of a timer it clocks. -/
def Obligations.WatchdogTimeOutResets : Prop :=
  (∀ (s : State),
    (s.power = .running → watchdogTimeOut s = chipReset .wdtNormal s) ∧
    (s.power = .halted →
      watchdogTimeOut s = { s with pc := 0x000, stk := [], timeOut := true, power := .waking 1024 })) ∧
  ∀ (s : State), watchdogExpires s = true →
    (s.power = .running →
      (fsTick s).pc = 0x000 ∧ (fsTick s).stk = [] ∧ (fsTick s).timeOut = true ∧ (fsTick s).pdf = s.pdf ∧
      (fsTick s).mft = 0 ∧ (fsTick s).wdt.cnt = false ∧ (fsTick s).intc = State.reset.intc ∧
      (fsTick s).paLatch = 0xFF ∧ (fsTick s).acc = s.acc) ∧
    (s.power = .halted →
      { fsTick s with mft := s.mft, wdt := { (fsTick s).wdt with cnt := s.wdt.cnt },
                      intc := { (fsTick s).intc with tf := s.intc.tf, tbf := s.intc.tbf, rtf := s.intc.rtf },
                      timer := { (fsTick s).timer with cnt := s.timer.cnt, pfd := s.timer.pfd }, draws := s.draws } =
        { s with pc := 0x000, stk := [], timeOut := true, power := .waking 1024 } ∧
      (fsTick s).wdt.cnt = false ∧ (fsTick s).mft = 0)

/-- The chip resets (70_reset R422, R426, 10_state R71): each kind's TO and PDF, and the registers every kind sets; all but
power-on keep ACC, the pointers, the table registers, the ALU flags and, by the default option, the data memories (92_eei
D19). Which reset an event is: RES one of normal operation while running and one of HALT while halted (R421), a low supply one
of RES in normal operation, only with LVR_ENABLE and never while halted (R424), a rise of the supply the power-on one. -/
def Obligations.ChipResetsByKind : Prop :=
  (∀ (s : State) (k : ResetKind),
    ((chipReset k s).pc = 0x000 ∧ (chipReset k s).stk = [] ∧ (chipReset k s).power = .running ∧
      readLoc .intc0 (chipReset k s) = 0x00 ∧ readLoc .intc1 (chipReset k s) = 0x00 ∧
      readLoc .tmrc (chipReset k s) = 0x08 ∧ readLoc .rtcc (chipReset k s) = 0x07 ∧
      (chipReset k s).paLatch = 0xFF ∧ (chipReset k s).bp = false ∧ (chipReset k s).mft = 0 ∧
      (chipReset k s).wdt = { cnt := false, armed1 := false, armed2 := false }) ∧
    (chipReset k s).timeOut = (match k with
      | .powerOn => false | .resNormal => s.timeOut | .resHalt => false | .wdtNormal => true) ∧
    (chipReset k s).pdf = (match k with
      | .powerOn => false | .resNormal => s.pdf | .resHalt => true | .wdtNormal => s.pdf) ∧
    (k ≠ .powerOn → (chipReset k s).acc = s.acc ∧ (chipReset k s).mp0 = s.mp0 ∧ (chipReset k s).mp1 = s.mp1 ∧
      (chipReset k s).tblp = s.tblp ∧ (chipReset k s).tblh = s.tblh ∧ (chipReset k s).alu = s.alu ∧
      (s.opts.ramAfterReset = .unchanged → (chipReset k s).ram = s.ram ∧ (chipReset k s).lcd = s.lcd))) ∧
  ∀ (s : State),
    (s.power = .running → applyEvent s .resetPin = chipReset .resNormal s) ∧
    (s.power = .halted → applyEvent s .resetPin = chipReset .resHalt s) ∧
    (s.power = .running → s.opts.lvrEnable = true → applyEvent s .lowVoltage = chipReset .resNormal s) ∧
    (s.opts.lvrEnable = false → applyEvent s .lowVoltage = s) ∧
    (s.power = .halted → applyEvent s .lowVoltage = s) ∧
    applyEvent s .powerOn = chipReset .powerOn s

/-- Wake-up (60_exceptions R395, R396; 92_eei D22): in HALT a falling edge on INT whose flag was clear sets it and starts the
1024-period start-up delay, one whose flag was already set does not wake; a falling edge on a port A pin selected for wake-up
wakes and sets no flag. -/
def Obligations.WakeUpEvents : Prop :=
  ∀ (s : State), s.power = .halted →
    (s.pins.int = true → s.intc.eif = false →
      applyEvent s (.intPin false) = { s with
        pins := { s.pins with int := false }, intc := { s.intc with eif := true }, power := .waking 1024 }) ∧
    (s.pins.int = true → s.intc.eif = true → (applyEvent s (.intPin false)).power = .halted) ∧
    (∀ i < 8, s.opts.paWake.getLsbD i = true → s.opts.paCmos = 0 → s.paLatch.getLsbD i = true →
      s.pins.paDriven = 0xFF → s.pins.paLevel.getLsbD i = true →
      ∀ level : Byte, level.getLsbD i = false →
        (applyEvent s (.portA 0xFF level)).power = .waking 1024 ∧ (applyEvent s (.portA 0xFF level)).intc = s.intc ∧
        (applyEvent s (.portA 0xFF level)).pc = s.pc)

/-- A halted machine with no event and its system clock stopped stays as it is (60_exceptions R392, R393), and the start-up
delay of 1024 periods ends after 256 instruction cycles, with nothing executed (R397; one step is one cycle, log 14), where no
device is clocked from the system clock. -/
def Obligations.HaltAndStartUpDelay : Prop :=
  ∀ (s : State), s.inputs = [] → s.timer.ton = false → s.tmrBlocked = false →
    (s.power = .halted → s.opts.oscType ≠ .rtc32k → step s = .next s) ∧
    (s.power = .waking 1024 → s.opts.fsSource ≠ .fsysDiv4 → s.timer.ts = false →
      Host.Core.run core 255 s = .next { s with power := .waking 4 } ∧
      Host.Core.run core 256 s = .next { s with power := .running })

/-- Instruction cycles (70_reset R441), for each of the 63 instructions: the jumps, calls, returns and table reads take two; an
instruction whose destination is [m] one, or two when the write goes to PCL; a skip two when taken and one when not; every
other one. With fS from the instruction clock the divider counts them, here with the watchdog disabled and nothing from
outside: every instruction but HALT adds its cycles (60_exceptions R360), and HALT clears the upper seven bits and adds its one
(R361, 92_eei D32, log 13). -/
def Obligations.CyclesCountAndTick : Prop :=
  (∀ (m : DataAddr) (b : BitNo) (x : Byte) (addr : ProgAddr) (s t : State),
    (∀ i ∈ twoCycle m x addr, cyclesOf i s t = 2) ∧
    (∀ i ∈ destinations m b, cyclesOf i s t = if locate m s = .pcl then 2 else 1) ∧
    (∀ i ∈ oneCycle m x, cyclesOf i s t = 1) ∧
    (∀ p ∈ skips m b s, exec p.1 s = .next t → cyclesOf p.1 s t = if p.2 then 2 else 1)) ∧
  ∀ (s t : State) (w : Word) (i : Instr), AtInstruction s → s.inputs = [] → Rom.word s.rom s.pc = some w →
    enc s.opts w = .ok i → s.opts.fsSource = .fsysDiv4 → s.opts.wdtEnable = false →
    exec i { s with pc := s.pc + 1, tmrBlocked := false } = .next t →
    ∃ u, step s = .next u ∧ u.pc = t.pc ∧
      (i ≠ .halt → u.mft = s.mft + BitVec.ofNat 15 (cyclesOf i { s with pc := s.pc + 1, tmrBlocked := false } t)) ∧
      (i = .halt → u.mft.toNat = s.mft.toNat % 256 + 1)

/-! ### Ports -/

/-- Port A with all pins NMOS (60_exceptions R382, 92_eei D33): a read gives 0 for a pin whose latch is 0 or that is driven
low, 1 for a pin whose latch is 1 and that is driven high or is undriven with a pull-high. A write goes to the latch and
changes nothing else, whatever the pins are (R383). -/
def Obligations.PortAIsOpenDrain : Prop :=
  (∀ (s : State), s.opts.paCmos = 0 → Completes (.movAM 0x12) s fun t =>
    ∀ i < 8,
      (s.paLatch.getLsbD i = false → t.acc.getLsbD i = false) ∧
      (s.pins.paDriven.getLsbD i = true → s.pins.paLevel.getLsbD i = false → t.acc.getLsbD i = false) ∧
      (s.paLatch.getLsbD i = true → s.pins.paDriven.getLsbD i = true → s.pins.paLevel.getLsbD i = true →
        t.acc.getLsbD i = true) ∧
      (s.paLatch.getLsbD i = true → s.pins.paDriven.getLsbD i = false →
        (4 ≤ i ∨ s.opts.paPullHigh.getLsbD i = true) → t.acc.getLsbD i = true)) ∧
  ∀ (s : State), exec (.movMA 0x12) s = .next { s with paLatch := s.acc }

/-- The buzzer and PFD pad tables (60_exceptions R387, R388): with PA0, PA1 and PA3 CMOS and the functions selected, PA0
carries the buzzer signal wherever its latch bit is 0, PA1 its complement where both latch bits are 0, the pads 0 by the other
rows, and PA3 the PFD phase or 0. The buzzer signal is the divider bit of frequency fS/2^BZ_FREQ_LOG2 in a polarity left free,
the model's reading, log 19. -/
def Obligations.BuzzerAndPfdPads : Prop :=
  ∀ (s : State), s.opts.paCmos = 0xF → s.opts.pa01Buzzer = true → s.opts.pa3Pfd = true →
    Completes (.movAM 0x12) s fun t =>
      (s.paLatch.getLsbD 0 = true → t.acc.getLsbD 0 = false ∧ t.acc.getLsbD 1 = false) ∧
      (s.paLatch.getLsbD 0 = false →
        t.acc.getLsbD 0 = (s.mft.getLsbD (1 + s.opts.bzFreq.val) ^^ Config.buzzerPolarity)) ∧
      (s.paLatch.getLsbD 0 = false → s.paLatch.getLsbD 1 = false → t.acc.getLsbD 1 = !t.acc.getLsbD 0) ∧
      (s.paLatch.getLsbD 0 = false → s.paLatch.getLsbD 1 = true → t.acc.getLsbD 1 = false) ∧
      (s.paLatch.getLsbD 3 = true → t.acc.getLsbD 3 = false) ∧
      (s.paLatch.getLsbD 3 = false → s.timer.ton = true → t.acc.getLsbD 3 = s.timer.pfd)
end

