-- ==== Sys2Proof/Laws/Memory.lean ====
section
/-! SUPPORT. The laws of the storage: a read after a write, and the canonical form kept by every operation. -/

namespace Sys2Proof.Machine

section Cells

variable {w : Nat}

theorem cellsGet_set_same (m : List (Nat × BitVec w)) (a : Nat) (v : BitVec w) : cellsGet (cellsSet m a v) a = some v := by
  induction m with
  | nil => simp [cellsSet, cellsGet]
  | cons c rest ih =>
    simp only [cellsSet]
    split
    · simp [cellsGet]
    · split
      · simp [cellsGet]
      · rename_i h; simp [cellsGet, h, ih]

theorem cellsGet_set_other (m : List (Nat × BitVec w)) {a b : Nat} (v : BitVec w) (h : b ≠ a) :
    cellsGet (cellsSet m a v) b = cellsGet m b := by
  induction m with
  | nil => simp [cellsSet, cellsGet, h]
  | cons c rest ih =>
    simp only [cellsSet]
    split
    · simp [cellsGet, h]
    · split
      · rename_i e; subst e; simp [cellsGet, h]
      · simp [cellsGet, ih]

theorem cellsGet_erase_same (m : List (Nat × BitVec w)) (a : Nat) : cellsGet (cellsErase m a) a = none := by
  induction m with
  | nil => rfl
  | cons c rest ih =>
    simp only [cellsErase]
    split
    · exact ih
    · rename_i h; simp [cellsGet, h, ih]

theorem cellsGet_erase_other (m : List (Nat × BitVec w)) {a b : Nat} (h : b ≠ a) :
    cellsGet (cellsErase m a) b = cellsGet m b := by
  induction m with
  | nil => rfl
  | cons c rest ih =>
    simp only [cellsErase]
    split
    · rename_i e; subst e; simp [cellsGet, h, ih]
    · simp [cellsGet, ih]

/-- What is listed after a `cellsSet` was listed before, or is the new entry. -/
theorem mem_cellsSet {m : List (Nat × BitVec w)} {a : Nat} {v : BitVec w} {c : Nat × BitVec w}
    (h : c ∈ cellsSet m a v) : c = (a, v) ∨ c ∈ m := by
  induction m with
  | nil => simpa [cellsSet] using h
  | cons d rest ih =>
    simp only [cellsSet] at h
    split at h
    · simpa using h
    · split at h
      · rcases List.mem_cons.1 h with rfl | h
        · exact .inl rfl
        · exact .inr (List.mem_cons_of_mem _ h)
      · rcases List.mem_cons.1 h with rfl | h
        · exact .inr (by simp)
        · exact (ih h).imp id (List.mem_cons_of_mem _)

/-- What is listed after a `cellsErase` was listed before. -/
theorem mem_cellsErase {m : List (Nat × BitVec w)} {a : Nat} {c : Nat × BitVec w}
    (h : c ∈ cellsErase m a) : c ∈ m := by
  induction m with
  | nil => exact h
  | cons d rest ih =>
    simp only [cellsErase] at h
    split at h
    · exact List.mem_cons_of_mem _ (ih h)
    · rcases List.mem_cons.1 h with rfl | h
      · simp
      · exact List.mem_cons_of_mem _ (ih h)

theorem cellsRising_set {m : List (Nat × BitVec w)} (h : CellsRising m) (a : Nat) (v : BitVec w) :
    CellsRising (cellsSet m a v) := by
  induction m with
  | nil => simp [cellsSet]
  | cons c rest ih =>
    obtain ⟨hc, hr⟩ := List.pairwise_cons.1 h
    simp only [cellsSet]
    split
    · rename_i lt
      refine List.pairwise_cons.2 ⟨fun d hd => ?_, h⟩
      rcases List.mem_cons.1 hd with rfl | hd
      · exact lt
      · exact lt.trans (hc d hd)
    · split
      · rename_i e; subst e; exact List.pairwise_cons.2 ⟨hc, hr⟩
      · refine List.pairwise_cons.2 ⟨fun d hd => ?_, ih hr⟩
        rcases mem_cellsSet hd with rfl | hd
        · simp only; omega
        · exact hc d hd

theorem cellsRising_erase {m : List (Nat × BitVec w)} (h : CellsRising m) (a : Nat) :
    CellsRising (cellsErase m a) := by
  induction m with
  | nil => exact h
  | cons c rest ih =>
    obtain ⟨hc, hr⟩ := List.pairwise_cons.1 h
    simp only [cellsErase]
    split
    · exact ih hr
    · exact List.pairwise_cons.2 ⟨fun d hd => hc d (mem_cellsErase hd), ih hr⟩

end Cells

@[simp] theorem Memory.read_write_same (m : Memory) (a : Nat) (v : Byte) : Memory.read (Memory.write m a v) a = v := by
  unfold Memory.read Memory.write
  split
  · rename_i h; simp [cellsGet_erase_same, h]
  · simp [cellsGet_set_same]

theorem Memory.read_write_other (m : Memory) {a b : Nat} (v : Byte) (h : b ≠ a) : Memory.read (Memory.write m a v) b = Memory.read m b := by
  unfold Memory.read Memory.write
  split
  · rw [cellsGet_erase_other m h]
  · rw [cellsGet_set_other m v h]

/-- What is listed after a write was listed before, or is the written byte. -/
theorem Memory.mem_write {m : Memory} {a : Nat} {v : Byte} {c : Host.Cell} (h : c ∈ Memory.write m a v) :
    c = (a, v) ∨ c ∈ m := by
  unfold Memory.write at h
  split at h
  · exact .inr (mem_cellsErase h)
  · exact mem_cellsSet h

/-- A write keeps the canonical form. -/
theorem Memory.wf_write {m : Memory} (h : Memory.wf m) (a : Nat) (v : Byte) : Memory.wf (Memory.write m a v) := by
  unfold Memory.write
  split
  · exact ⟨cellsRising_erase h.1 a, fun c hc => h.2 c (mem_cellsErase hc)⟩
  · rename_i hv
    refine ⟨cellsRising_set h.1 a v, fun c hc => ?_⟩
    rcases mem_cellsSet hc with rfl | hc
    · exact hv
    · exact h.2 c hc

theorem Memory.wf_nil : Memory.wf [] := ⟨List.Pairwise.nil, by simp⟩

theorem Memory.wf_foldl_write (f : Nat → Byte) (addrs : List Nat) :
    ∀ {m : Memory}, Memory.wf m → Memory.wf (addrs.foldl (fun m a => Memory.write m a (f a)) m) := by
  induction addrs with
  | nil => exact id
  | cons a rest ih => exact fun h => ih (Memory.wf_write h a (f a))

theorem Memory.mem_foldl_write (f : Nat → Byte) (addrs : List Nat) :
    ∀ {m : Memory} {c : Host.Cell}, c ∈ addrs.foldl (fun m a => Memory.write m a (f a)) m →
      c ∈ m ∨ (c.1 ∈ addrs ∧ c.2 = f c.1) := by
  induction addrs with
  | nil => exact fun h => .inl h
  | cons a rest ih =>
    intro m c h
    rcases ih h with h | h
    · rcases Memory.mem_write h with rfl | h
      · exact .inr ⟨by simp, rfl⟩
      · exact .inl h
    · exact .inr ⟨List.mem_cons_of_mem _ h.1, h.2⟩

/-- A filled memory is canonical. -/
theorem Memory.wf_filled (f : Nat → Byte) (addrs : List Nat) : Memory.wf (Memory.filled f addrs) := Memory.wf_foldl_write f addrs Memory.wf_nil

/-- A filled memory lists only the addresses it was filled at, with the bytes it was filled with. -/
theorem Memory.mem_filled {f : Nat → Byte} {addrs : List Nat} {c : Host.Cell} (h : c ∈ Memory.filled f addrs) :
    c.1 ∈ addrs ∧ c.2 = f c.1 := by
  simpa using Memory.mem_foldl_write f addrs h

theorem mem_ramAddrs {a : Nat} (h : a ∈ ramAddrs) : 0x40 ≤ a ∧ a ≤ 0x7F := by
  simp only [ramAddrs, List.mem_range'_1] at h; omega

theorem mem_lcdAddrs {a : Nat} (h : a ∈ lcdAddrs) : 0x40 ≤ a ∧ a ≤ 0x4E := by
  simp only [lcdAddrs, List.mem_range'_1] at h; omega

@[simp] theorem Rom.word_place_same (r : Rom) (p : ProgAddr) (w : Word) : Rom.word (Rom.place r p w) p = some w :=
  cellsGet_set_same r p.toNat w

theorem Rom.word_place_other (r : Rom) {p q : ProgAddr} (w : Word) (h : q ≠ p) : Rom.word (Rom.place r p w) q = Rom.word r q :=
  cellsGet_set_other r w fun e => h (BitVec.eq_of_toNat_eq e)

/-- Placing a word keeps the form of the image. -/
theorem Rom.wf_place {r : Rom} (h : Rom.wf r) (p : ProgAddr) (w : Word) : Rom.wf (Rom.place r p w) := by
  refine ⟨cellsRising_set h.1 _ _, fun c hc => ?_⟩
  rcases mem_cellsSet hc with rfl | hc
  · exact p.isLt
  · exact h.2 c hc

/-- After power-on the two data memories and the image are canonical. -/
theorem reset_memories_wf :
    Memory.wf State.reset.ram ∧ Memory.wf State.reset.lcd ∧ Rom.wf State.reset.rom :=
  ⟨Memory.wf_nil, Memory.wf_nil, List.Pairwise.nil, by simp [State.reset]⟩

end Sys2Proof.Machine
end

