-- ==== Sys2Proof/Laws/State.lean ====
section
/-! SUPPORT. What each named update of the state leaves in each field, so that no proof unfolds a record update. -/

namespace Sys2Proof.Machine

/-! ### `setAccFlags`: result byte and flags -/

@[simp] theorem setAccFlags_acc (r : Byte) (u : FlagUpdate) (s : State) : (setAccFlags r u s).acc = r := rfl
@[simp] theorem setAccFlags_pc (r : Byte) (u : FlagUpdate) (s : State) : (setAccFlags r u s).pc = s.pc := rfl
@[simp] theorem setAccFlags_stk (r : Byte) (u : FlagUpdate) (s : State) : (setAccFlags r u s).stk = s.stk := rfl
@[simp] theorem setAccFlags_alu (r : Byte) (u : FlagUpdate) (s : State) : (setAccFlags r u s).alu = s.alu.update u := rfl
@[simp] theorem setAccFlags_pdf (r : Byte) (u : FlagUpdate) (s : State) : (setAccFlags r u s).pdf = s.pdf := rfl
@[simp] theorem setAccFlags_timeOut (r : Byte) (u : FlagUpdate) (s : State) : (setAccFlags r u s).timeOut = s.timeOut := rfl
@[simp] theorem setAccFlags_mp0 (r : Byte) (u : FlagUpdate) (s : State) : (setAccFlags r u s).mp0 = s.mp0 := rfl
@[simp] theorem setAccFlags_mp1 (r : Byte) (u : FlagUpdate) (s : State) : (setAccFlags r u s).mp1 = s.mp1 := rfl
@[simp] theorem setAccFlags_bp (r : Byte) (u : FlagUpdate) (s : State) : (setAccFlags r u s).bp = s.bp := rfl
@[simp] theorem setAccFlags_tblp (r : Byte) (u : FlagUpdate) (s : State) : (setAccFlags r u s).tblp = s.tblp := rfl
@[simp] theorem setAccFlags_tblh (r : Byte) (u : FlagUpdate) (s : State) : (setAccFlags r u s).tblh = s.tblh := rfl
@[simp] theorem setAccFlags_intc (r : Byte) (u : FlagUpdate) (s : State) : (setAccFlags r u s).intc = s.intc := rfl
@[simp] theorem setAccFlags_timer (r : Byte) (u : FlagUpdate) (s : State) : (setAccFlags r u s).timer = s.timer := rfl
@[simp] theorem setAccFlags_rtcc (r : Byte) (u : FlagUpdate) (s : State) : (setAccFlags r u s).rtcc = s.rtcc := rfl
@[simp] theorem setAccFlags_paLatch (r : Byte) (u : FlagUpdate) (s : State) : (setAccFlags r u s).paLatch = s.paLatch := rfl
@[simp] theorem setAccFlags_ram (r : Byte) (u : FlagUpdate) (s : State) : (setAccFlags r u s).ram = s.ram := rfl
@[simp] theorem setAccFlags_lcd (r : Byte) (u : FlagUpdate) (s : State) : (setAccFlags r u s).lcd = s.lcd := rfl
@[simp] theorem setAccFlags_wdt (r : Byte) (u : FlagUpdate) (s : State) : (setAccFlags r u s).wdt = s.wdt := rfl
@[simp] theorem setAccFlags_mft (r : Byte) (u : FlagUpdate) (s : State) : (setAccFlags r u s).mft = s.mft := rfl
@[simp] theorem setAccFlags_power (r : Byte) (u : FlagUpdate) (s : State) : (setAccFlags r u s).power = s.power := rfl
@[simp] theorem setAccFlags_rom (r : Byte) (u : FlagUpdate) (s : State) : (setAccFlags r u s).rom = s.rom := rfl
@[simp] theorem setAccFlags_opts (r : Byte) (u : FlagUpdate) (s : State) : (setAccFlags r u s).opts = s.opts := rfl
@[simp] theorem setAccFlags_pins (r : Byte) (u : FlagUpdate) (s : State) : (setAccFlags r u s).pins = s.pins := rfl
@[simp] theorem setAccFlags_inputs (r : Byte) (u : FlagUpdate) (s : State) : (setAccFlags r u s).inputs = s.inputs := rfl
@[simp] theorem setAccFlags_draws (r : Byte) (u : FlagUpdate) (s : State) : (setAccFlags r u s).draws = s.draws := rfl
@[simp] theorem setAccFlags_tmrBlocked (r : Byte) (u : FlagUpdate) (s : State) : (setAccFlags r u s).tmrBlocked = s.tmrBlocked := rfl
@[simp] theorem setAccFlags_unseen (r : Byte) (u : FlagUpdate) (s : State) : (setAccFlags r u s).unseen = s.unseen := rfl

/-! ### `readEffect`: the effects of a read -/

@[simp] theorem readEffect_acc (l : Loc) (s : State) : (readEffect l s).acc = s.acc := by cases l <;> rfl
@[simp] theorem readEffect_pc (l : Loc) (s : State) : (readEffect l s).pc = s.pc := by cases l <;> rfl
@[simp] theorem readEffect_stk (l : Loc) (s : State) : (readEffect l s).stk = s.stk := by cases l <;> rfl
@[simp] theorem readEffect_alu (l : Loc) (s : State) : (readEffect l s).alu = s.alu := by cases l <;> rfl
@[simp] theorem readEffect_pdf (l : Loc) (s : State) : (readEffect l s).pdf = s.pdf := by cases l <;> rfl
@[simp] theorem readEffect_timeOut (l : Loc) (s : State) : (readEffect l s).timeOut = s.timeOut := by cases l <;> rfl
@[simp] theorem readEffect_mp0 (l : Loc) (s : State) : (readEffect l s).mp0 = s.mp0 := by cases l <;> rfl
@[simp] theorem readEffect_mp1 (l : Loc) (s : State) : (readEffect l s).mp1 = s.mp1 := by cases l <;> rfl
@[simp] theorem readEffect_bp (l : Loc) (s : State) : (readEffect l s).bp = s.bp := by cases l <;> rfl
@[simp] theorem readEffect_tblp (l : Loc) (s : State) : (readEffect l s).tblp = s.tblp := by cases l <;> rfl
@[simp] theorem readEffect_tblh (l : Loc) (s : State) : (readEffect l s).tblh = s.tblh := by cases l <;> rfl
@[simp] theorem readEffect_intc (l : Loc) (s : State) : (readEffect l s).intc = s.intc := by cases l <;> rfl
@[simp] theorem readEffect_timer (l : Loc) (s : State) : (readEffect l s).timer = s.timer := by cases l <;> rfl
@[simp] theorem readEffect_rtcc (l : Loc) (s : State) : (readEffect l s).rtcc = s.rtcc := by cases l <;> rfl
@[simp] theorem readEffect_paLatch (l : Loc) (s : State) : (readEffect l s).paLatch = s.paLatch := by cases l <;> rfl
@[simp] theorem readEffect_ram (l : Loc) (s : State) : (readEffect l s).ram = s.ram := by cases l <;> rfl
@[simp] theorem readEffect_lcd (l : Loc) (s : State) : (readEffect l s).lcd = s.lcd := by cases l <;> rfl
@[simp] theorem readEffect_wdt (l : Loc) (s : State) : (readEffect l s).wdt = s.wdt := by cases l <;> rfl
@[simp] theorem readEffect_mft (l : Loc) (s : State) : (readEffect l s).mft = s.mft := by cases l <;> rfl
@[simp] theorem readEffect_power (l : Loc) (s : State) : (readEffect l s).power = s.power := by cases l <;> rfl
@[simp] theorem readEffect_rom (l : Loc) (s : State) : (readEffect l s).rom = s.rom := by cases l <;> rfl
@[simp] theorem readEffect_opts (l : Loc) (s : State) : (readEffect l s).opts = s.opts := by cases l <;> rfl
@[simp] theorem readEffect_pins (l : Loc) (s : State) : (readEffect l s).pins = s.pins := by cases l <;> rfl
@[simp] theorem readEffect_inputs (l : Loc) (s : State) : (readEffect l s).inputs = s.inputs := by cases l <;> rfl
@[simp] theorem readEffect_unseen (l : Loc) (s : State) : (readEffect l s).unseen = s.unseen := by cases l <;> rfl

/-! ### `writeLoc`: what no data write changes -/

@[simp] theorem writeLoc_stk (l : Loc) (v : Byte) (s : State) : (writeLoc l v s).stk = s.stk := by cases l <;> rfl
@[simp] theorem writeLoc_pdf (l : Loc) (v : Byte) (s : State) : (writeLoc l v s).pdf = s.pdf := by cases l <;> rfl
@[simp] theorem writeLoc_timeOut (l : Loc) (v : Byte) (s : State) : (writeLoc l v s).timeOut = s.timeOut := by cases l <;> rfl
@[simp] theorem writeLoc_tblh (l : Loc) (v : Byte) (s : State) : (writeLoc l v s).tblh = s.tblh := by cases l <;> rfl
@[simp] theorem writeLoc_wdt (l : Loc) (v : Byte) (s : State) : (writeLoc l v s).wdt = s.wdt := by cases l <;> rfl
@[simp] theorem writeLoc_mft (l : Loc) (v : Byte) (s : State) : (writeLoc l v s).mft = s.mft := by cases l <;> rfl
@[simp] theorem writeLoc_power (l : Loc) (v : Byte) (s : State) : (writeLoc l v s).power = s.power := by cases l <;> rfl
@[simp] theorem writeLoc_rom (l : Loc) (v : Byte) (s : State) : (writeLoc l v s).rom = s.rom := by cases l <;> rfl
@[simp] theorem writeLoc_opts (l : Loc) (v : Byte) (s : State) : (writeLoc l v s).opts = s.opts := by cases l <;> rfl
@[simp] theorem writeLoc_pins (l : Loc) (v : Byte) (s : State) : (writeLoc l v s).pins = s.pins := by cases l <;> rfl
@[simp] theorem writeLoc_inputs (l : Loc) (v : Byte) (s : State) : (writeLoc l v s).inputs = s.inputs := by cases l <;> rfl
@[simp] theorem writeLoc_draws (l : Loc) (v : Byte) (s : State) : (writeLoc l v s).draws = s.draws := by cases l <;> rfl
@[simp] theorem writeLoc_tmrBlocked (l : Loc) (v : Byte) (s : State) : (writeLoc l v s).tmrBlocked = s.tmrBlocked := by cases l <;> rfl
@[simp] theorem writeLoc_unseen (l : Loc) (v : Byte) (s : State) : (writeLoc l v s).unseen = s.unseen := by cases l <;> rfl

/-! ### `setFlagsAfter`: the flags after the write -/

@[simp] theorem setFlagsAfter_acc (l : Loc) (u : FlagUpdate) (s : State) : (setFlagsAfter l u s).acc = s.acc := by unfold setFlagsAfter; split <;> rfl
@[simp] theorem setFlagsAfter_pc (l : Loc) (u : FlagUpdate) (s : State) : (setFlagsAfter l u s).pc = s.pc := by unfold setFlagsAfter; split <;> rfl
@[simp] theorem setFlagsAfter_stk (l : Loc) (u : FlagUpdate) (s : State) : (setFlagsAfter l u s).stk = s.stk := by unfold setFlagsAfter; split <;> rfl
@[simp] theorem setFlagsAfter_pdf (l : Loc) (u : FlagUpdate) (s : State) : (setFlagsAfter l u s).pdf = s.pdf := by unfold setFlagsAfter; split <;> rfl
@[simp] theorem setFlagsAfter_timeOut (l : Loc) (u : FlagUpdate) (s : State) : (setFlagsAfter l u s).timeOut = s.timeOut := by unfold setFlagsAfter; split <;> rfl
@[simp] theorem setFlagsAfter_mp0 (l : Loc) (u : FlagUpdate) (s : State) : (setFlagsAfter l u s).mp0 = s.mp0 := by unfold setFlagsAfter; split <;> rfl
@[simp] theorem setFlagsAfter_mp1 (l : Loc) (u : FlagUpdate) (s : State) : (setFlagsAfter l u s).mp1 = s.mp1 := by unfold setFlagsAfter; split <;> rfl
@[simp] theorem setFlagsAfter_bp (l : Loc) (u : FlagUpdate) (s : State) : (setFlagsAfter l u s).bp = s.bp := by unfold setFlagsAfter; split <;> rfl
@[simp] theorem setFlagsAfter_tblp (l : Loc) (u : FlagUpdate) (s : State) : (setFlagsAfter l u s).tblp = s.tblp := by unfold setFlagsAfter; split <;> rfl
@[simp] theorem setFlagsAfter_tblh (l : Loc) (u : FlagUpdate) (s : State) : (setFlagsAfter l u s).tblh = s.tblh := by unfold setFlagsAfter; split <;> rfl
@[simp] theorem setFlagsAfter_intc (l : Loc) (u : FlagUpdate) (s : State) : (setFlagsAfter l u s).intc = s.intc := by unfold setFlagsAfter; split <;> rfl
@[simp] theorem setFlagsAfter_timer (l : Loc) (u : FlagUpdate) (s : State) : (setFlagsAfter l u s).timer = s.timer := by unfold setFlagsAfter; split <;> rfl
@[simp] theorem setFlagsAfter_rtcc (l : Loc) (u : FlagUpdate) (s : State) : (setFlagsAfter l u s).rtcc = s.rtcc := by unfold setFlagsAfter; split <;> rfl
@[simp] theorem setFlagsAfter_paLatch (l : Loc) (u : FlagUpdate) (s : State) : (setFlagsAfter l u s).paLatch = s.paLatch := by unfold setFlagsAfter; split <;> rfl
@[simp] theorem setFlagsAfter_ram (l : Loc) (u : FlagUpdate) (s : State) : (setFlagsAfter l u s).ram = s.ram := by unfold setFlagsAfter; split <;> rfl
@[simp] theorem setFlagsAfter_lcd (l : Loc) (u : FlagUpdate) (s : State) : (setFlagsAfter l u s).lcd = s.lcd := by unfold setFlagsAfter; split <;> rfl
@[simp] theorem setFlagsAfter_wdt (l : Loc) (u : FlagUpdate) (s : State) : (setFlagsAfter l u s).wdt = s.wdt := by unfold setFlagsAfter; split <;> rfl
@[simp] theorem setFlagsAfter_mft (l : Loc) (u : FlagUpdate) (s : State) : (setFlagsAfter l u s).mft = s.mft := by unfold setFlagsAfter; split <;> rfl
@[simp] theorem setFlagsAfter_power (l : Loc) (u : FlagUpdate) (s : State) : (setFlagsAfter l u s).power = s.power := by unfold setFlagsAfter; split <;> rfl
@[simp] theorem setFlagsAfter_rom (l : Loc) (u : FlagUpdate) (s : State) : (setFlagsAfter l u s).rom = s.rom := by unfold setFlagsAfter; split <;> rfl
@[simp] theorem setFlagsAfter_opts (l : Loc) (u : FlagUpdate) (s : State) : (setFlagsAfter l u s).opts = s.opts := by unfold setFlagsAfter; split <;> rfl
@[simp] theorem setFlagsAfter_pins (l : Loc) (u : FlagUpdate) (s : State) : (setFlagsAfter l u s).pins = s.pins := by unfold setFlagsAfter; split <;> rfl
@[simp] theorem setFlagsAfter_inputs (l : Loc) (u : FlagUpdate) (s : State) : (setFlagsAfter l u s).inputs = s.inputs := by unfold setFlagsAfter; split <;> rfl
@[simp] theorem setFlagsAfter_tmrBlocked (l : Loc) (u : FlagUpdate) (s : State) : (setFlagsAfter l u s).tmrBlocked = s.tmrBlocked := by unfold setFlagsAfter; split <;> rfl
@[simp] theorem setFlagsAfter_unseen (l : Loc) (u : FlagUpdate) (s : State) : (setFlagsAfter l u s).unseen = s.unseen := by unfold setFlagsAfter; split <;> rfl

/-! ### `skipIf`: the skip -/

@[simp] theorem skipIf_acc (c : Bool) (s : State) : (skipIf c s).acc = s.acc := by cases c <;> rfl
@[simp] theorem skipIf_stk (c : Bool) (s : State) : (skipIf c s).stk = s.stk := by cases c <;> rfl
@[simp] theorem skipIf_alu (c : Bool) (s : State) : (skipIf c s).alu = s.alu := by cases c <;> rfl
@[simp] theorem skipIf_pdf (c : Bool) (s : State) : (skipIf c s).pdf = s.pdf := by cases c <;> rfl
@[simp] theorem skipIf_timeOut (c : Bool) (s : State) : (skipIf c s).timeOut = s.timeOut := by cases c <;> rfl
@[simp] theorem skipIf_mp0 (c : Bool) (s : State) : (skipIf c s).mp0 = s.mp0 := by cases c <;> rfl
@[simp] theorem skipIf_mp1 (c : Bool) (s : State) : (skipIf c s).mp1 = s.mp1 := by cases c <;> rfl
@[simp] theorem skipIf_bp (c : Bool) (s : State) : (skipIf c s).bp = s.bp := by cases c <;> rfl
@[simp] theorem skipIf_tblp (c : Bool) (s : State) : (skipIf c s).tblp = s.tblp := by cases c <;> rfl
@[simp] theorem skipIf_tblh (c : Bool) (s : State) : (skipIf c s).tblh = s.tblh := by cases c <;> rfl
@[simp] theorem skipIf_intc (c : Bool) (s : State) : (skipIf c s).intc = s.intc := by cases c <;> rfl
@[simp] theorem skipIf_timer (c : Bool) (s : State) : (skipIf c s).timer = s.timer := by cases c <;> rfl
@[simp] theorem skipIf_rtcc (c : Bool) (s : State) : (skipIf c s).rtcc = s.rtcc := by cases c <;> rfl
@[simp] theorem skipIf_paLatch (c : Bool) (s : State) : (skipIf c s).paLatch = s.paLatch := by cases c <;> rfl
@[simp] theorem skipIf_ram (c : Bool) (s : State) : (skipIf c s).ram = s.ram := by cases c <;> rfl
@[simp] theorem skipIf_lcd (c : Bool) (s : State) : (skipIf c s).lcd = s.lcd := by cases c <;> rfl
@[simp] theorem skipIf_wdt (c : Bool) (s : State) : (skipIf c s).wdt = s.wdt := by cases c <;> rfl
@[simp] theorem skipIf_mft (c : Bool) (s : State) : (skipIf c s).mft = s.mft := by cases c <;> rfl
@[simp] theorem skipIf_power (c : Bool) (s : State) : (skipIf c s).power = s.power := by cases c <;> rfl
@[simp] theorem skipIf_rom (c : Bool) (s : State) : (skipIf c s).rom = s.rom := by cases c <;> rfl
@[simp] theorem skipIf_opts (c : Bool) (s : State) : (skipIf c s).opts = s.opts := by cases c <;> rfl
@[simp] theorem skipIf_pins (c : Bool) (s : State) : (skipIf c s).pins = s.pins := by cases c <;> rfl
@[simp] theorem skipIf_inputs (c : Bool) (s : State) : (skipIf c s).inputs = s.inputs := by cases c <;> rfl
@[simp] theorem skipIf_draws (c : Bool) (s : State) : (skipIf c s).draws = s.draws := by cases c <;> rfl
@[simp] theorem skipIf_tmrBlocked (c : Bool) (s : State) : (skipIf c s).tmrBlocked = s.tmrBlocked := by cases c <;> rfl
@[simp] theorem skipIf_unseen (c : Bool) (s : State) : (skipIf c s).unseen = s.unseen := by cases c <;> rfl

/-! ### `afterFetch`: the fetch -/

@[simp] theorem afterFetch_acc (s : State) : (afterFetch s).acc = s.acc := rfl
@[simp] theorem afterFetch_pc (s : State) : (afterFetch s).pc = s.pc + 1 := rfl
@[simp] theorem afterFetch_stk (s : State) : (afterFetch s).stk = s.stk := rfl
@[simp] theorem afterFetch_alu (s : State) : (afterFetch s).alu = s.alu := rfl
@[simp] theorem afterFetch_pdf (s : State) : (afterFetch s).pdf = s.pdf := rfl
@[simp] theorem afterFetch_timeOut (s : State) : (afterFetch s).timeOut = s.timeOut := rfl
@[simp] theorem afterFetch_mp0 (s : State) : (afterFetch s).mp0 = s.mp0 := rfl
@[simp] theorem afterFetch_mp1 (s : State) : (afterFetch s).mp1 = s.mp1 := rfl
@[simp] theorem afterFetch_bp (s : State) : (afterFetch s).bp = s.bp := rfl
@[simp] theorem afterFetch_tblp (s : State) : (afterFetch s).tblp = s.tblp := rfl
@[simp] theorem afterFetch_tblh (s : State) : (afterFetch s).tblh = s.tblh := rfl
@[simp] theorem afterFetch_intc (s : State) : (afterFetch s).intc = s.intc := rfl
@[simp] theorem afterFetch_timer (s : State) : (afterFetch s).timer = s.timer := rfl
@[simp] theorem afterFetch_rtcc (s : State) : (afterFetch s).rtcc = s.rtcc := rfl
@[simp] theorem afterFetch_paLatch (s : State) : (afterFetch s).paLatch = s.paLatch := rfl
@[simp] theorem afterFetch_ram (s : State) : (afterFetch s).ram = s.ram := rfl
@[simp] theorem afterFetch_lcd (s : State) : (afterFetch s).lcd = s.lcd := rfl
@[simp] theorem afterFetch_wdt (s : State) : (afterFetch s).wdt = s.wdt := rfl
@[simp] theorem afterFetch_mft (s : State) : (afterFetch s).mft = s.mft := rfl
@[simp] theorem afterFetch_power (s : State) : (afterFetch s).power = s.power := rfl
@[simp] theorem afterFetch_rom (s : State) : (afterFetch s).rom = s.rom := rfl
@[simp] theorem afterFetch_opts (s : State) : (afterFetch s).opts = s.opts := rfl
@[simp] theorem afterFetch_pins (s : State) : (afterFetch s).pins = s.pins := rfl
@[simp] theorem afterFetch_inputs (s : State) : (afterFetch s).inputs = s.inputs := rfl
@[simp] theorem afterFetch_draws (s : State) : (afterFetch s).draws = s.draws := rfl
@[simp] theorem afterFetch_tmrBlocked (s : State) : (afterFetch s).tmrBlocked = false := rfl
@[simp] theorem afterFetch_unseen (s : State) : (afterFetch s).unseen = s.unseen := rfl

/-! ### `enter`: interrupt entry -/

@[simp] theorem enter_acc (src : Source) (s : State) : (enter src s).acc = s.acc := rfl
@[simp] theorem enter_pc (src : Source) (s : State) : (enter src s).pc = vector src := rfl
@[simp] theorem enter_stk (src : Source) (s : State) : (enter src s).stk = push s.pc s.stk := rfl
@[simp] theorem enter_alu (src : Source) (s : State) : (enter src s).alu = s.alu := rfl
@[simp] theorem enter_pdf (src : Source) (s : State) : (enter src s).pdf = s.pdf := rfl
@[simp] theorem enter_timeOut (src : Source) (s : State) : (enter src s).timeOut = s.timeOut := rfl
@[simp] theorem enter_mp0 (src : Source) (s : State) : (enter src s).mp0 = s.mp0 := rfl
@[simp] theorem enter_mp1 (src : Source) (s : State) : (enter src s).mp1 = s.mp1 := rfl
@[simp] theorem enter_bp (src : Source) (s : State) : (enter src s).bp = s.bp := rfl
@[simp] theorem enter_tblp (src : Source) (s : State) : (enter src s).tblp = s.tblp := rfl
@[simp] theorem enter_tblh (src : Source) (s : State) : (enter src s).tblh = s.tblh := rfl
@[simp] theorem enter_intc (src : Source) (s : State) : (enter src s).intc = { setRequest src false s.intc with emi := false } := rfl
@[simp] theorem enter_timer (src : Source) (s : State) : (enter src s).timer = s.timer := rfl
@[simp] theorem enter_rtcc (src : Source) (s : State) : (enter src s).rtcc = s.rtcc := rfl
@[simp] theorem enter_paLatch (src : Source) (s : State) : (enter src s).paLatch = s.paLatch := rfl
@[simp] theorem enter_ram (src : Source) (s : State) : (enter src s).ram = s.ram := rfl
@[simp] theorem enter_lcd (src : Source) (s : State) : (enter src s).lcd = s.lcd := rfl
@[simp] theorem enter_wdt (src : Source) (s : State) : (enter src s).wdt = s.wdt := rfl
@[simp] theorem enter_mft (src : Source) (s : State) : (enter src s).mft = s.mft := rfl
@[simp] theorem enter_power (src : Source) (s : State) : (enter src s).power = s.power := rfl
@[simp] theorem enter_rom (src : Source) (s : State) : (enter src s).rom = s.rom := rfl
@[simp] theorem enter_opts (src : Source) (s : State) : (enter src s).opts = s.opts := rfl
@[simp] theorem enter_pins (src : Source) (s : State) : (enter src s).pins = s.pins := rfl
@[simp] theorem enter_inputs (src : Source) (s : State) : (enter src s).inputs = s.inputs := rfl
@[simp] theorem enter_draws (src : Source) (s : State) : (enter src s).draws = s.draws := rfl
@[simp] theorem enter_tmrBlocked (src : Source) (s : State) : (enter src s).tmrBlocked = s.tmrBlocked := rfl
@[simp] theorem enter_unseen (src : Source) (s : State) : (enter src s).unseen = s.unseen := rfl

/-! ### `watchdogClear`: the watchdog stage restarts -/

@[simp] theorem watchdogClear_acc (s : State) : (watchdogClear s).acc = s.acc := rfl
@[simp] theorem watchdogClear_pc (s : State) : (watchdogClear s).pc = s.pc := rfl
@[simp] theorem watchdogClear_stk (s : State) : (watchdogClear s).stk = s.stk := rfl
@[simp] theorem watchdogClear_alu (s : State) : (watchdogClear s).alu = s.alu := rfl
@[simp] theorem watchdogClear_pdf (s : State) : (watchdogClear s).pdf = s.pdf := rfl
@[simp] theorem watchdogClear_timeOut (s : State) : (watchdogClear s).timeOut = s.timeOut := rfl
@[simp] theorem watchdogClear_mp0 (s : State) : (watchdogClear s).mp0 = s.mp0 := rfl
@[simp] theorem watchdogClear_mp1 (s : State) : (watchdogClear s).mp1 = s.mp1 := rfl
@[simp] theorem watchdogClear_bp (s : State) : (watchdogClear s).bp = s.bp := rfl
@[simp] theorem watchdogClear_tblp (s : State) : (watchdogClear s).tblp = s.tblp := rfl
@[simp] theorem watchdogClear_tblh (s : State) : (watchdogClear s).tblh = s.tblh := rfl
@[simp] theorem watchdogClear_intc (s : State) : (watchdogClear s).intc = s.intc := rfl
@[simp] theorem watchdogClear_timer (s : State) : (watchdogClear s).timer = s.timer := rfl
@[simp] theorem watchdogClear_rtcc (s : State) : (watchdogClear s).rtcc = s.rtcc := rfl
@[simp] theorem watchdogClear_paLatch (s : State) : (watchdogClear s).paLatch = s.paLatch := rfl
@[simp] theorem watchdogClear_ram (s : State) : (watchdogClear s).ram = s.ram := rfl
@[simp] theorem watchdogClear_lcd (s : State) : (watchdogClear s).lcd = s.lcd := rfl
@[simp] theorem watchdogClear_wdt (s : State) : (watchdogClear s).wdt = { s.wdt with cnt := false } := rfl
@[simp] theorem watchdogClear_mft (s : State) : (watchdogClear s).mft = s.mft := rfl
@[simp] theorem watchdogClear_power (s : State) : (watchdogClear s).power = s.power := rfl
@[simp] theorem watchdogClear_rom (s : State) : (watchdogClear s).rom = s.rom := rfl
@[simp] theorem watchdogClear_opts (s : State) : (watchdogClear s).opts = s.opts := rfl
@[simp] theorem watchdogClear_pins (s : State) : (watchdogClear s).pins = s.pins := rfl
@[simp] theorem watchdogClear_inputs (s : State) : (watchdogClear s).inputs = s.inputs := rfl
@[simp] theorem watchdogClear_draws (s : State) : (watchdogClear s).draws = s.draws := rfl
@[simp] theorem watchdogClear_tmrBlocked (s : State) : (watchdogClear s).tmrBlocked = s.tmrBlocked := rfl
@[simp] theorem watchdogClear_unseen (s : State) : (watchdogClear s).unseen = s.unseen := rfl

/-! ### `clearWatchdogAndFlags`: an effective watchdog clear -/

@[simp] theorem clearWatchdogAndFlags_acc (s : State) : (clearWatchdogAndFlags s).acc = s.acc := rfl
@[simp] theorem clearWatchdogAndFlags_pc (s : State) : (clearWatchdogAndFlags s).pc = s.pc := rfl
@[simp] theorem clearWatchdogAndFlags_stk (s : State) : (clearWatchdogAndFlags s).stk = s.stk := rfl
@[simp] theorem clearWatchdogAndFlags_alu (s : State) : (clearWatchdogAndFlags s).alu = s.alu := rfl
@[simp] theorem clearWatchdogAndFlags_pdf (s : State) : (clearWatchdogAndFlags s).pdf = false := rfl
@[simp] theorem clearWatchdogAndFlags_timeOut (s : State) : (clearWatchdogAndFlags s).timeOut = false := rfl
@[simp] theorem clearWatchdogAndFlags_mp0 (s : State) : (clearWatchdogAndFlags s).mp0 = s.mp0 := rfl
@[simp] theorem clearWatchdogAndFlags_mp1 (s : State) : (clearWatchdogAndFlags s).mp1 = s.mp1 := rfl
@[simp] theorem clearWatchdogAndFlags_bp (s : State) : (clearWatchdogAndFlags s).bp = s.bp := rfl
@[simp] theorem clearWatchdogAndFlags_tblp (s : State) : (clearWatchdogAndFlags s).tblp = s.tblp := rfl
@[simp] theorem clearWatchdogAndFlags_tblh (s : State) : (clearWatchdogAndFlags s).tblh = s.tblh := rfl
@[simp] theorem clearWatchdogAndFlags_intc (s : State) : (clearWatchdogAndFlags s).intc = s.intc := rfl
@[simp] theorem clearWatchdogAndFlags_timer (s : State) : (clearWatchdogAndFlags s).timer = s.timer := rfl
@[simp] theorem clearWatchdogAndFlags_rtcc (s : State) : (clearWatchdogAndFlags s).rtcc = s.rtcc := rfl
@[simp] theorem clearWatchdogAndFlags_paLatch (s : State) : (clearWatchdogAndFlags s).paLatch = s.paLatch := rfl
@[simp] theorem clearWatchdogAndFlags_ram (s : State) : (clearWatchdogAndFlags s).ram = s.ram := rfl
@[simp] theorem clearWatchdogAndFlags_lcd (s : State) : (clearWatchdogAndFlags s).lcd = s.lcd := rfl
@[simp] theorem clearWatchdogAndFlags_wdt (s : State) : (clearWatchdogAndFlags s).wdt = { s.wdt with cnt := false } := rfl
@[simp] theorem clearWatchdogAndFlags_mft (s : State) : (clearWatchdogAndFlags s).mft = s.mft := rfl
@[simp] theorem clearWatchdogAndFlags_power (s : State) : (clearWatchdogAndFlags s).power = s.power := rfl
@[simp] theorem clearWatchdogAndFlags_rom (s : State) : (clearWatchdogAndFlags s).rom = s.rom := rfl
@[simp] theorem clearWatchdogAndFlags_opts (s : State) : (clearWatchdogAndFlags s).opts = s.opts := rfl
@[simp] theorem clearWatchdogAndFlags_pins (s : State) : (clearWatchdogAndFlags s).pins = s.pins := rfl
@[simp] theorem clearWatchdogAndFlags_inputs (s : State) : (clearWatchdogAndFlags s).inputs = s.inputs := rfl
@[simp] theorem clearWatchdogAndFlags_draws (s : State) : (clearWatchdogAndFlags s).draws = s.draws := rfl
@[simp] theorem clearWatchdogAndFlags_tmrBlocked (s : State) : (clearWatchdogAndFlags s).tmrBlocked = s.tmrBlocked := rfl
@[simp] theorem clearWatchdogAndFlags_unseen (s : State) : (clearWatchdogAndFlags s).unseen = s.unseen := rfl

/-! ### `wake`: waking -/

@[simp] theorem wake_acc (s : State) : (wake s).acc = s.acc := by unfold wake; split <;> rfl
@[simp] theorem wake_pc (s : State) : (wake s).pc = s.pc := by unfold wake; split <;> rfl
@[simp] theorem wake_stk (s : State) : (wake s).stk = s.stk := by unfold wake; split <;> rfl
@[simp] theorem wake_alu (s : State) : (wake s).alu = s.alu := by unfold wake; split <;> rfl
@[simp] theorem wake_pdf (s : State) : (wake s).pdf = s.pdf := by unfold wake; split <;> rfl
@[simp] theorem wake_timeOut (s : State) : (wake s).timeOut = s.timeOut := by unfold wake; split <;> rfl
@[simp] theorem wake_mp0 (s : State) : (wake s).mp0 = s.mp0 := by unfold wake; split <;> rfl
@[simp] theorem wake_mp1 (s : State) : (wake s).mp1 = s.mp1 := by unfold wake; split <;> rfl
@[simp] theorem wake_bp (s : State) : (wake s).bp = s.bp := by unfold wake; split <;> rfl
@[simp] theorem wake_tblp (s : State) : (wake s).tblp = s.tblp := by unfold wake; split <;> rfl
@[simp] theorem wake_tblh (s : State) : (wake s).tblh = s.tblh := by unfold wake; split <;> rfl
@[simp] theorem wake_intc (s : State) : (wake s).intc = s.intc := by unfold wake; split <;> rfl
@[simp] theorem wake_timer (s : State) : (wake s).timer = s.timer := by unfold wake; split <;> rfl
@[simp] theorem wake_rtcc (s : State) : (wake s).rtcc = s.rtcc := by unfold wake; split <;> rfl
@[simp] theorem wake_paLatch (s : State) : (wake s).paLatch = s.paLatch := by unfold wake; split <;> rfl
@[simp] theorem wake_ram (s : State) : (wake s).ram = s.ram := by unfold wake; split <;> rfl
@[simp] theorem wake_lcd (s : State) : (wake s).lcd = s.lcd := by unfold wake; split <;> rfl
@[simp] theorem wake_wdt (s : State) : (wake s).wdt = s.wdt := by unfold wake; split <;> rfl
@[simp] theorem wake_mft (s : State) : (wake s).mft = s.mft := by unfold wake; split <;> rfl
@[simp] theorem wake_rom (s : State) : (wake s).rom = s.rom := by unfold wake; split <;> rfl
@[simp] theorem wake_opts (s : State) : (wake s).opts = s.opts := by unfold wake; split <;> rfl
@[simp] theorem wake_pins (s : State) : (wake s).pins = s.pins := by unfold wake; split <;> rfl
@[simp] theorem wake_inputs (s : State) : (wake s).inputs = s.inputs := by unfold wake; split <;> rfl
@[simp] theorem wake_draws (s : State) : (wake s).draws = s.draws := by unfold wake; split <;> rfl
@[simp] theorem wake_tmrBlocked (s : State) : (wake s).tmrBlocked = s.tmrBlocked := by unfold wake; split <;> rfl
@[simp] theorem wake_unseen (s : State) : (wake s).unseen = s.unseen := by unfold wake; split <;> rfl

/-! ### `warmReset`: the warm reset -/

@[simp] theorem warmReset_acc (s : State) : (warmReset s).acc = s.acc := rfl
@[simp] theorem warmReset_pc (s : State) : (warmReset s).pc = 0x000 := rfl
@[simp] theorem warmReset_stk (s : State) : (warmReset s).stk = [] := rfl
@[simp] theorem warmReset_alu (s : State) : (warmReset s).alu = s.alu := rfl
@[simp] theorem warmReset_pdf (s : State) : (warmReset s).pdf = s.pdf := rfl
@[simp] theorem warmReset_timeOut (s : State) : (warmReset s).timeOut = true := rfl
@[simp] theorem warmReset_mp0 (s : State) : (warmReset s).mp0 = s.mp0 := rfl
@[simp] theorem warmReset_mp1 (s : State) : (warmReset s).mp1 = s.mp1 := rfl
@[simp] theorem warmReset_bp (s : State) : (warmReset s).bp = s.bp := rfl
@[simp] theorem warmReset_tblp (s : State) : (warmReset s).tblp = s.tblp := rfl
@[simp] theorem warmReset_tblh (s : State) : (warmReset s).tblh = s.tblh := rfl
@[simp] theorem warmReset_intc (s : State) : (warmReset s).intc = s.intc := rfl
@[simp] theorem warmReset_timer (s : State) : (warmReset s).timer = s.timer := rfl
@[simp] theorem warmReset_rtcc (s : State) : (warmReset s).rtcc = s.rtcc := rfl
@[simp] theorem warmReset_paLatch (s : State) : (warmReset s).paLatch = s.paLatch := rfl
@[simp] theorem warmReset_ram (s : State) : (warmReset s).ram = s.ram := rfl
@[simp] theorem warmReset_lcd (s : State) : (warmReset s).lcd = s.lcd := rfl
@[simp] theorem warmReset_wdt (s : State) : (warmReset s).wdt = s.wdt := rfl
@[simp] theorem warmReset_mft (s : State) : (warmReset s).mft = s.mft := rfl
@[simp] theorem warmReset_power (s : State) : (warmReset s).power = .waking startUpPeriods := rfl
@[simp] theorem warmReset_rom (s : State) : (warmReset s).rom = s.rom := rfl
@[simp] theorem warmReset_opts (s : State) : (warmReset s).opts = s.opts := rfl
@[simp] theorem warmReset_pins (s : State) : (warmReset s).pins = s.pins := rfl
@[simp] theorem warmReset_inputs (s : State) : (warmReset s).inputs = s.inputs := rfl
@[simp] theorem warmReset_draws (s : State) : (warmReset s).draws = s.draws := rfl
@[simp] theorem warmReset_tmrBlocked (s : State) : (warmReset s).tmrBlocked = s.tmrBlocked := rfl
@[simp] theorem warmReset_unseen (s : State) : (warmReset s).unseen = s.unseen := rfl

/-! ### `resetCommon`: the reset of every kind -/

@[simp] theorem resetCommon_acc (k : ResetKind) (s : State) : (resetCommon k s).acc = s.acc := rfl
@[simp] theorem resetCommon_pc (k : ResetKind) (s : State) : (resetCommon k s).pc = 0x000 := rfl
@[simp] theorem resetCommon_stk (k : ResetKind) (s : State) : (resetCommon k s).stk = [] := rfl
@[simp] theorem resetCommon_alu (k : ResetKind) (s : State) : (resetCommon k s).alu = s.alu := rfl
@[simp] theorem resetCommon_pdf (k : ResetKind) (s : State) : (resetCommon k s).pdf = pdfAfter k s.pdf := rfl
@[simp] theorem resetCommon_timeOut (k : ResetKind) (s : State) : (resetCommon k s).timeOut = timeOutAfter k s.timeOut := rfl
@[simp] theorem resetCommon_mp0 (k : ResetKind) (s : State) : (resetCommon k s).mp0 = s.mp0 := rfl
@[simp] theorem resetCommon_mp1 (k : ResetKind) (s : State) : (resetCommon k s).mp1 = s.mp1 := rfl
@[simp] theorem resetCommon_bp (k : ResetKind) (s : State) : (resetCommon k s).bp = false := rfl
@[simp] theorem resetCommon_tblp (k : ResetKind) (s : State) : (resetCommon k s).tblp = s.tblp := rfl
@[simp] theorem resetCommon_tblh (k : ResetKind) (s : State) : (resetCommon k s).tblh = s.tblh := rfl
@[simp] theorem resetCommon_intc (k : ResetKind) (s : State) : (resetCommon k s).intc = State.reset.intc := rfl
@[simp] theorem resetCommon_rtcc (k : ResetKind) (s : State) : (resetCommon k s).rtcc = State.reset.rtcc := rfl
@[simp] theorem resetCommon_paLatch (k : ResetKind) (s : State) : (resetCommon k s).paLatch = 0xFF := rfl
@[simp] theorem resetCommon_ram (k : ResetKind) (s : State) : (resetCommon k s).ram = s.ram := rfl
@[simp] theorem resetCommon_lcd (k : ResetKind) (s : State) : (resetCommon k s).lcd = s.lcd := rfl
@[simp] theorem resetCommon_wdt (k : ResetKind) (s : State) : (resetCommon k s).wdt = State.reset.wdt := rfl
@[simp] theorem resetCommon_mft (k : ResetKind) (s : State) : (resetCommon k s).mft = 0 := rfl
@[simp] theorem resetCommon_power (k : ResetKind) (s : State) : (resetCommon k s).power = .running := rfl
@[simp] theorem resetCommon_rom (k : ResetKind) (s : State) : (resetCommon k s).rom = s.rom := rfl
@[simp] theorem resetCommon_opts (k : ResetKind) (s : State) : (resetCommon k s).opts = s.opts := rfl
@[simp] theorem resetCommon_pins (k : ResetKind) (s : State) : (resetCommon k s).pins = s.pins := rfl
@[simp] theorem resetCommon_inputs (k : ResetKind) (s : State) : (resetCommon k s).inputs = s.inputs := rfl
@[simp] theorem resetCommon_draws (k : ResetKind) (s : State) : (resetCommon k s).draws = s.draws + 1 := rfl
@[simp] theorem resetCommon_tmrBlocked (k : ResetKind) (s : State) : (resetCommon k s).tmrBlocked = false := rfl
@[simp] theorem resetCommon_unseen (k : ResetKind) (s : State) : (resetCommon k s).unseen = Marks.clear := rfl

/-! ### The device frame: what a request or a tick of the timer leaves alone -/

/-- `t` is `s` but for the timer, the interrupt registers, the power state, the marks and the draws: all that a request, or a
tick at the timer, can change. -/
abbrev DeviceFrame (s t : State) : Prop :=
  { t with timer := s.timer, intc := s.intc, power := s.power, unseen := s.unseen, draws := s.draws } = s

theorem DeviceFrame.refl (s : State) : DeviceFrame s s := rfl

theorem DeviceFrame.trans {s t u : State} (h : DeviceFrame s t) (k : DeviceFrame t u) : DeviceFrame s u :=
  (congrArg (fun x : State => { x with timer := s.timer, intc := s.intc, power := s.power, unseen := s.unseen,
                                        draws := s.draws }) k).trans h

theorem DeviceFrame.acc {s t : State} (h : DeviceFrame s t) : t.acc = s.acc := (congrArg State.acc h :)
theorem DeviceFrame.pc {s t : State} (h : DeviceFrame s t) : t.pc = s.pc := (congrArg State.pc h :)
theorem DeviceFrame.stk {s t : State} (h : DeviceFrame s t) : t.stk = s.stk := (congrArg State.stk h :)
theorem DeviceFrame.alu {s t : State} (h : DeviceFrame s t) : t.alu = s.alu := (congrArg State.alu h :)
theorem DeviceFrame.pdf {s t : State} (h : DeviceFrame s t) : t.pdf = s.pdf := (congrArg State.pdf h :)
theorem DeviceFrame.timeOut {s t : State} (h : DeviceFrame s t) : t.timeOut = s.timeOut := (congrArg State.timeOut h :)
theorem DeviceFrame.mp0 {s t : State} (h : DeviceFrame s t) : t.mp0 = s.mp0 := (congrArg State.mp0 h :)
theorem DeviceFrame.mp1 {s t : State} (h : DeviceFrame s t) : t.mp1 = s.mp1 := (congrArg State.mp1 h :)
theorem DeviceFrame.bp {s t : State} (h : DeviceFrame s t) : t.bp = s.bp := (congrArg State.bp h :)
theorem DeviceFrame.tblp {s t : State} (h : DeviceFrame s t) : t.tblp = s.tblp := (congrArg State.tblp h :)
theorem DeviceFrame.tblh {s t : State} (h : DeviceFrame s t) : t.tblh = s.tblh := (congrArg State.tblh h :)
theorem DeviceFrame.rtcc {s t : State} (h : DeviceFrame s t) : t.rtcc = s.rtcc := (congrArg State.rtcc h :)
theorem DeviceFrame.paLatch {s t : State} (h : DeviceFrame s t) : t.paLatch = s.paLatch := (congrArg State.paLatch h :)
theorem DeviceFrame.ram {s t : State} (h : DeviceFrame s t) : t.ram = s.ram := (congrArg State.ram h :)
theorem DeviceFrame.lcd {s t : State} (h : DeviceFrame s t) : t.lcd = s.lcd := (congrArg State.lcd h :)
theorem DeviceFrame.wdt {s t : State} (h : DeviceFrame s t) : t.wdt = s.wdt := (congrArg State.wdt h :)
theorem DeviceFrame.mft {s t : State} (h : DeviceFrame s t) : t.mft = s.mft := (congrArg State.mft h :)
theorem DeviceFrame.rom {s t : State} (h : DeviceFrame s t) : t.rom = s.rom := (congrArg State.rom h :)
theorem DeviceFrame.opts {s t : State} (h : DeviceFrame s t) : t.opts = s.opts := (congrArg State.opts h :)
theorem DeviceFrame.pins {s t : State} (h : DeviceFrame s t) : t.pins = s.pins := (congrArg State.pins h :)
theorem DeviceFrame.inputs {s t : State} (h : DeviceFrame s t) : t.inputs = s.inputs := (congrArg State.inputs h :)
theorem DeviceFrame.tmrBlocked {s t : State} (h : DeviceFrame s t) : t.tmrBlocked = s.tmrBlocked := (congrArg State.tmrBlocked h :)

theorem raise_frame (src : Source) (s : State) : DeviceFrame s (raise src s) := by
  cases hr : requested s.intc src <;> rcases hp : s.power <;> simp [raise, wake, hr, hp]

@[simp] theorem raise_timer (src : Source) (s : State) : (raise src s).timer = s.timer := by
  cases hr : requested s.intc src <;> rcases hp : s.power <;> simp [raise, wake, hr, hp]

theorem timerOverflow_frame (s : State) : DeviceFrame s (timerOverflow s) :=
  DeviceFrame.trans (t := { s with timer := { s.timer with pfd := !s.timer.pfd } }) rfl (raise_frame _ _)

theorem timerCount_frame (s : State) : DeviceFrame s (timerCount s) := by
  unfold timerCount; split
  · exact DeviceFrame.trans (t := { s with timer := { s.timer with cnt := s.timer.pre } }) rfl (timerOverflow_frame _)
  · rfl

theorem timerNoise_frame (s : State) : DeviceFrame s (timerNoise s) := by
  unfold timerNoise; split
  · dsimp only; split
    · exact DeviceFrame.trans
        (t := { s with timer := { s.timer with cnt := Config.timerNoise s.draws }, draws := s.draws + 1 }) rfl
        (timerOverflow_frame _)
    · rfl
  · rfl

theorem timerTick_frame (s : State) : DeviceFrame s (timerTick s) := by
  unfold timerTick; split
  · rfl
  · split
    · exact timerNoise_frame s
    · split
      · dsimp only; split
        · rfl
        · exact DeviceFrame.trans (t := { s with draws := s.draws + 1 }) rfl (timerCount_frame _)
      · exact timerCount_frame s

theorem internalTick_frame (s : State) : DeviceFrame s (internalTick s) := by
  unfold internalTick; split
  · exact timerTick_frame s
  · split
    · exact timerTick_frame s
    · rfl

theorem systemTick_frame (s : State) : DeviceFrame s (systemTick s) := by
  unfold systemTick; split
  · exact internalTick_frame s
  · rfl

theorem timeBaseTap_frame (s : State) : DeviceFrame s (timeBaseTap s) := by
  unfold timeBaseTap; split
  · exact raise_frame _ s
  · rfl

theorem rtcTap_frame (s : State) : DeviceFrame s (rtcTap s) := by
  unfold rtcTap; split
  · dsimp only; split
    · exact raise_frame _ s
    · exact (raise_frame _ s).trans (internalTick_frame _)
  · rfl

@[simp] theorem raise_acc (src : Source) (s : State) : (raise src s).acc = s.acc := (congrArg State.acc (raise_frame src s) :)
@[simp] theorem raise_pc (src : Source) (s : State) : (raise src s).pc = s.pc := (congrArg State.pc (raise_frame src s) :)
@[simp] theorem raise_stk (src : Source) (s : State) : (raise src s).stk = s.stk := (congrArg State.stk (raise_frame src s) :)
@[simp] theorem raise_alu (src : Source) (s : State) : (raise src s).alu = s.alu := (congrArg State.alu (raise_frame src s) :)
@[simp] theorem raise_pdf (src : Source) (s : State) : (raise src s).pdf = s.pdf := (congrArg State.pdf (raise_frame src s) :)
@[simp] theorem raise_timeOut (src : Source) (s : State) : (raise src s).timeOut = s.timeOut := (congrArg State.timeOut (raise_frame src s) :)
@[simp] theorem raise_mp0 (src : Source) (s : State) : (raise src s).mp0 = s.mp0 := (congrArg State.mp0 (raise_frame src s) :)
@[simp] theorem raise_mp1 (src : Source) (s : State) : (raise src s).mp1 = s.mp1 := (congrArg State.mp1 (raise_frame src s) :)
@[simp] theorem raise_bp (src : Source) (s : State) : (raise src s).bp = s.bp := (congrArg State.bp (raise_frame src s) :)
@[simp] theorem raise_tblp (src : Source) (s : State) : (raise src s).tblp = s.tblp := (congrArg State.tblp (raise_frame src s) :)
@[simp] theorem raise_tblh (src : Source) (s : State) : (raise src s).tblh = s.tblh := (congrArg State.tblh (raise_frame src s) :)
@[simp] theorem raise_rtcc (src : Source) (s : State) : (raise src s).rtcc = s.rtcc := (congrArg State.rtcc (raise_frame src s) :)
@[simp] theorem raise_paLatch (src : Source) (s : State) : (raise src s).paLatch = s.paLatch := (congrArg State.paLatch (raise_frame src s) :)
@[simp] theorem raise_ram (src : Source) (s : State) : (raise src s).ram = s.ram := (congrArg State.ram (raise_frame src s) :)
@[simp] theorem raise_lcd (src : Source) (s : State) : (raise src s).lcd = s.lcd := (congrArg State.lcd (raise_frame src s) :)
@[simp] theorem raise_wdt (src : Source) (s : State) : (raise src s).wdt = s.wdt := (congrArg State.wdt (raise_frame src s) :)
@[simp] theorem raise_mft (src : Source) (s : State) : (raise src s).mft = s.mft := (congrArg State.mft (raise_frame src s) :)
@[simp] theorem raise_rom (src : Source) (s : State) : (raise src s).rom = s.rom := (congrArg State.rom (raise_frame src s) :)
@[simp] theorem raise_opts (src : Source) (s : State) : (raise src s).opts = s.opts := (congrArg State.opts (raise_frame src s) :)
@[simp] theorem raise_pins (src : Source) (s : State) : (raise src s).pins = s.pins := (congrArg State.pins (raise_frame src s) :)
@[simp] theorem raise_inputs (src : Source) (s : State) : (raise src s).inputs = s.inputs := (congrArg State.inputs (raise_frame src s) :)
@[simp] theorem raise_tmrBlocked (src : Source) (s : State) : (raise src s).tmrBlocked = s.tmrBlocked := (congrArg State.tmrBlocked (raise_frame src s) :)

@[simp] theorem timerOverflow_acc (s : State) : (timerOverflow s).acc = s.acc := (congrArg State.acc (timerOverflow_frame s) :)
@[simp] theorem timerOverflow_pc (s : State) : (timerOverflow s).pc = s.pc := (congrArg State.pc (timerOverflow_frame s) :)
@[simp] theorem timerOverflow_stk (s : State) : (timerOverflow s).stk = s.stk := (congrArg State.stk (timerOverflow_frame s) :)
@[simp] theorem timerOverflow_alu (s : State) : (timerOverflow s).alu = s.alu := (congrArg State.alu (timerOverflow_frame s) :)
@[simp] theorem timerOverflow_pdf (s : State) : (timerOverflow s).pdf = s.pdf := (congrArg State.pdf (timerOverflow_frame s) :)
@[simp] theorem timerOverflow_timeOut (s : State) : (timerOverflow s).timeOut = s.timeOut := (congrArg State.timeOut (timerOverflow_frame s) :)
@[simp] theorem timerOverflow_mp0 (s : State) : (timerOverflow s).mp0 = s.mp0 := (congrArg State.mp0 (timerOverflow_frame s) :)
@[simp] theorem timerOverflow_mp1 (s : State) : (timerOverflow s).mp1 = s.mp1 := (congrArg State.mp1 (timerOverflow_frame s) :)
@[simp] theorem timerOverflow_bp (s : State) : (timerOverflow s).bp = s.bp := (congrArg State.bp (timerOverflow_frame s) :)
@[simp] theorem timerOverflow_tblp (s : State) : (timerOverflow s).tblp = s.tblp := (congrArg State.tblp (timerOverflow_frame s) :)
@[simp] theorem timerOverflow_tblh (s : State) : (timerOverflow s).tblh = s.tblh := (congrArg State.tblh (timerOverflow_frame s) :)
@[simp] theorem timerOverflow_rtcc (s : State) : (timerOverflow s).rtcc = s.rtcc := (congrArg State.rtcc (timerOverflow_frame s) :)
@[simp] theorem timerOverflow_paLatch (s : State) : (timerOverflow s).paLatch = s.paLatch := (congrArg State.paLatch (timerOverflow_frame s) :)
@[simp] theorem timerOverflow_ram (s : State) : (timerOverflow s).ram = s.ram := (congrArg State.ram (timerOverflow_frame s) :)
@[simp] theorem timerOverflow_lcd (s : State) : (timerOverflow s).lcd = s.lcd := (congrArg State.lcd (timerOverflow_frame s) :)
@[simp] theorem timerOverflow_wdt (s : State) : (timerOverflow s).wdt = s.wdt := (congrArg State.wdt (timerOverflow_frame s) :)
@[simp] theorem timerOverflow_mft (s : State) : (timerOverflow s).mft = s.mft := (congrArg State.mft (timerOverflow_frame s) :)
@[simp] theorem timerOverflow_rom (s : State) : (timerOverflow s).rom = s.rom := (congrArg State.rom (timerOverflow_frame s) :)
@[simp] theorem timerOverflow_opts (s : State) : (timerOverflow s).opts = s.opts := (congrArg State.opts (timerOverflow_frame s) :)
@[simp] theorem timerOverflow_pins (s : State) : (timerOverflow s).pins = s.pins := (congrArg State.pins (timerOverflow_frame s) :)
@[simp] theorem timerOverflow_inputs (s : State) : (timerOverflow s).inputs = s.inputs := (congrArg State.inputs (timerOverflow_frame s) :)
@[simp] theorem timerOverflow_tmrBlocked (s : State) : (timerOverflow s).tmrBlocked = s.tmrBlocked := (congrArg State.tmrBlocked (timerOverflow_frame s) :)

@[simp] theorem timerCount_acc (s : State) : (timerCount s).acc = s.acc := (congrArg State.acc (timerCount_frame s) :)
@[simp] theorem timerCount_pc (s : State) : (timerCount s).pc = s.pc := (congrArg State.pc (timerCount_frame s) :)
@[simp] theorem timerCount_stk (s : State) : (timerCount s).stk = s.stk := (congrArg State.stk (timerCount_frame s) :)
@[simp] theorem timerCount_alu (s : State) : (timerCount s).alu = s.alu := (congrArg State.alu (timerCount_frame s) :)
@[simp] theorem timerCount_pdf (s : State) : (timerCount s).pdf = s.pdf := (congrArg State.pdf (timerCount_frame s) :)
@[simp] theorem timerCount_timeOut (s : State) : (timerCount s).timeOut = s.timeOut := (congrArg State.timeOut (timerCount_frame s) :)
@[simp] theorem timerCount_mp0 (s : State) : (timerCount s).mp0 = s.mp0 := (congrArg State.mp0 (timerCount_frame s) :)
@[simp] theorem timerCount_mp1 (s : State) : (timerCount s).mp1 = s.mp1 := (congrArg State.mp1 (timerCount_frame s) :)
@[simp] theorem timerCount_bp (s : State) : (timerCount s).bp = s.bp := (congrArg State.bp (timerCount_frame s) :)
@[simp] theorem timerCount_tblp (s : State) : (timerCount s).tblp = s.tblp := (congrArg State.tblp (timerCount_frame s) :)
@[simp] theorem timerCount_tblh (s : State) : (timerCount s).tblh = s.tblh := (congrArg State.tblh (timerCount_frame s) :)
@[simp] theorem timerCount_rtcc (s : State) : (timerCount s).rtcc = s.rtcc := (congrArg State.rtcc (timerCount_frame s) :)
@[simp] theorem timerCount_paLatch (s : State) : (timerCount s).paLatch = s.paLatch := (congrArg State.paLatch (timerCount_frame s) :)
@[simp] theorem timerCount_ram (s : State) : (timerCount s).ram = s.ram := (congrArg State.ram (timerCount_frame s) :)
@[simp] theorem timerCount_lcd (s : State) : (timerCount s).lcd = s.lcd := (congrArg State.lcd (timerCount_frame s) :)
@[simp] theorem timerCount_wdt (s : State) : (timerCount s).wdt = s.wdt := (congrArg State.wdt (timerCount_frame s) :)
@[simp] theorem timerCount_mft (s : State) : (timerCount s).mft = s.mft := (congrArg State.mft (timerCount_frame s) :)
@[simp] theorem timerCount_rom (s : State) : (timerCount s).rom = s.rom := (congrArg State.rom (timerCount_frame s) :)
@[simp] theorem timerCount_opts (s : State) : (timerCount s).opts = s.opts := (congrArg State.opts (timerCount_frame s) :)
@[simp] theorem timerCount_pins (s : State) : (timerCount s).pins = s.pins := (congrArg State.pins (timerCount_frame s) :)
@[simp] theorem timerCount_inputs (s : State) : (timerCount s).inputs = s.inputs := (congrArg State.inputs (timerCount_frame s) :)
@[simp] theorem timerCount_tmrBlocked (s : State) : (timerCount s).tmrBlocked = s.tmrBlocked := (congrArg State.tmrBlocked (timerCount_frame s) :)

@[simp] theorem timerNoise_acc (s : State) : (timerNoise s).acc = s.acc := (congrArg State.acc (timerNoise_frame s) :)
@[simp] theorem timerNoise_pc (s : State) : (timerNoise s).pc = s.pc := (congrArg State.pc (timerNoise_frame s) :)
@[simp] theorem timerNoise_stk (s : State) : (timerNoise s).stk = s.stk := (congrArg State.stk (timerNoise_frame s) :)
@[simp] theorem timerNoise_alu (s : State) : (timerNoise s).alu = s.alu := (congrArg State.alu (timerNoise_frame s) :)
@[simp] theorem timerNoise_pdf (s : State) : (timerNoise s).pdf = s.pdf := (congrArg State.pdf (timerNoise_frame s) :)
@[simp] theorem timerNoise_timeOut (s : State) : (timerNoise s).timeOut = s.timeOut := (congrArg State.timeOut (timerNoise_frame s) :)
@[simp] theorem timerNoise_mp0 (s : State) : (timerNoise s).mp0 = s.mp0 := (congrArg State.mp0 (timerNoise_frame s) :)
@[simp] theorem timerNoise_mp1 (s : State) : (timerNoise s).mp1 = s.mp1 := (congrArg State.mp1 (timerNoise_frame s) :)
@[simp] theorem timerNoise_bp (s : State) : (timerNoise s).bp = s.bp := (congrArg State.bp (timerNoise_frame s) :)
@[simp] theorem timerNoise_tblp (s : State) : (timerNoise s).tblp = s.tblp := (congrArg State.tblp (timerNoise_frame s) :)
@[simp] theorem timerNoise_tblh (s : State) : (timerNoise s).tblh = s.tblh := (congrArg State.tblh (timerNoise_frame s) :)
@[simp] theorem timerNoise_rtcc (s : State) : (timerNoise s).rtcc = s.rtcc := (congrArg State.rtcc (timerNoise_frame s) :)
@[simp] theorem timerNoise_paLatch (s : State) : (timerNoise s).paLatch = s.paLatch := (congrArg State.paLatch (timerNoise_frame s) :)
@[simp] theorem timerNoise_ram (s : State) : (timerNoise s).ram = s.ram := (congrArg State.ram (timerNoise_frame s) :)
@[simp] theorem timerNoise_lcd (s : State) : (timerNoise s).lcd = s.lcd := (congrArg State.lcd (timerNoise_frame s) :)
@[simp] theorem timerNoise_wdt (s : State) : (timerNoise s).wdt = s.wdt := (congrArg State.wdt (timerNoise_frame s) :)
@[simp] theorem timerNoise_mft (s : State) : (timerNoise s).mft = s.mft := (congrArg State.mft (timerNoise_frame s) :)
@[simp] theorem timerNoise_rom (s : State) : (timerNoise s).rom = s.rom := (congrArg State.rom (timerNoise_frame s) :)
@[simp] theorem timerNoise_opts (s : State) : (timerNoise s).opts = s.opts := (congrArg State.opts (timerNoise_frame s) :)
@[simp] theorem timerNoise_pins (s : State) : (timerNoise s).pins = s.pins := (congrArg State.pins (timerNoise_frame s) :)
@[simp] theorem timerNoise_inputs (s : State) : (timerNoise s).inputs = s.inputs := (congrArg State.inputs (timerNoise_frame s) :)
@[simp] theorem timerNoise_tmrBlocked (s : State) : (timerNoise s).tmrBlocked = s.tmrBlocked := (congrArg State.tmrBlocked (timerNoise_frame s) :)

@[simp] theorem timerTick_acc (s : State) : (timerTick s).acc = s.acc := (congrArg State.acc (timerTick_frame s) :)
@[simp] theorem timerTick_pc (s : State) : (timerTick s).pc = s.pc := (congrArg State.pc (timerTick_frame s) :)
@[simp] theorem timerTick_stk (s : State) : (timerTick s).stk = s.stk := (congrArg State.stk (timerTick_frame s) :)
@[simp] theorem timerTick_alu (s : State) : (timerTick s).alu = s.alu := (congrArg State.alu (timerTick_frame s) :)
@[simp] theorem timerTick_pdf (s : State) : (timerTick s).pdf = s.pdf := (congrArg State.pdf (timerTick_frame s) :)
@[simp] theorem timerTick_timeOut (s : State) : (timerTick s).timeOut = s.timeOut := (congrArg State.timeOut (timerTick_frame s) :)
@[simp] theorem timerTick_mp0 (s : State) : (timerTick s).mp0 = s.mp0 := (congrArg State.mp0 (timerTick_frame s) :)
@[simp] theorem timerTick_mp1 (s : State) : (timerTick s).mp1 = s.mp1 := (congrArg State.mp1 (timerTick_frame s) :)
@[simp] theorem timerTick_bp (s : State) : (timerTick s).bp = s.bp := (congrArg State.bp (timerTick_frame s) :)
@[simp] theorem timerTick_tblp (s : State) : (timerTick s).tblp = s.tblp := (congrArg State.tblp (timerTick_frame s) :)
@[simp] theorem timerTick_tblh (s : State) : (timerTick s).tblh = s.tblh := (congrArg State.tblh (timerTick_frame s) :)
@[simp] theorem timerTick_rtcc (s : State) : (timerTick s).rtcc = s.rtcc := (congrArg State.rtcc (timerTick_frame s) :)
@[simp] theorem timerTick_paLatch (s : State) : (timerTick s).paLatch = s.paLatch := (congrArg State.paLatch (timerTick_frame s) :)
@[simp] theorem timerTick_ram (s : State) : (timerTick s).ram = s.ram := (congrArg State.ram (timerTick_frame s) :)
@[simp] theorem timerTick_lcd (s : State) : (timerTick s).lcd = s.lcd := (congrArg State.lcd (timerTick_frame s) :)
@[simp] theorem timerTick_wdt (s : State) : (timerTick s).wdt = s.wdt := (congrArg State.wdt (timerTick_frame s) :)
@[simp] theorem timerTick_mft (s : State) : (timerTick s).mft = s.mft := (congrArg State.mft (timerTick_frame s) :)
@[simp] theorem timerTick_rom (s : State) : (timerTick s).rom = s.rom := (congrArg State.rom (timerTick_frame s) :)
@[simp] theorem timerTick_opts (s : State) : (timerTick s).opts = s.opts := (congrArg State.opts (timerTick_frame s) :)
@[simp] theorem timerTick_pins (s : State) : (timerTick s).pins = s.pins := (congrArg State.pins (timerTick_frame s) :)
@[simp] theorem timerTick_inputs (s : State) : (timerTick s).inputs = s.inputs := (congrArg State.inputs (timerTick_frame s) :)
@[simp] theorem timerTick_tmrBlocked (s : State) : (timerTick s).tmrBlocked = s.tmrBlocked := (congrArg State.tmrBlocked (timerTick_frame s) :)

@[simp] theorem internalTick_acc (s : State) : (internalTick s).acc = s.acc := (congrArg State.acc (internalTick_frame s) :)
@[simp] theorem internalTick_pc (s : State) : (internalTick s).pc = s.pc := (congrArg State.pc (internalTick_frame s) :)
@[simp] theorem internalTick_stk (s : State) : (internalTick s).stk = s.stk := (congrArg State.stk (internalTick_frame s) :)
@[simp] theorem internalTick_alu (s : State) : (internalTick s).alu = s.alu := (congrArg State.alu (internalTick_frame s) :)
@[simp] theorem internalTick_pdf (s : State) : (internalTick s).pdf = s.pdf := (congrArg State.pdf (internalTick_frame s) :)
@[simp] theorem internalTick_timeOut (s : State) : (internalTick s).timeOut = s.timeOut := (congrArg State.timeOut (internalTick_frame s) :)
@[simp] theorem internalTick_mp0 (s : State) : (internalTick s).mp0 = s.mp0 := (congrArg State.mp0 (internalTick_frame s) :)
@[simp] theorem internalTick_mp1 (s : State) : (internalTick s).mp1 = s.mp1 := (congrArg State.mp1 (internalTick_frame s) :)
@[simp] theorem internalTick_bp (s : State) : (internalTick s).bp = s.bp := (congrArg State.bp (internalTick_frame s) :)
@[simp] theorem internalTick_tblp (s : State) : (internalTick s).tblp = s.tblp := (congrArg State.tblp (internalTick_frame s) :)
@[simp] theorem internalTick_tblh (s : State) : (internalTick s).tblh = s.tblh := (congrArg State.tblh (internalTick_frame s) :)
@[simp] theorem internalTick_rtcc (s : State) : (internalTick s).rtcc = s.rtcc := (congrArg State.rtcc (internalTick_frame s) :)
@[simp] theorem internalTick_paLatch (s : State) : (internalTick s).paLatch = s.paLatch := (congrArg State.paLatch (internalTick_frame s) :)
@[simp] theorem internalTick_ram (s : State) : (internalTick s).ram = s.ram := (congrArg State.ram (internalTick_frame s) :)
@[simp] theorem internalTick_lcd (s : State) : (internalTick s).lcd = s.lcd := (congrArg State.lcd (internalTick_frame s) :)
@[simp] theorem internalTick_wdt (s : State) : (internalTick s).wdt = s.wdt := (congrArg State.wdt (internalTick_frame s) :)
@[simp] theorem internalTick_mft (s : State) : (internalTick s).mft = s.mft := (congrArg State.mft (internalTick_frame s) :)
@[simp] theorem internalTick_rom (s : State) : (internalTick s).rom = s.rom := (congrArg State.rom (internalTick_frame s) :)
@[simp] theorem internalTick_opts (s : State) : (internalTick s).opts = s.opts := (congrArg State.opts (internalTick_frame s) :)
@[simp] theorem internalTick_pins (s : State) : (internalTick s).pins = s.pins := (congrArg State.pins (internalTick_frame s) :)
@[simp] theorem internalTick_inputs (s : State) : (internalTick s).inputs = s.inputs := (congrArg State.inputs (internalTick_frame s) :)
@[simp] theorem internalTick_tmrBlocked (s : State) : (internalTick s).tmrBlocked = s.tmrBlocked := (congrArg State.tmrBlocked (internalTick_frame s) :)

@[simp] theorem systemTick_acc (s : State) : (systemTick s).acc = s.acc := (congrArg State.acc (systemTick_frame s) :)
@[simp] theorem systemTick_pc (s : State) : (systemTick s).pc = s.pc := (congrArg State.pc (systemTick_frame s) :)
@[simp] theorem systemTick_stk (s : State) : (systemTick s).stk = s.stk := (congrArg State.stk (systemTick_frame s) :)
@[simp] theorem systemTick_alu (s : State) : (systemTick s).alu = s.alu := (congrArg State.alu (systemTick_frame s) :)
@[simp] theorem systemTick_pdf (s : State) : (systemTick s).pdf = s.pdf := (congrArg State.pdf (systemTick_frame s) :)
@[simp] theorem systemTick_timeOut (s : State) : (systemTick s).timeOut = s.timeOut := (congrArg State.timeOut (systemTick_frame s) :)
@[simp] theorem systemTick_mp0 (s : State) : (systemTick s).mp0 = s.mp0 := (congrArg State.mp0 (systemTick_frame s) :)
@[simp] theorem systemTick_mp1 (s : State) : (systemTick s).mp1 = s.mp1 := (congrArg State.mp1 (systemTick_frame s) :)
@[simp] theorem systemTick_bp (s : State) : (systemTick s).bp = s.bp := (congrArg State.bp (systemTick_frame s) :)
@[simp] theorem systemTick_tblp (s : State) : (systemTick s).tblp = s.tblp := (congrArg State.tblp (systemTick_frame s) :)
@[simp] theorem systemTick_tblh (s : State) : (systemTick s).tblh = s.tblh := (congrArg State.tblh (systemTick_frame s) :)
@[simp] theorem systemTick_rtcc (s : State) : (systemTick s).rtcc = s.rtcc := (congrArg State.rtcc (systemTick_frame s) :)
@[simp] theorem systemTick_paLatch (s : State) : (systemTick s).paLatch = s.paLatch := (congrArg State.paLatch (systemTick_frame s) :)
@[simp] theorem systemTick_ram (s : State) : (systemTick s).ram = s.ram := (congrArg State.ram (systemTick_frame s) :)
@[simp] theorem systemTick_lcd (s : State) : (systemTick s).lcd = s.lcd := (congrArg State.lcd (systemTick_frame s) :)
@[simp] theorem systemTick_wdt (s : State) : (systemTick s).wdt = s.wdt := (congrArg State.wdt (systemTick_frame s) :)
@[simp] theorem systemTick_mft (s : State) : (systemTick s).mft = s.mft := (congrArg State.mft (systemTick_frame s) :)
@[simp] theorem systemTick_rom (s : State) : (systemTick s).rom = s.rom := (congrArg State.rom (systemTick_frame s) :)
@[simp] theorem systemTick_opts (s : State) : (systemTick s).opts = s.opts := (congrArg State.opts (systemTick_frame s) :)
@[simp] theorem systemTick_pins (s : State) : (systemTick s).pins = s.pins := (congrArg State.pins (systemTick_frame s) :)
@[simp] theorem systemTick_inputs (s : State) : (systemTick s).inputs = s.inputs := (congrArg State.inputs (systemTick_frame s) :)
@[simp] theorem systemTick_tmrBlocked (s : State) : (systemTick s).tmrBlocked = s.tmrBlocked := (congrArg State.tmrBlocked (systemTick_frame s) :)

@[simp] theorem timeBaseTap_acc (s : State) : (timeBaseTap s).acc = s.acc := (congrArg State.acc (timeBaseTap_frame s) :)
@[simp] theorem timeBaseTap_pc (s : State) : (timeBaseTap s).pc = s.pc := (congrArg State.pc (timeBaseTap_frame s) :)
@[simp] theorem timeBaseTap_stk (s : State) : (timeBaseTap s).stk = s.stk := (congrArg State.stk (timeBaseTap_frame s) :)
@[simp] theorem timeBaseTap_alu (s : State) : (timeBaseTap s).alu = s.alu := (congrArg State.alu (timeBaseTap_frame s) :)
@[simp] theorem timeBaseTap_pdf (s : State) : (timeBaseTap s).pdf = s.pdf := (congrArg State.pdf (timeBaseTap_frame s) :)
@[simp] theorem timeBaseTap_timeOut (s : State) : (timeBaseTap s).timeOut = s.timeOut := (congrArg State.timeOut (timeBaseTap_frame s) :)
@[simp] theorem timeBaseTap_mp0 (s : State) : (timeBaseTap s).mp0 = s.mp0 := (congrArg State.mp0 (timeBaseTap_frame s) :)
@[simp] theorem timeBaseTap_mp1 (s : State) : (timeBaseTap s).mp1 = s.mp1 := (congrArg State.mp1 (timeBaseTap_frame s) :)
@[simp] theorem timeBaseTap_bp (s : State) : (timeBaseTap s).bp = s.bp := (congrArg State.bp (timeBaseTap_frame s) :)
@[simp] theorem timeBaseTap_tblp (s : State) : (timeBaseTap s).tblp = s.tblp := (congrArg State.tblp (timeBaseTap_frame s) :)
@[simp] theorem timeBaseTap_tblh (s : State) : (timeBaseTap s).tblh = s.tblh := (congrArg State.tblh (timeBaseTap_frame s) :)
@[simp] theorem timeBaseTap_rtcc (s : State) : (timeBaseTap s).rtcc = s.rtcc := (congrArg State.rtcc (timeBaseTap_frame s) :)
@[simp] theorem timeBaseTap_paLatch (s : State) : (timeBaseTap s).paLatch = s.paLatch := (congrArg State.paLatch (timeBaseTap_frame s) :)
@[simp] theorem timeBaseTap_ram (s : State) : (timeBaseTap s).ram = s.ram := (congrArg State.ram (timeBaseTap_frame s) :)
@[simp] theorem timeBaseTap_lcd (s : State) : (timeBaseTap s).lcd = s.lcd := (congrArg State.lcd (timeBaseTap_frame s) :)
@[simp] theorem timeBaseTap_wdt (s : State) : (timeBaseTap s).wdt = s.wdt := (congrArg State.wdt (timeBaseTap_frame s) :)
@[simp] theorem timeBaseTap_mft (s : State) : (timeBaseTap s).mft = s.mft := (congrArg State.mft (timeBaseTap_frame s) :)
@[simp] theorem timeBaseTap_rom (s : State) : (timeBaseTap s).rom = s.rom := (congrArg State.rom (timeBaseTap_frame s) :)
@[simp] theorem timeBaseTap_opts (s : State) : (timeBaseTap s).opts = s.opts := (congrArg State.opts (timeBaseTap_frame s) :)
@[simp] theorem timeBaseTap_pins (s : State) : (timeBaseTap s).pins = s.pins := (congrArg State.pins (timeBaseTap_frame s) :)
@[simp] theorem timeBaseTap_inputs (s : State) : (timeBaseTap s).inputs = s.inputs := (congrArg State.inputs (timeBaseTap_frame s) :)
@[simp] theorem timeBaseTap_tmrBlocked (s : State) : (timeBaseTap s).tmrBlocked = s.tmrBlocked := (congrArg State.tmrBlocked (timeBaseTap_frame s) :)

@[simp] theorem rtcTap_acc (s : State) : (rtcTap s).acc = s.acc := (congrArg State.acc (rtcTap_frame s) :)
@[simp] theorem rtcTap_pc (s : State) : (rtcTap s).pc = s.pc := (congrArg State.pc (rtcTap_frame s) :)
@[simp] theorem rtcTap_stk (s : State) : (rtcTap s).stk = s.stk := (congrArg State.stk (rtcTap_frame s) :)
@[simp] theorem rtcTap_alu (s : State) : (rtcTap s).alu = s.alu := (congrArg State.alu (rtcTap_frame s) :)
@[simp] theorem rtcTap_pdf (s : State) : (rtcTap s).pdf = s.pdf := (congrArg State.pdf (rtcTap_frame s) :)
@[simp] theorem rtcTap_timeOut (s : State) : (rtcTap s).timeOut = s.timeOut := (congrArg State.timeOut (rtcTap_frame s) :)
@[simp] theorem rtcTap_mp0 (s : State) : (rtcTap s).mp0 = s.mp0 := (congrArg State.mp0 (rtcTap_frame s) :)
@[simp] theorem rtcTap_mp1 (s : State) : (rtcTap s).mp1 = s.mp1 := (congrArg State.mp1 (rtcTap_frame s) :)
@[simp] theorem rtcTap_bp (s : State) : (rtcTap s).bp = s.bp := (congrArg State.bp (rtcTap_frame s) :)
@[simp] theorem rtcTap_tblp (s : State) : (rtcTap s).tblp = s.tblp := (congrArg State.tblp (rtcTap_frame s) :)
@[simp] theorem rtcTap_tblh (s : State) : (rtcTap s).tblh = s.tblh := (congrArg State.tblh (rtcTap_frame s) :)
@[simp] theorem rtcTap_rtcc (s : State) : (rtcTap s).rtcc = s.rtcc := (congrArg State.rtcc (rtcTap_frame s) :)
@[simp] theorem rtcTap_paLatch (s : State) : (rtcTap s).paLatch = s.paLatch := (congrArg State.paLatch (rtcTap_frame s) :)
@[simp] theorem rtcTap_ram (s : State) : (rtcTap s).ram = s.ram := (congrArg State.ram (rtcTap_frame s) :)
@[simp] theorem rtcTap_lcd (s : State) : (rtcTap s).lcd = s.lcd := (congrArg State.lcd (rtcTap_frame s) :)
@[simp] theorem rtcTap_wdt (s : State) : (rtcTap s).wdt = s.wdt := (congrArg State.wdt (rtcTap_frame s) :)
@[simp] theorem rtcTap_mft (s : State) : (rtcTap s).mft = s.mft := (congrArg State.mft (rtcTap_frame s) :)
@[simp] theorem rtcTap_rom (s : State) : (rtcTap s).rom = s.rom := (congrArg State.rom (rtcTap_frame s) :)
@[simp] theorem rtcTap_opts (s : State) : (rtcTap s).opts = s.opts := (congrArg State.opts (rtcTap_frame s) :)
@[simp] theorem rtcTap_pins (s : State) : (rtcTap s).pins = s.pins := (congrArg State.pins (rtcTap_frame s) :)
@[simp] theorem rtcTap_inputs (s : State) : (rtcTap s).inputs = s.inputs := (congrArg State.inputs (rtcTap_frame s) :)
@[simp] theorem rtcTap_tmrBlocked (s : State) : (rtcTap s).tmrBlocked = s.tmrBlocked := (congrArg State.tmrBlocked (rtcTap_frame s) :)

/-! ### What no tick and no reset changes -/

@[simp] theorem chipReset_rom (k : ResetKind) (s : State) : (chipReset k s).rom = s.rom := by
  cases k <;> rcases h : s.opts.ramAfterReset <;> simp [chipReset, forgetMemories, forgetRegisters, h]
@[simp] theorem watchdogTimeOut_rom (s : State) : (watchdogTimeOut s).rom = s.rom := by
  unfold watchdogTimeOut; split <;> simp
@[simp] theorem watchdogTap_rom (s : State) : (watchdogTap s).rom = s.rom := by
  unfold watchdogTap; split
  · split <;> simp
  · rfl
@[simp] theorem fsTick_rom (s : State) : (fsTick s).rom = s.rom := by simp [fsTick]
@[simp] theorem applyTick_rom (t : Tick) (s : State) : (applyTick t s).rom = s.rom := by
  cases t <;> simp [applyTick]
@[simp] theorem runDue_rom (due : List Tick) (s : State) : (runDue due s).rom = s.rom := by
  induction due generalizing s with
  | nil => rfl
  | cons t rest ih => unfold runDue; split <;> simp [ih]

@[simp] theorem chipReset_opts (k : ResetKind) (s : State) : (chipReset k s).opts = s.opts := by
  cases k <;> rcases h : s.opts.ramAfterReset <;> simp [chipReset, forgetMemories, forgetRegisters, h]
@[simp] theorem watchdogTimeOut_opts (s : State) : (watchdogTimeOut s).opts = s.opts := by
  unfold watchdogTimeOut; split <;> simp
@[simp] theorem watchdogTap_opts (s : State) : (watchdogTap s).opts = s.opts := by
  unfold watchdogTap; split
  · split <;> simp
  · rfl
@[simp] theorem fsTick_opts (s : State) : (fsTick s).opts = s.opts := by simp [fsTick]
@[simp] theorem applyTick_opts (t : Tick) (s : State) : (applyTick t s).opts = s.opts := by
  cases t <;> simp [applyTick]
@[simp] theorem runDue_opts (due : List Tick) (s : State) : (runDue due s).opts = s.opts := by
  induction due generalizing s with
  | nil => rfl
  | cons t rest ih => unfold runDue; split <;> simp [ih]

@[simp] theorem chipReset_pins (k : ResetKind) (s : State) : (chipReset k s).pins = s.pins := by
  cases k <;> rcases h : s.opts.ramAfterReset <;> simp [chipReset, forgetMemories, forgetRegisters, h]
@[simp] theorem watchdogTimeOut_pins (s : State) : (watchdogTimeOut s).pins = s.pins := by
  unfold watchdogTimeOut; split <;> simp
@[simp] theorem watchdogTap_pins (s : State) : (watchdogTap s).pins = s.pins := by
  unfold watchdogTap; split
  · split <;> simp
  · rfl
@[simp] theorem fsTick_pins (s : State) : (fsTick s).pins = s.pins := by simp [fsTick]
@[simp] theorem applyTick_pins (t : Tick) (s : State) : (applyTick t s).pins = s.pins := by
  cases t <;> simp [applyTick]
@[simp] theorem runDue_pins (due : List Tick) (s : State) : (runDue due s).pins = s.pins := by
  induction due generalizing s with
  | nil => rfl
  | cons t rest ih => unfold runDue; split <;> simp [ih]

@[simp] theorem chipReset_inputs (k : ResetKind) (s : State) : (chipReset k s).inputs = s.inputs := by
  cases k <;> rcases h : s.opts.ramAfterReset <;> simp [chipReset, forgetMemories, forgetRegisters, h]
@[simp] theorem watchdogTimeOut_inputs (s : State) : (watchdogTimeOut s).inputs = s.inputs := by
  unfold watchdogTimeOut; split <;> simp
@[simp] theorem watchdogTap_inputs (s : State) : (watchdogTap s).inputs = s.inputs := by
  unfold watchdogTap; split
  · split <;> simp
  · rfl
@[simp] theorem fsTick_inputs (s : State) : (fsTick s).inputs = s.inputs := by simp [fsTick]
@[simp] theorem applyTick_inputs (t : Tick) (s : State) : (applyTick t s).inputs = s.inputs := by
  cases t <;> simp [applyTick]
@[simp] theorem runDue_inputs (due : List Tick) (s : State) : (runDue due s).inputs = s.inputs := by
  induction due generalizing s with
  | nil => rfl
  | cons t rest ih => unfold runDue; split <;> simp [ih]

/-! ### What no event changes -/

@[simp] theorem applyEvent_rom (s : State) (e : Event) : (applyEvent s e).rom = s.rom := by
  cases e <;> simp only [applyEvent, portAEvent, intPinEvent, tmrPinEvent, resetPinEvent, lowVoltageEvent, tmrEdge,
    startEdge, stopEdge] <;> (repeat' split) <;> simp

@[simp] theorem applyEvent_opts (s : State) (e : Event) : (applyEvent s e).opts = s.opts := by
  cases e <;> simp only [applyEvent, portAEvent, intPinEvent, tmrPinEvent, resetPinEvent, lowVoltageEvent, tmrEdge,
    startEdge, stopEdge] <;> (repeat' split) <;> simp

@[simp] theorem applyEvent_inputs (s : State) (e : Event) : (applyEvent s e).inputs = s.inputs := by
  cases e <;> simp only [applyEvent, portAEvent, intPinEvent, tmrPinEvent, resetPinEvent, lowVoltageEvent, tmrEdge,
    startEdge, stopEdge] <;> (repeat' split) <;> simp

end Sys2Proof.Machine
end

