-- ==== Sys2Proof/Laws/Ops.lean ====
section
/-! SUPPORT. For each shared operation, once, all it can do: what it answers, and when it answers a next state. -/

namespace Sys2Proof.Machine

/-! ### Outcomes -/

@[simp] theorem andThen_of_next (s : State) (k : State → Result) : andThen (.next s) k = k s := rfl
@[simp] theorem andThen_of_fault (f : Fault) (k : State → Result) : andThen (.fault f) k = .fault f := rfl
@[simp] theorem andThen_of_refused (r : Refusal) (k : State → Result) : andThen (.refused r) k = .refused r := rfl

theorem andThen_next {o : Result} {k : State → Result} {t : State} :
    andThen o k = .next t ↔ ∃ s, o = .next s ∧ k s = .next t := by
  cases o <;> simp

/-! ### Where an operand leads -/

/-- Bank 0 leads to no display byte and to no bank 1 hole, and to a general purpose byte only at its own address. -/
theorem bank0_ram {a : DataAddr} {n : Nat} (h : bank0 a = .ram n) : n = a.toNat ∧ 0x40 ≤ n ∧ n ≤ 0x7F := by
  have := a.isLt
  unfold bank0 at h
  split at h <;> try cases h
  split at h
  · injection h with h; omega
  · cases h

theorem bank0_ne_lcd (a : DataAddr) (n : Nat) : bank0 a ≠ .lcd n := by
  intro h; unfold bank0 at h; split at h <;> try cases h
  split at h <;> cases h

theorem bank0_ne_bank1Hole (a : DataAddr) : bank0 a ≠ .bank1Hole := by
  intro h; unfold bank0 at h; split at h <;> try cases h
  split at h <;> cases h

theorem bank0_of_ram {a : DataAddr} (h : 0x40 ≤ a.toNat) : bank0 a = .ram a.toNat := by
  unfold bank0
  split <;> first | omega | simp_all

theorem bank1_ne_ram (a : DataAddr) (n : Nat) : bank1 a ≠ .ram n := by
  intro h; unfold bank1 at h; split at h <;> cases h

/-- An operand that leads to a general purpose byte leads to one of 40H to 7FH. -/
theorem locate_ram {m : DataAddr} {s : State} {n : Nat} (h : locate m s = .ram n) : 0x40 ≤ n ∧ n ≤ 0x7F := by
  unfold locate at h
  split at h
  · exact (bank0_ram h).2
  · split at h
    · split at h
      · exact absurd h (bank1_ne_ram _ _)
      · exact (bank0_ram h).2
    · exact (bank0_ram h).2

/-- An operand that leads to a display byte is 02H, with BP set, and leads to one of 40H to 4EH. -/
theorem locate_lcd {m : DataAddr} {s : State} {n : Nat} (h : locate m s = .lcd n) :
    m = 0x02 ∧ s.bp = true ∧ n = s.mp1.toNat ∧ 0x40 ≤ n ∧ n ≤ 0x4E := by
  unfold locate at h
  split at h
  · exact absurd h (bank0_ne_lcd _ _)
  · split at h
    · split at h
      · rename_i hm hb
        unfold bank1 at h
        split at h
        · injection h with h; exact ⟨hm, hb, h.symm, by omega, by omega⟩
        · cases h
      · exact absurd h (bank0_ne_lcd _ _)
    · exact absurd h (bank0_ne_lcd _ _)

/-- An operand that leads nowhere in bank 1 is 02H, with BP set and MP1 outside 40H to 4EH. -/
theorem locate_bank1Hole {m : DataAddr} {s : State} (h : locate m s = .bank1Hole) :
    m = 0x02 ∧ s.bp = true ∧ ¬(0x40 ≤ s.mp1.toNat ∧ s.mp1.toNat ≤ 0x4E) := by
  unfold locate at h
  split at h
  · exact absurd h (bank0_ne_bank1Hole _)
  · split at h
    · split at h
      · rename_i hm hb
        unfold bank1 at h
        split at h
        · cases h
        · rename_i hr; exact ⟨hm, hb, hr⟩
      · exact absurd h (bank0_ne_bank1Hole _)
    · exact absurd h (bank0_ne_bank1Hole _)

/-! ### Reading and writing -/

/-- A write that turns no timer on in mode 00 is one to another location, or one with TON clear, or one with a mode. -/
theorem startsMode00_eq_false {l : Loc} {v : Byte} :
    startsMode00 l v = false ↔ (l = .tmrc → v.getLsbD 4 = true → v.extractLsb' 6 2 ≠ 0) := by
  simp only [startsMode00, bitOf, Bool.and_eq_false_iff, decide_eq_false_iff_not, beq_eq_false_iff_ne]
  constructor
  · rintro ((h | h) | h) hl hv
    · exact absurd hl h
    · rw [hv] at h; cases h
    · exact h
  · intro h
    by_cases hl : l = .tmrc
    · cases hv : v.getLsbD 4
      · exact .inl (.inr rfl)
      · exact .inr (h hl hv)
    · exact .inl (.inl hl)

theorem store_next {l : Loc} {v : Byte} {s t : State} :
    store l v s = .next t ↔ l ≠ .bank1Hole ∧ startsMode00 l v = false ∧ t = writeLoc l v s := by
  unfold store
  split
  · rename_i h; exact ⟨nofun, fun k => absurd h k.1⟩
  · rename_i h
    split
    · rename_i h0; exact ⟨nofun, fun k => by rw [k.2.1] at h0; cases h0⟩
    · rename_i h0
      exact ⟨fun k => ⟨h, Bool.eq_false_iff.2 h0, (Host.Outcome.next.inj k).symm⟩, fun k => by rw [k.2.2]⟩

theorem write_next {m : DataAddr} {v : Byte} {s t : State} :
    write m v s = .next t ↔
      locate m s ≠ .bank1Hole ∧ startsMode00 (locate m s) v = false ∧ t = writeLoc (locate m s) v s :=
  store_next

/-- A write changes a general purpose byte only where it leads there. -/
theorem writeLoc_ram (l : Loc) (v : Byte) (s : State) (a : Nat) :
    Memory.read (writeLoc l v s).ram a = if l = .ram a then v else Memory.read s.ram a := by
  cases l <;> simp only [writeLoc] <;> try rfl
  rename_i b
  by_cases h : b = a
  · subst h; simp
  · simp only [Loc.ram.injEq, h, if_false]; exact Memory.read_write_other _ _ (Ne.symm h)

/-- A write changes a display byte only where it leads there, and stores the LCD_MASK bits. -/
theorem writeLoc_lcd (l : Loc) (v : Byte) (s : State) (a : Nat) :
    Memory.read (writeLoc l v s).lcd a = if l = .lcd a then v &&& s.opts.lcdMask else Memory.read s.lcd a := by
  cases l <;> simp only [writeLoc] <;> try rfl
  rename_i b
  by_cases h : b = a
  · subst h; simp
  · simp only [Loc.lcd.injEq, h, if_false]; exact Memory.read_write_other _ _ (Ne.symm h)

/-! ### Operand forms -/

theorem withOperand_of_readable {m : DataAddr} {s : State} (h : locate m s ≠ .bank1Hole)
    (k : Loc → Byte → State → Result) :
    withOperand m s k = k (locate m s) (readLoc (locate m s) s) (readEffect (locate m s) s) := by
  simp [withOperand, h]

theorem withOperand_of_hole {m : DataAddr} {s : State} (h : locate m s = .bank1Hole)
    (k : Loc → Byte → State → Result) : withOperand m s k = .fault .bank1OutsideLcd := by
  simp [withOperand, h]

theorem withOperand_next {m : DataAddr} {s t : State} {k : Loc → Byte → State → Result} :
    withOperand m s k = .next t ↔ locate m s ≠ .bank1Hole ∧
      k (locate m s) (readLoc (locate m s) s) (readEffect (locate m s) s) = .next t := by
  by_cases h : locate m s = .bank1Hole
  · simp [withOperand_of_hole h, h]
  · simp [withOperand_of_readable h, h]

theorem loadOp_next {m : DataAddr} {f : Byte → Byte} {u : Byte → FlagUpdate} {s t : State} :
    loadOp m f u s = .next t ↔ locate m s ≠ .bank1Hole ∧
      t = setAccFlags (f (readLoc (locate m s) s)) (u (readLoc (locate m s) s)) (readEffect (locate m s) s) := by
  rw [loadOp, withOperand_next, Host.Outcome.next.injEq, eq_comm (b := t)]

theorem modifyByte_next {m : DataAddr} {f : Byte → Byte} {s t : State} :
    modifyByte m f s = .next t ↔ locate m s ≠ .bank1Hole ∧ startsMode00 (locate m s) (f (readLoc (locate m s) s)) = false ∧
      t = writeLoc (locate m s) (f (readLoc (locate m s) s)) (readEffect (locate m s) s) := by
  simp only [modifyByte, withOperand_next, store_next]; tauto

theorem modifyFlags_next {m : DataAddr} {f : Byte → Byte} {u : Byte → FlagUpdate} {s t : State} :
    modifyFlags m f u s = .next t ↔
      locate m s ≠ .bank1Hole ∧ startsMode00 (locate m s) (f (readLoc (locate m s) s)) = false ∧
      t = setFlagsAfter (locate m s) (u (readLoc (locate m s) s))
        (writeLoc (locate m s) (f (readLoc (locate m s) s)) (readEffect (locate m s) s)) := by
  simp only [modifyFlags, withOperand_next, andThen_next, store_next]
  constructor
  · rintro ⟨h, w, ⟨-, h0, rfl⟩, e⟩; injection e with e; exact ⟨h, h0, e.symm⟩
  · rintro ⟨h, h0, rfl⟩; exact ⟨h, _, ⟨h, h0, rfl⟩, rfl⟩

theorem testSkip_next {m : DataAddr} {c : Byte → Bool} {s t : State} :
    testSkip m c s = .next t ↔ locate m s ≠ .bank1Hole ∧
      t = skipIf (c (readLoc (locate m s) s)) (readEffect (locate m s) s) := by
  rw [testSkip, withOperand_next, Host.Outcome.next.injEq, eq_comm (b := t)]

theorem loadSkip_next {m : DataAddr} {f : Byte → Byte} {s t : State} :
    loadSkip m f s = .next t ↔ locate m s ≠ .bank1Hole ∧
      t = skipIf (f (readLoc (locate m s) s) == 0)
        { readEffect (locate m s) s with acc := f (readLoc (locate m s) s) } := by
  rw [loadSkip, withOperand_next, Host.Outcome.next.injEq, eq_comm (b := t)]

theorem modifySkip_next {m : DataAddr} {f : Byte → Byte} {s t : State} :
    modifySkip m f s = .next t ↔ locate m s ≠ .bank1Hole ∧ locate m s ≠ .pcl ∧
      startsMode00 (locate m s) (f (readLoc (locate m s) s)) = false ∧
      t = skipIf (f (readLoc (locate m s) s) == 0)
        (writeLoc (locate m s) (f (readLoc (locate m s) s)) (readEffect (locate m s) s)) := by
  simp only [modifySkip, withOperand_next]
  by_cases hp : locate m s = .pcl
  · simp [hp]
  · simp only [hp, if_false, andThen_next, store_next]
    constructor
    · rintro ⟨h, w, ⟨-, h0, rfl⟩, e⟩; injection e with e; exact ⟨h, hp, h0, e.symm⟩
    · rintro ⟨h, -, h0, rfl⟩; exact ⟨h, _, ⟨h, h0, rfl⟩, rfl⟩

theorem tableRead_next {p : ProgAddr} {m : DataAddr} {s t : State} :
    tableRead p m s = .next t ↔ locate m s ≠ .bank1Hole ∧
      startsMode00 (locate m s) (lowByte (tableWord s p)) = false ∧
      t = { writeLoc (locate m s) (lowByte (tableWord s p)) s with tblh := (tableWord s p).extractLsb' 8 6 } := by
  simp only [tableRead, andThen_next, write_next]
  constructor
  · rintro ⟨w, ⟨h, h0, rfl⟩, e⟩; injection e with e; exact ⟨h, h0, e.symm⟩
  · rintro ⟨h, h0, rfl⟩; exact ⟨_, ⟨h, h0, rfl⟩, rfl⟩

theorem returnThen_next {k : State → State} {s t : State} :
    returnThen k s = .next t ↔ ∃ p rest, s.stk = p :: rest ∧ t = k { s with pc := p, stk := rest } := by
  unfold returnThen
  split <;> simp_all [eq_comm]

/-! ### Interrupts -/

theorem acknowledgeable_iff {src : Source} {s : State} :
    acknowledgeable src s = true ↔ s.intc.emi = true ∧ s.stk.length < 2 ∧ requested s.intc src = true ∧
      enabled s.intc src = true ∧ marked s.unseen src = false := by
  simp [acknowledgeable, and_assoc]

/-- The interrupt check takes one acknowledgeable source or changes nothing. -/
theorem interruptCheck_cases (s : State) :
    (interruptCheck s = s ∧ ∀ src, acknowledgeable src s = false) ∨
      ∃ src, acknowledgeable src s = true ∧ interruptCheck s = enter src s := by
  unfold interruptCheck
  repeat' split
  all_goals first
    | exact .inr ⟨_, ‹_›, rfl⟩
    | exact .inl ⟨rfl, fun src => by cases src <;> simp_all⟩

/-- A push never leaves more than two addresses. -/
theorem push_length (p : ProgAddr) (stk : List ProgAddr) : (push p stk).length ≤ 2 := by
  simp [push]

theorem push_of_room {p : ProgAddr} {stk : List ProgAddr} (h : stk.length < 2) : push p stk = p :: stk := by
  rw [push, List.take_of_length_le]; simp only [List.length_cons]; omega

/-! ### Ticks and the power state -/

/-- A request during the start-up delay leaves the delay as it is (60_exceptions R397). -/
theorem raise_waking {src : Source} {s : State} {n : Nat} (h : s.power = .waking n) : (raise src s).power = .waking n := by
  unfold raise
  split
  · exact h
  · simp [h]

theorem timerCount_waking {s : State} {n : Nat} (h : s.power = .waking n) : (timerCount s).power = .waking n := by
  unfold timerCount
  split
  · exact raise_waking h
  · exact h

theorem timerNoise_waking {s : State} {n : Nat} (h : s.power = .waking n) : (timerNoise s).power = .waking n := by
  unfold timerNoise
  split
  · dsimp only
    split
    · exact raise_waking h
    · exact h
  · exact h

theorem timerTick_waking {s : State} {n : Nat} (h : s.power = .waking n) : (timerTick s).power = .waking n := by
  unfold timerTick
  split
  · exact h
  · split
    · exact timerNoise_waking h
    · split
      · dsimp only
        split
        · exact h
        · exact timerCount_waking h
      · exact timerCount_waking h

/-- A tick of the internal clock during the start-up delay leaves the delay as it is. -/
theorem internalTick_waking {s : State} {n : Nat} (h : s.power = .waking n) : (internalTick s).power = .waking n := by
  unfold internalTick
  split
  · exact timerTick_waking h
  · split
    · exact timerTick_waking h
    · exact h

/-! ### Between two instructions -/

/-- What every device tick keeps, the ticks of the instruction's cycles keep. -/
theorem runDue_keeps {P : State → Prop} (tick : ∀ t s, P s → P (applyTick t s)) :
    ∀ (due : List Tick) (s : State), P s → P (runDue due s)
  | [], _, h => h
  | t :: rest, s, h => by
    unfold runDue
    split
    · exact tick t s h
    · exact runDue_keeps tick rest _ (tick t s h)

/-- What every event and every device tick keeps, each schedule of them keeps. -/
theorem runSchedule_keeps {P : State → Prop} (event : ∀ e s, P s → P (applyEvent s e))
    (tick : ∀ t s, P s → P (applyTick t s)) :
    ∀ (hs : List Happening) (due : List Tick) (s : State), P s → P (runSchedule hs due s)
  | [], due, s, h => runDue_keeps tick due s h
  | .event e :: rest, _, s, h => runSchedule_keeps event tick rest _ _ (event e s h)
  | .tick _ :: rest, _, s, h => by
    unfold runSchedule
    split
    · exact runSchedule_keeps event tick rest _ s h
    · exact runSchedule_keeps event tick rest _ _ (tick _ s h)

@[simp] theorem runSchedule_rom (hs : List Happening) (due : List Tick) (s : State) :
    (runSchedule hs due s).rom = s.rom :=
  runSchedule_keeps (P := fun t => t.rom = s.rom) (fun e t h => (applyEvent_rom t e).trans h)
    (fun k t h => (applyTick_rom k t).trans h) hs due s rfl

@[simp] theorem runSchedule_opts (hs : List Happening) (due : List Tick) (s : State) :
    (runSchedule hs due s).opts = s.opts :=
  runSchedule_keeps (P := fun t => t.opts = s.opts) (fun e t h => (applyEvent_opts t e).trans h)
    (fun k t h => (applyTick_opts k t).trans h) hs due s rfl

@[simp] theorem runSchedule_inputs (hs : List Happening) (due : List Tick) (s : State) :
    (runSchedule hs due s).inputs = s.inputs :=
  runSchedule_keeps (P := fun t => t.inputs = s.inputs) (fun e t h => (applyEvent_inputs t e).trans h)
    (fun k t h => (applyTick_inputs k t).trans h) hs due s rfl

/-- What every event keeps, the events before a boundary keep; the boundary is taken off the inputs. -/
theorem takeInputs_keeps {P : State → Prop} (event : ∀ e s, P s → P (applyEvent s e)) {s : State}
    (h : P { s with inputs := s.inputs.tail }) : P (takeInputs s) := by
  unfold takeInputs
  generalize (nextBoundary s).before = es
  revert h
  generalize ({ s with inputs := s.inputs.tail } : State) = t
  intro h
  induction es generalizing t with
  | nil => exact h
  | cons e rest ih => exact ih _ (event e t h)

/-- With no input to come, nothing happens before the boundary. -/
theorem takeInputs_of_none {s : State} (h : s.inputs = []) : takeInputs s = s := by
  cases s; subst h; rfl

/-- With the watchdog disabled no tick is a chip reset, so the ticks come one after the other. -/
theorem runDue_of_wdt_disabled : ∀ (due : List Tick) {s : State}, s.opts.wdtEnable = false →
    runDue due s = due.foldl (fun s t => applyTick t s) s
  | [], _, _ => rfl
  | t :: rest, s, h => by
    have hn : tickResets t s = false := by simp [tickResets, watchdogResets, watchdogExpires, h]
    simp [runDue, hn, runDue_of_wdt_disabled rest (s := applyTick t s) (by simpa using h)]

/-! ### The decoder parameter -/

/-- With no listing ENC is the default table (30_encoding R150). -/
theorem enc_default {o : Config.Options} (h : o.encListing = []) (w : Word) : enc o w = decode o.clrWdtTimes w := by
  simp [enc, h]

/-- Every function from words to instructions or none is the ENC of some listing (30_encoding R150). -/
theorem enc_any (o : Config.Options) (f : Word → Option Instr) :
    ∃ listing, ∀ w, enc { o with encListing := listing } w =
      match f w with
      | some i => .ok i
      | none => .error .notInListing := by
  have key : ∀ (l : List (BitVec 14)) (w : Word), w ∈ l → (l.map fun w => (w, f w)).lookup w = some (f w) := by
    intro l w hw
    induction l with
    | nil => cases hw
    | cons v rest ih =>
      by_cases hv : w = v
      · subst hv; simp
      · have : (w == v) = false := by simpa using hv
        simp only [List.map_cons, List.lookup_cons, this]
        exact ih ((List.mem_cons.mp hw).resolve_left hv)
  refine ⟨((List.range (2 ^ 14)).map (BitVec.ofNat 14)).map fun w => (w, f w), fun w => ?_⟩
  have hw : w ∈ (List.range (2 ^ 14)).map (BitVec.ofNat 14) :=
    List.mem_map.mpr ⟨w.toNat, List.mem_range.mpr w.isLt, by simp⟩
  simp only [enc, key _ w hw]
  cases f w <;> rfl

end Sys2Proof.Machine
end

