-- ==== Sys2Proof/Laws/PerInstr.lean ====
section
/-! SUPPORT. What is said of every instruction as syntax, one lemma per constructor: its word is its row of the opcode table,
written here a second time as a number, with the operands in their fields. -/

namespace Sys2Proof.Laws

theorem append_toNat {a b : Nat} (x : BitVec a) (y : BitVec b) : (x ++ y).toNat = x.toNat * 2 ^ b + y.toNat := by
  rw [BitVec.toNat_append, ← Nat.shiftLeft_add_eq_or_of_lt y.isLt, Nat.shiftLeft_eq]

theorem fieldM (op : BitVec 7) (m : DataAddr) : (op ++ m).toNat = op.toNat * 2 ^ 7 + m.toNat := append_toNat op m
theorem fieldX (op : BitVec 6) (x : Byte) : (op ++ x).toNat = op.toNat * 2 ^ 8 + x.toNat := append_toNat op x
theorem fieldA (op : BitVec 4) (a : ProgAddr) : (op ++ a).toNat = op.toNat * 2 ^ 10 + a.toNat := append_toNat op a
theorem fieldB (op : BitVec 4) (i : BitNo) (m : DataAddr) :
    (op ++ i ++ m).toNat = op.toNat * 2 ^ 10 + i.toNat * 128 + m.toNat := by
  rw [append_toNat, append_toNat]; omega

/-- The word of an instruction as a number: the `match` value of its row in the opcode table, and its operands at the places
of their fields (30_encoding R144, R145). -/
def Encodes.tableValue : Instr → Nat
  | .addAM m => 0x0300 + m.toNat
  | .addmAM m => 0x0380 + m.toNat
  | .addAX x => 0x0B00 + x.toNat
  | .adcAM m => 0x1300 + m.toNat
  | .adcmAM m => 0x1380 + m.toNat
  | .subAX x => 0x0A00 + x.toNat
  | .subAM m => 0x0200 + m.toNat
  | .submAM m => 0x0280 + m.toNat
  | .sbcAM m => 0x1200 + m.toNat
  | .sbcmAM m => 0x1280 + m.toNat
  | .daaM m => 0x1E80 + m.toNat
  | .andAM m => 0x0600 + m.toNat
  | .orAM m => 0x0500 + m.toNat
  | .xorAM m => 0x0400 + m.toNat
  | .andmAM m => 0x0680 + m.toNat
  | .ormAM m => 0x0580 + m.toNat
  | .xormAM m => 0x0480 + m.toNat
  | .andAX x => 0x0E00 + x.toNat
  | .orAX x => 0x0D00 + x.toNat
  | .xorAX x => 0x0C00 + x.toNat
  | .cplM m => 0x0180 + m.toNat
  | .cplaM m => 0x0100 + m.toNat
  | .incaM m => 0x1400 + m.toNat
  | .incM m => 0x1480 + m.toNat
  | .decaM m => 0x1500 + m.toNat
  | .decM m => 0x1580 + m.toNat
  | .rraM m => 0x1900 + m.toNat
  | .rrM m => 0x1980 + m.toNat
  | .rrcaM m => 0x1B00 + m.toNat
  | .rrcM m => 0x1B80 + m.toNat
  | .rlaM m => 0x1800 + m.toNat
  | .rlM m => 0x1880 + m.toNat
  | .rlcaM m => 0x1A00 + m.toNat
  | .rlcM m => 0x1A80 + m.toNat
  | .movAM m => 0x0700 + m.toNat
  | .movMA m => 0x0080 + m.toNat
  | .movAX x => 0x0F00 + x.toNat
  | .clrBit i m => 0x3400 + i.toNat * 128 + m.toNat
  | .setBit i m => 0x3000 + i.toNat * 128 + m.toNat
  | .jmp addr => 0x2800 + addr.toNat
  | .szM m => 0x1080 + m.toNat
  | .szaM m => 0x1000 + m.toNat
  | .szBit i m => 0x3C00 + i.toNat * 128 + m.toNat
  | .snzBit i m => 0x3800 + i.toNat * 128 + m.toNat
  | .sizM m => 0x1680 + m.toNat
  | .sdzM m => 0x1780 + m.toNat
  | .sizaM m => 0x1600 + m.toNat
  | .sdzaM m => 0x1700 + m.toNat
  | .call addr => 0x2000 + addr.toNat
  | .ret => 0x0003
  | .retAX x => 0x0900 + x.toNat
  | .reti => 0x0004
  | .tabrdc m => 0x1D00 + m.toNat
  | .tabrdl m => 0x1D80 + m.toNat
  | .nop => 0x0000
  | .clrM m => 0x1F00 + m.toNat
  | .setM m => 0x1F80 + m.toNat
  | .clrWdt => 0x0001
  | .clrWdt1 => 0x0001
  | .clrWdt2 => 0x0005
  | .swapM m => 0x1180 + m.toNat
  | .swapaM m => 0x1100 + m.toNat
  | .halt => 0x0002

/-- The encoder writes the instruction's row of the opcode table, and some setting of CLRWDT_TIMES gives the instruction that
word. -/
def Encodes.Statement (i : Instr) : Prop :=
  (encode i).toNat = Encodes.tableValue i ∧ ∃ times, i.wellFormed times = true

theorem Encodes.addAM (m : DataAddr) : Encodes.Statement (.addAM m) := ⟨fieldM _ m, .one, rfl⟩
theorem Encodes.addmAM (m : DataAddr) : Encodes.Statement (.addmAM m) := ⟨fieldM _ m, .one, rfl⟩
theorem Encodes.addAX (x : Byte) : Encodes.Statement (.addAX x) := ⟨fieldX _ x, .one, rfl⟩
theorem Encodes.adcAM (m : DataAddr) : Encodes.Statement (.adcAM m) := ⟨fieldM _ m, .one, rfl⟩
theorem Encodes.adcmAM (m : DataAddr) : Encodes.Statement (.adcmAM m) := ⟨fieldM _ m, .one, rfl⟩
theorem Encodes.subAX (x : Byte) : Encodes.Statement (.subAX x) := ⟨fieldX _ x, .one, rfl⟩
theorem Encodes.subAM (m : DataAddr) : Encodes.Statement (.subAM m) := ⟨fieldM _ m, .one, rfl⟩
theorem Encodes.submAM (m : DataAddr) : Encodes.Statement (.submAM m) := ⟨fieldM _ m, .one, rfl⟩
theorem Encodes.sbcAM (m : DataAddr) : Encodes.Statement (.sbcAM m) := ⟨fieldM _ m, .one, rfl⟩
theorem Encodes.sbcmAM (m : DataAddr) : Encodes.Statement (.sbcmAM m) := ⟨fieldM _ m, .one, rfl⟩
theorem Encodes.daaM (m : DataAddr) : Encodes.Statement (.daaM m) := ⟨fieldM _ m, .one, rfl⟩
theorem Encodes.andAM (m : DataAddr) : Encodes.Statement (.andAM m) := ⟨fieldM _ m, .one, rfl⟩
theorem Encodes.orAM (m : DataAddr) : Encodes.Statement (.orAM m) := ⟨fieldM _ m, .one, rfl⟩
theorem Encodes.xorAM (m : DataAddr) : Encodes.Statement (.xorAM m) := ⟨fieldM _ m, .one, rfl⟩
theorem Encodes.andmAM (m : DataAddr) : Encodes.Statement (.andmAM m) := ⟨fieldM _ m, .one, rfl⟩
theorem Encodes.ormAM (m : DataAddr) : Encodes.Statement (.ormAM m) := ⟨fieldM _ m, .one, rfl⟩
theorem Encodes.xormAM (m : DataAddr) : Encodes.Statement (.xormAM m) := ⟨fieldM _ m, .one, rfl⟩
theorem Encodes.andAX (x : Byte) : Encodes.Statement (.andAX x) := ⟨fieldX _ x, .one, rfl⟩
theorem Encodes.orAX (x : Byte) : Encodes.Statement (.orAX x) := ⟨fieldX _ x, .one, rfl⟩
theorem Encodes.xorAX (x : Byte) : Encodes.Statement (.xorAX x) := ⟨fieldX _ x, .one, rfl⟩
theorem Encodes.cplM (m : DataAddr) : Encodes.Statement (.cplM m) := ⟨fieldM _ m, .one, rfl⟩
theorem Encodes.cplaM (m : DataAddr) : Encodes.Statement (.cplaM m) := ⟨fieldM _ m, .one, rfl⟩
theorem Encodes.incaM (m : DataAddr) : Encodes.Statement (.incaM m) := ⟨fieldM _ m, .one, rfl⟩
theorem Encodes.incM (m : DataAddr) : Encodes.Statement (.incM m) := ⟨fieldM _ m, .one, rfl⟩
theorem Encodes.decaM (m : DataAddr) : Encodes.Statement (.decaM m) := ⟨fieldM _ m, .one, rfl⟩
theorem Encodes.decM (m : DataAddr) : Encodes.Statement (.decM m) := ⟨fieldM _ m, .one, rfl⟩
theorem Encodes.rraM (m : DataAddr) : Encodes.Statement (.rraM m) := ⟨fieldM _ m, .one, rfl⟩
theorem Encodes.rrM (m : DataAddr) : Encodes.Statement (.rrM m) := ⟨fieldM _ m, .one, rfl⟩
theorem Encodes.rrcaM (m : DataAddr) : Encodes.Statement (.rrcaM m) := ⟨fieldM _ m, .one, rfl⟩
theorem Encodes.rrcM (m : DataAddr) : Encodes.Statement (.rrcM m) := ⟨fieldM _ m, .one, rfl⟩
theorem Encodes.rlaM (m : DataAddr) : Encodes.Statement (.rlaM m) := ⟨fieldM _ m, .one, rfl⟩
theorem Encodes.rlM (m : DataAddr) : Encodes.Statement (.rlM m) := ⟨fieldM _ m, .one, rfl⟩
theorem Encodes.rlcaM (m : DataAddr) : Encodes.Statement (.rlcaM m) := ⟨fieldM _ m, .one, rfl⟩
theorem Encodes.rlcM (m : DataAddr) : Encodes.Statement (.rlcM m) := ⟨fieldM _ m, .one, rfl⟩
theorem Encodes.movAM (m : DataAddr) : Encodes.Statement (.movAM m) := ⟨fieldM _ m, .one, rfl⟩
theorem Encodes.movMA (m : DataAddr) : Encodes.Statement (.movMA m) := ⟨fieldM _ m, .one, rfl⟩
theorem Encodes.movAX (x : Byte) : Encodes.Statement (.movAX x) := ⟨fieldX _ x, .one, rfl⟩
theorem Encodes.clrBit (i : BitNo) (m : DataAddr) : Encodes.Statement (.clrBit i m) := ⟨fieldB _ i m, .one, rfl⟩
theorem Encodes.setBit (i : BitNo) (m : DataAddr) : Encodes.Statement (.setBit i m) := ⟨fieldB _ i m, .one, rfl⟩
theorem Encodes.jmp (addr : ProgAddr) : Encodes.Statement (.jmp addr) := ⟨fieldA _ addr, .one, rfl⟩
theorem Encodes.szM (m : DataAddr) : Encodes.Statement (.szM m) := ⟨fieldM _ m, .one, rfl⟩
theorem Encodes.szaM (m : DataAddr) : Encodes.Statement (.szaM m) := ⟨fieldM _ m, .one, rfl⟩
theorem Encodes.szBit (i : BitNo) (m : DataAddr) : Encodes.Statement (.szBit i m) := ⟨fieldB _ i m, .one, rfl⟩
theorem Encodes.snzBit (i : BitNo) (m : DataAddr) : Encodes.Statement (.snzBit i m) := ⟨fieldB _ i m, .one, rfl⟩
theorem Encodes.sizM (m : DataAddr) : Encodes.Statement (.sizM m) := ⟨fieldM _ m, .one, rfl⟩
theorem Encodes.sdzM (m : DataAddr) : Encodes.Statement (.sdzM m) := ⟨fieldM _ m, .one, rfl⟩
theorem Encodes.sizaM (m : DataAddr) : Encodes.Statement (.sizaM m) := ⟨fieldM _ m, .one, rfl⟩
theorem Encodes.sdzaM (m : DataAddr) : Encodes.Statement (.sdzaM m) := ⟨fieldM _ m, .one, rfl⟩
theorem Encodes.call (addr : ProgAddr) : Encodes.Statement (.call addr) := ⟨fieldA _ addr, .one, rfl⟩
theorem Encodes.ret : Encodes.Statement .ret := ⟨rfl, .one, rfl⟩
theorem Encodes.retAX (x : Byte) : Encodes.Statement (.retAX x) := ⟨fieldX _ x, .one, rfl⟩
theorem Encodes.reti : Encodes.Statement .reti := ⟨rfl, .one, rfl⟩
theorem Encodes.tabrdc (m : DataAddr) : Encodes.Statement (.tabrdc m) := ⟨fieldM _ m, .one, rfl⟩
theorem Encodes.tabrdl (m : DataAddr) : Encodes.Statement (.tabrdl m) := ⟨fieldM _ m, .one, rfl⟩
theorem Encodes.nop : Encodes.Statement .nop := ⟨rfl, .one, rfl⟩
theorem Encodes.clrM (m : DataAddr) : Encodes.Statement (.clrM m) := ⟨fieldM _ m, .one, rfl⟩
theorem Encodes.setM (m : DataAddr) : Encodes.Statement (.setM m) := ⟨fieldM _ m, .one, rfl⟩
theorem Encodes.clrWdt : Encodes.Statement .clrWdt := ⟨rfl, .one, rfl⟩
theorem Encodes.clrWdt1 : Encodes.Statement .clrWdt1 := ⟨rfl, .two, rfl⟩
theorem Encodes.clrWdt2 : Encodes.Statement .clrWdt2 := ⟨rfl, .one, rfl⟩
theorem Encodes.swapM (m : DataAddr) : Encodes.Statement (.swapM m) := ⟨fieldM _ m, .one, rfl⟩
theorem Encodes.swapaM (m : DataAddr) : Encodes.Statement (.swapaM m) := ⟨fieldM _ m, .one, rfl⟩
theorem Encodes.halt : Encodes.Statement .halt := ⟨rfl, .one, rfl⟩

end Sys2Proof.Laws
end

