-- ==== Sys2Proof/Tests/Slice0.lean ====
section
/-! SUPPORT. The model's own tests: the ill-formed terms, the decoding of words written out from 30_encoding R145, the vectors
of 95_test_vectors section 2 with one theorem an instruction, scenarios of its section 3, and a witness for the hypotheses of
every obligation that has any. Every expected value is the spec's. -/

namespace Sys2Proof.Tests

open Sys2Proof.Machine Sys2Proof.Claims Sys2Proof.Safety

/-! ### Ill-formed instructions (30_encoding R148) -/

theorem test_wellFormed_refuses_clrWdt_with_two : Instr.wellFormed .two .clrWdt = false := by decide
theorem test_wellFormed_refuses_clrWdt1_with_one : Instr.wellFormed .one .clrWdt1 = false := by decide

/-! ### Words written out from 30_encoding R145, with `m` = 5AH, `x` = A5H, `i` = 5, `addr` = 2D3H -/

theorem test_decode_arithmetic :
    decodeTableWord 16 0b00001101011010 = some (.addAM 0x5A) ∧
    decodeTableWord 16 0b00001111011010 = some (.addmAM 0x5A) ∧
    decodeTableWord 16 0b00101110100101 = some (.addAX 0xA5) ∧
    decodeTableWord 16 0b01001101011010 = some (.adcAM 0x5A) ∧
    decodeTableWord 16 0b01001111011010 = some (.adcmAM 0x5A) ∧
    decodeTableWord 16 0b00101010100101 = some (.subAX 0xA5) ∧
    decodeTableWord 16 0b00001001011010 = some (.subAM 0x5A) ∧
    decodeTableWord 16 0b00001011011010 = some (.submAM 0x5A) ∧
    decodeTableWord 16 0b01001001011010 = some (.sbcAM 0x5A) ∧
    decodeTableWord 16 0b01001011011010 = some (.sbcmAM 0x5A) ∧
    decodeTableWord 16 0b01111011011010 = some (.daaM 0x5A) := by decide

theorem test_decode_logic :
    decodeTableWord 16 0b00011001011010 = some (.andAM 0x5A) ∧
    decodeTableWord 16 0b00010101011010 = some (.orAM 0x5A) ∧
    decodeTableWord 16 0b00010001011010 = some (.xorAM 0x5A) ∧
    decodeTableWord 16 0b00011011011010 = some (.andmAM 0x5A) ∧
    decodeTableWord 16 0b00010111011010 = some (.ormAM 0x5A) ∧
    decodeTableWord 16 0b00010011011010 = some (.xormAM 0x5A) ∧
    decodeTableWord 16 0b00111010100101 = some (.andAX 0xA5) ∧
    decodeTableWord 16 0b00110110100101 = some (.orAX 0xA5) ∧
    decodeTableWord 16 0b00110010100101 = some (.xorAX 0xA5) ∧
    decodeTableWord 16 0b00000111011010 = some (.cplM 0x5A) ∧
    decodeTableWord 16 0b00000101011010 = some (.cplaM 0x5A) := by decide

theorem test_decode_incdec :
    decodeTableWord 16 0b01010001011010 = some (.incaM 0x5A) ∧
    decodeTableWord 16 0b01010011011010 = some (.incM 0x5A) ∧
    decodeTableWord 16 0b01010101011010 = some (.decaM 0x5A) ∧
    decodeTableWord 16 0b01010111011010 = some (.decM 0x5A) := by decide

theorem test_decode_rotate :
    decodeTableWord 16 0b01100101011010 = some (.rraM 0x5A) ∧
    decodeTableWord 16 0b01100111011010 = some (.rrM 0x5A) ∧
    decodeTableWord 16 0b01101101011010 = some (.rrcaM 0x5A) ∧
    decodeTableWord 16 0b01101111011010 = some (.rrcM 0x5A) ∧
    decodeTableWord 16 0b01100001011010 = some (.rlaM 0x5A) ∧
    decodeTableWord 16 0b01100011011010 = some (.rlM 0x5A) ∧
    decodeTableWord 16 0b01101001011010 = some (.rlcaM 0x5A) ∧
    decodeTableWord 16 0b01101011011010 = some (.rlcM 0x5A) := by decide

theorem test_decode_move_and_bit :
    decodeTableWord 16 0b00011101011010 = some (.movAM 0x5A) ∧
    decodeTableWord 16 0b00000011011010 = some (.movMA 0x5A) ∧
    decodeTableWord 16 0b00111110100101 = some (.movAX 0xA5) ∧
    decodeTableWord 16 0b11011011011010 = some (.clrBit 5 0x5A) ∧
    decodeTableWord 16 0b11001011011010 = some (.setBit 5 0x5A) := by decide

theorem test_decode_branch :
    decodeTableWord 16 0b10101011010011 = some (.jmp 0x2D3) ∧
    decodeTableWord 16 0b01000011011010 = some (.szM 0x5A) ∧
    decodeTableWord 16 0b01000001011010 = some (.szaM 0x5A) ∧
    decodeTableWord 16 0b11111011011010 = some (.szBit 5 0x5A) ∧
    decodeTableWord 16 0b11101011011010 = some (.snzBit 5 0x5A) ∧
    decodeTableWord 16 0b01011011011010 = some (.sizM 0x5A) ∧
    decodeTableWord 16 0b01011111011010 = some (.sdzM 0x5A) ∧
    decodeTableWord 16 0b01011001011010 = some (.sizaM 0x5A) ∧
    decodeTableWord 16 0b01011101011010 = some (.sdzaM 0x5A) ∧
    decodeTableWord 16 0b10001011010011 = some (.call 0x2D3) ∧
    decodeTableWord 16 0b00000000000011 = some .ret ∧
    decodeTableWord 16 0b00100110100101 = some (.retAX 0xA5) ∧
    decodeTableWord 16 0b00000000000100 = some .reti := by decide

theorem test_decode_table_and_misc :
    decodeTableWord 16 0b01110101011010 = some (.tabrdc 0x5A) ∧
    decodeTableWord 16 0b01110111011010 = some (.tabrdl 0x5A) ∧
    decodeTableWord 16 0b00000000000000 = some .nop ∧
    decodeTableWord 16 0b01111101011010 = some (.clrM 0x5A) ∧
    decodeTableWord 16 0b01111111011010 = some (.setM 0x5A) ∧
    decodeTableWord 16 0b00000000000001 = some .clrWdt ∧
    decodeTableWord 16 0b00000000000101 = some .clrWdt2 ∧
    decodeTableWord 16 0b01000111011010 = some (.swapM 0x5A) ∧
    decodeTableWord 16 0b01000101011010 = some (.swapaM 0x5A) ∧
    decodeTableWord 16 0b00000000000010 = some .halt := by decide

/-- With CLRWDT_TIMES = 2 the word 0001H is CLR WDT1 (30_encoding R148). -/
theorem test_decode_clrWdt1 : decode .two 0b00000000000001 = .ok .clrWdt1 := by rfl

/-- A listing that gives the word 0001H to NOP and takes the word 0000H away; every other word keeps its default reading
(30_encoding R150). -/
theorem test_enc_listing :
    (let o : Config.Options := { Config.Options.default with encListing := [(0x0001, some .nop), (0x0000, none)] }
     enc o 0x0001 = .ok .nop ∧ enc o 0x0000 = .error .notInListing ∧ enc o 0x0002 = .ok .halt) := ⟨rfl, rfl, rfl⟩

/-- The undefined words of 95_test_vectors 2.10, at the ends of their ranges. -/
theorem test_undefined_words : ([0x0006, 0x007F, 0x0780, 0x08FF, 0x1C00, 0x1CFF, 0x1E00, 0x1E7F, 0x2400, 0x27FF, 0x2C00,
    0x2FFF].all fun w => (decodeTableWord 16 w).isNone) = true := by decide

/-! ### One step -/

/-- The state the vectors start from. -/
def start : State := State.reset

/-- Execute the word `w` standing at `n` from `s`. -/
def execWord (w n : Nat) (s : State) : Option (Instr × Result) :=
  match enc s.opts (BitVec.ofNat 14 w) with
  | .ok i => some (i, exec i { s with pc := BitVec.ofNat 10 (n + 1) })
  | .error _ => none

/-- The word at `n` runs, takes these cycles, and leaves a state with this property. -/
def runs (w n cyc : Nat) (s : State) (p : State → Bool) : Bool :=
  match execWord w n s with
  | some (i, .next t) => p t && cyclesOf i { s with pc := BitVec.ofNat 10 (n + 1) } t == cyc
  | some (_, .fault _) | some (_, .refused _) | none => false

/-- The word at `n` stops with this fault. -/
def stops (w n : Nat) (f : Fault) (s : State) : Bool :=
  match execWord w n s with
  | some (_, .fault g) => decide (g = f)
  | some (_, .next _) | some (_, .refused _) | none => false

/-- The outcome is a next state. -/
def goesOn : Result → Bool
  | .next _ => true
  | .fault _ | .refused _ => false

/-- The outcome is a next state with this property. -/
def leaves (r : Result) (p : State → Bool) : Bool :=
  match r with
  | .next t => p t
  | .fault _ | .refused _ => false

/-! ### The vectors of 95_test_vectors section 2 -/

theorem test_addAM :
    runs 0x0340 0x100 1 { start with acc := 0x3A, ram := [(0x40, 0xC6)] }
      (fun t => t.acc == 0x00 && t.alu.c && t.alu.ac && t.alu.z && !t.alu.ov && t.pc == 0x101) = true ∧
    runs 0x0340 0x100 1 { start with acc := 0x7F, ram := [(0x40, 0x01)] }
      (fun t => t.acc == 0x80 && !t.alu.c && t.alu.ac && !t.alu.z && t.alu.ov && t.pc == 0x101) = true ∧
    runs 0x0340 0x100 1 { start with acc := 0x80, ram := [(0x40, 0x80)] }
      (fun t => t.acc == 0x00 && t.alu.c && !t.alu.ac && t.alu.z && t.alu.ov && t.pc == 0x101) = true ∧
    runs 0x0305 0x100 1 { start with acc := 0x55 }
      (fun t => t.acc == 0xAA && !t.alu.c && !t.alu.ac && !t.alu.z && t.alu.ov && t.pc == 0x101) = true := by decide

theorem test_addmAM :
    runs 0x03C0 0x100 1 { start with acc := 0x01, ram := [(0x40, 0xFF)] }
      (fun t => t.acc == 0x01 && Memory.read t.ram 0x40 == 0x00 && t.alu.c && t.alu.ac && t.alu.z && !t.alu.ov && t.pc == 0x101) = true ∧
    runs 0x0386 0x120 2 { start with acc := 0x03 }
      (fun t => t.pc == 0x124 && !t.alu.c && !t.alu.ac && !t.alu.z && !t.alu.ov) = true ∧
    runs 0x0386 0x2FE 2 { start with acc := 0x02 }
      (fun t => t.pc == 0x201 && t.alu.c && t.alu.ac && !t.alu.z && !t.alu.ov) = true := by decide

theorem test_addAX :
    runs 0x0B01 0x100 1 { start with acc := 0x0F }
      (fun t => t.acc == 0x10 && !t.alu.c && t.alu.ac && !t.alu.z && !t.alu.ov && t.pc == 0x101) = true ∧
    runs 0x0B00 0x100 1 { start with acc := 0x00 }
      (fun t => t.acc == 0x00 && !t.alu.c && !t.alu.ac && t.alu.z && !t.alu.ov && t.pc == 0x101) = true := by decide

theorem test_adcAM :
    runs 0x1340 0x100 1 { start with acc := 0xFF, alu := ⟨true, false, false, false⟩ }
      (fun t => t.acc == 0x00 && t.alu.c && t.alu.ac && t.alu.z && !t.alu.ov && t.pc == 0x101) = true ∧
    runs 0x1340 0x100 1 { start with acc := 0x7F, alu := ⟨true, false, false, false⟩ }
      (fun t => t.acc == 0x80 && !t.alu.c && t.alu.ac && !t.alu.z && t.alu.ov && t.pc == 0x101) = true := by decide

theorem test_adcmAM :
    runs 0x13C0 0x100 1 { start with acc := 0x0F, alu := ⟨true, false, false, false⟩, ram := [(0x40, 0x0F)] }
      (fun t => t.acc == 0x0F && Memory.read t.ram 0x40 == 0x1F && !t.alu.c && t.alu.ac && !t.alu.z && !t.alu.ov && t.pc == 0x101) = true := by decide

theorem test_subAX :
    runs 0x0A05 0x100 1 { start with acc := 0x05 }
      (fun t => t.acc == 0x00 && t.alu.c && t.alu.ac && t.alu.z && !t.alu.ov && t.pc == 0x101) = true ∧
    runs 0x0A06 0x100 1 { start with acc := 0x05 }
      (fun t => t.acc == 0xFF && !t.alu.c && !t.alu.ac && !t.alu.z && !t.alu.ov && t.pc == 0x101) = true ∧
    runs 0x0A01 0x100 1 { start with acc := 0x80 }
      (fun t => t.acc == 0x7F && t.alu.c && !t.alu.ac && !t.alu.z && t.alu.ov && t.pc == 0x101) = true := by decide

theorem test_subAM :
    runs 0x0240 0x100 1 { start with acc := 0x10, ram := [(0x40, 0x01)] }
      (fun t => t.acc == 0x0F && t.alu.c && !t.alu.ac && !t.alu.z && !t.alu.ov && t.pc == 0x101) = true ∧
    runs 0x0240 0x100 1 { start with acc := 0x00 }
      (fun t => t.acc == 0x00 && t.alu.c && t.alu.ac && t.alu.z && !t.alu.ov && t.pc == 0x101) = true := by decide

theorem test_submAM :
    runs 0x02C0 0x100 1 { start with acc := 0x50, ram := [(0x40, 0x60)] }
      (fun t => t.acc == 0x50 && Memory.read t.ram 0x40 == 0xF0 && !t.alu.c && t.alu.ac && !t.alu.z && !t.alu.ov && t.pc == 0x101) = true := by decide

theorem test_sbcAM :
    runs 0x1240 0x100 1 { start with acc := 0x05, ram := [(0x40, 0x05)] }
      (fun t => t.acc == 0xFF && !t.alu.c && !t.alu.ac && !t.alu.z && !t.alu.ov && t.pc == 0x101) = true ∧
    runs 0x1240 0x100 1 { start with acc := 0x05, alu := ⟨true, false, false, false⟩, ram := [(0x40, 0x05)] }
      (fun t => t.acc == 0x00 && t.alu.c && t.alu.ac && t.alu.z && !t.alu.ov && t.pc == 0x101) = true ∧
    runs 0x1240 0x100 1 { start with acc := 0x00, ram := [(0x40, 0xFF)] }
      (fun t => t.acc == 0x00 && !t.alu.c && !t.alu.ac && t.alu.z && !t.alu.ov && t.pc == 0x101) = true := by decide

theorem test_sbcmAM :
    runs 0x12C0 0x100 1 { start with acc := 0x80 }
      (fun t => t.acc == 0x80 && Memory.read t.ram 0x40 == 0x7F && t.alu.c && !t.alu.ac && !t.alu.z && t.alu.ov && t.pc == 0x101) = true := by decide

theorem test_daaM :
    runs 0x1EC0 0x100 1 { start with acc := 0x7D }
      (fun t => t.acc == 0x7D && Memory.read t.ram 0x40 == 0x83 && !t.alu.c && !t.alu.ac && !t.alu.z && !t.alu.ov && t.pc == 0x101) = true ∧
    runs 0x1EC0 0x100 1 { start with acc := 0x9A }
      (fun t => Memory.read t.ram 0x40 == 0x00 && t.alu.c && t.pc == 0x101) = true ∧
    runs 0x1EC0 0x100 1 { start with acc := 0x12, alu := ⟨true, true, false, false⟩ }
      (fun t => Memory.read t.ram 0x40 == 0x78 && t.alu.c && t.pc == 0x101) = true ∧
    runs 0x1EC0 0x100 1 { start with acc := 0x00 }
      (fun t => Memory.read t.ram 0x40 == 0x00 && !t.alu.c && t.pc == 0x101) = true ∧
    runs 0x1EC0 0x100 1 { start with acc := 0xA0 }
      (fun t => Memory.read t.ram 0x40 == 0x00 && t.alu.c && t.pc == 0x101) = true ∧
    runs 0x1E85 0x100 1 { start with acc := 0x3C }
      (fun t => t.acc == 0x42 && !t.alu.c && t.pc == 0x101) = true := by decide

theorem test_andAM :
    runs 0x0640 0x100 1 { start with acc := 0xF0, ram := [(0x40, 0x0F)] }
      (fun t => t.acc == 0x00 && t.alu.z && t.pc == 0x101) = true ∧
    runs 0x0640 0x100 1 { start with acc := 0xF3, ram := [(0x40, 0x3F)] }
      (fun t => t.acc == 0x33 && !t.alu.z && t.pc == 0x101) = true := by decide

theorem test_orAM :
    runs 0x0540 0x100 1 { start with acc := 0x00 }
      (fun t => t.acc == 0x00 && t.alu.z && t.pc == 0x101) = true ∧
    runs 0x0540 0x100 1 { start with acc := 0x81, ram := [(0x40, 0x18)] }
      (fun t => t.acc == 0x99 && !t.alu.z && t.pc == 0x101) = true := by decide

theorem test_xorAM :
    runs 0x0440 0x100 1 { start with acc := 0xAA, ram := [(0x40, 0xAA)] }
      (fun t => t.acc == 0x00 && t.alu.z && t.pc == 0x101) = true ∧
    runs 0x0405 0x100 1 { start with acc := 0xAA }
      (fun t => t.acc == 0x00 && t.alu.z && t.pc == 0x101) = true := by decide

theorem test_andmAM :
    runs 0x06C0 0x100 1 { start with acc := 0x0F, ram := [(0x40, 0x3C)] }
      (fun t => t.acc == 0x0F && Memory.read t.ram 0x40 == 0x0C && !t.alu.z && t.pc == 0x101) = true := by decide

theorem test_ormAM :
    runs 0x05C0 0x100 1 { start with acc := 0x0F, ram := [(0x40, 0x30)] }
      (fun t => t.acc == 0x0F && Memory.read t.ram 0x40 == 0x3F && !t.alu.z && t.pc == 0x101) = true := by decide

theorem test_xormAM :
    runs 0x04C0 0x100 1 { start with acc := 0xFF, ram := [(0x40, 0x5A)] }
      (fun t => t.acc == 0xFF && Memory.read t.ram 0x40 == 0xA5 && !t.alu.z && t.pc == 0x101) = true := by decide

theorem test_andAX :
    runs 0x0EA5 0x100 1 { start with acc := 0x5A }
      (fun t => t.acc == 0x00 && t.alu.z && t.pc == 0x101) = true ∧
    runs 0x0E80 0x100 1 { start with acc := 0xFF, alu := ⟨true, true, false, true⟩ }
      (fun t => t.acc == 0x80 && t.alu.c && t.alu.ac && !t.alu.z && t.alu.ov && t.pc == 0x101) = true := by decide

theorem test_orAX :
    runs 0x0DA5 0x100 1 { start with acc := 0x5A }
      (fun t => t.acc == 0xFF && !t.alu.z && t.pc == 0x101) = true := by decide

theorem test_xorAX :
    runs 0x0CFF 0x100 1 { start with acc := 0x5A }
      (fun t => t.acc == 0xA5 && !t.alu.z && t.pc == 0x101) = true := by decide

theorem test_cplM :
    runs 0x01C0 0x100 1 { start with ram := [(0x40, 0xFF)] }
      (fun t => Memory.read t.ram 0x40 == 0x00 && t.alu.z && t.pc == 0x101) = true ∧
    runs 0x01C0 0x100 1 { start with ram := [(0x40, 0x5A)] }
      (fun t => Memory.read t.ram 0x40 == 0xA5 && !t.alu.z && t.pc == 0x101) = true := by decide

theorem test_cplaM :
    runs 0x0140 0x100 1 { start with acc := 0x11, ram := [(0x40, 0x0F)] }
      (fun t => t.acc == 0xF0 && Memory.read t.ram 0x40 == 0x0F && !t.alu.z && t.pc == 0x101) = true := by decide

theorem test_incaM :
    runs 0x1440 0x100 1 { start with acc := 0x00, ram := [(0x40, 0x0F)] }
      (fun t => t.acc == 0x10 && Memory.read t.ram 0x40 == 0x0F && !t.alu.z && t.pc == 0x101) = true := by decide

theorem test_incM :
    runs 0x14C0 0x100 1 { start with ram := [(0x40, 0xFF)] }
      (fun t => Memory.read t.ram 0x40 == 0x00 && !t.alu.c && !t.alu.ac && t.alu.z && !t.alu.ov && t.pc == 0x101) = true ∧
    runs 0x14C0 0x100 1 { start with ram := [(0x40, 0x7F)] }
      (fun t => Memory.read t.ram 0x40 == 0x80 && !t.alu.c && !t.alu.ac && !t.alu.z && !t.alu.ov && t.pc == 0x101) = true ∧
    runs 0x1481 0x100 1 { start with mp0 := 0x7F }
      (fun t => t.mp0 == 0x00 && t.alu.z && t.pc == 0x101) = true := by decide

theorem test_decaM :
    runs 0x1540 0x100 1 { start with acc := 0x77, ram := [(0x40, 0x80)] }
      (fun t => t.acc == 0x7F && Memory.read t.ram 0x40 == 0x80 && !t.alu.z && t.pc == 0x101) = true := by decide

theorem test_decM :
    runs 0x15C0 0x100 1 start
      (fun t => Memory.read t.ram 0x40 == 0xFF && !t.alu.c && !t.alu.ac && !t.alu.z && !t.alu.ov && t.pc == 0x101) = true ∧
    runs 0x15C0 0x100 1 { start with ram := [(0x40, 0x01)] }
      (fun t => Memory.read t.ram 0x40 == 0x00 && t.alu.z && t.pc == 0x101) = true := by decide

theorem test_rraM :
    runs 0x1940 0x100 1 { start with acc := 0x00, alu := ⟨true, false, false, false⟩, ram := [(0x40, 0x81)] }
      (fun t => t.acc == 0xC0 && Memory.read t.ram 0x40 == 0x81 && t.alu.c && t.pc == 0x101) = true := by decide

theorem test_rrM :
    runs 0x19C0 0x100 1 { start with ram := [(0x40, 0x01)] }
      (fun t => Memory.read t.ram 0x40 == 0x80 && !t.alu.c && t.pc == 0x101) = true := by decide

theorem test_rrcaM :
    runs 0x1B40 0x100 1 { start with acc := 0x00, alu := ⟨true, false, false, false⟩, ram := [(0x40, 0x03)] }
      (fun t => t.acc == 0x81 && Memory.read t.ram 0x40 == 0x03 && t.alu.c && t.pc == 0x101) = true := by decide

theorem test_rrcM :
    runs 0x1BC0 0x100 1 { start with ram := [(0x40, 0x01)] }
      (fun t => Memory.read t.ram 0x40 == 0x00 && t.alu.c && t.pc == 0x101) = true ∧
    runs 0x1BC0 0x100 1 { start with alu := ⟨true, false, false, false⟩ }
      (fun t => Memory.read t.ram 0x40 == 0x80 && !t.alu.c && t.pc == 0x101) = true := by decide

theorem test_rlaM :
    runs 0x1840 0x100 1 { start with acc := 0x00, ram := [(0x40, 0xC3)] }
      (fun t => t.acc == 0x87 && Memory.read t.ram 0x40 == 0xC3 && !t.alu.c && t.pc == 0x101) = true := by decide

theorem test_rlM :
    runs 0x18C0 0x100 1 { start with ram := [(0x40, 0x80)] }
      (fun t => Memory.read t.ram 0x40 == 0x01 && !t.alu.c && t.pc == 0x101) = true := by decide

theorem test_rlcaM :
    runs 0x1A40 0x100 1 { start with acc := 0x00, alu := ⟨true, false, false, false⟩, ram := [(0x40, 0x55)] }
      (fun t => t.acc == 0xAB && Memory.read t.ram 0x40 == 0x55 && !t.alu.c && t.pc == 0x101) = true := by decide

theorem test_rlcM :
    runs 0x1AC0 0x100 1 { start with ram := [(0x40, 0x80)] }
      (fun t => Memory.read t.ram 0x40 == 0x00 && t.alu.c && !t.alu.z && t.pc == 0x101) = true ∧
    runs 0x1AC0 0x100 1 { start with alu := ⟨true, false, false, false⟩, ram := [(0x40, 0x7F)] }
      (fun t => Memory.read t.ram 0x40 == 0xFF && !t.alu.c && t.pc == 0x101) = true ∧
    runs 0x1A85 0x100 1 { start with acc := 0x80 }
      (fun t => t.acc == 0x00 && t.alu.c && t.pc == 0x101) = true := by decide

theorem test_movAM :
    runs 0x077F 0x100 1 { start with acc := 0xFF }
      (fun t => t.acc == 0x00 && !t.alu.z && t.pc == 0x101) = true ∧
    runs 0x0701 0x100 1 { start with mp0 := 0x45 }
      (fun t => t.acc == 0xC5 && t.pc == 0x101) = true ∧
    runs 0x0700 0x100 1 { start with mp0 := 0x45, ram := [(0x45, 0x99)] }
      (fun t => t.acc == 0x99 && t.pc == 0x101) = true ∧
    runs 0x0700 0x100 1 { start with acc := 0x33, mp0 := 0x00 }
      (fun t => t.acc == 0x00 && t.pc == 0x101) = true ∧
    runs 0x070A 0x100 1 { start with timeOut := true, pdf := false, alu := ⟨true, true, false, true⟩ }
      (fun t => t.acc == 0x2B && t.pc == 0x101) = true ∧
    runs 0x0706 0x1FF 1 start
      (fun t => t.acc == 0x00 && t.pc == 0x200) = true := by decide

theorem test_movMA :
    runs 0x00C0 0x100 1 { start with acc := 0xA5 }
      (fun t => Memory.read t.ram 0x40 == 0xA5 && t.acc == 0xA5 && t.pc == 0x101) = true ∧
    runs 0x0081 0x100 1 { start with acc := 0xC5 }
      (fun t => t.mp0 == 0x45 && t.pc == 0x101) = true ∧
    runs 0x0082 0x100 1 { start with acc := 0x77, mp1 := 0x60, bp := false }
      (fun t => Memory.read t.ram 0x60 == 0x77 && t.pc == 0x101) = true ∧
    runs 0x0082 0x100 1 { start with acc := 0x7B, mp1 := 0x41, bp := true }
      (fun t => Memory.read t.lcd 0x41 == 0x0B && Memory.read t.ram 0x41 == 0x00 && t.pc == 0x101) = true ∧
    stops 0x0082 0x100 .bank1OutsideLcd { start with acc := 0x7B, mp1 := 0x50, bp := true } = true ∧
    runs 0x0080 0x100 1 { start with acc := 0x33, mp0 := 0x02, mp1 := 0x40, ram := [(0x40, 0x11)] }
      (fun t => Memory.read t.ram 0x40 == 0x11 && t.pc == 0x101) = true ∧
    runs 0x008A 0x100 1 { start with acc := 0xFF, timeOut := false, pdf := true }
      (fun t => t.alu.c && t.alu.ac && t.alu.z && t.alu.ov && !t.timeOut && t.pdf && t.pc == 0x101) = true ∧
    runs 0x0088 0x100 1 { start with acc := 0xFF, tblh := 0x2A }
      (fun t => t.tblh == 0x2A && t.pc == 0x101) = true ∧
    runs 0x0086 0x150 2 { start with acc := 0x20 }
      (fun t => t.pc == 0x120) = true ∧
    runs 0x0086 0x1FF 2 { start with acc := 0x20 }
      (fun t => t.pc == 0x220) = true ∧
    runs 0x0080 0x010 2 { start with acc := 0x80, mp0 := 0x06 }
      (fun t => t.pc == 0x080) = true := by decide

theorem test_movAX :
    runs 0x0FA5 0x100 1 { start with acc := 0x00, alu := ⟨false, false, true, false⟩ }
      (fun t => t.acc == 0xA5 && !t.alu.c && !t.alu.ac && t.alu.z && !t.alu.ov && t.pc == 0x101) = true := by decide

theorem test_clrBit :
    runs 0x35C0 0x100 1 { start with ram := [(0x40, 0xFF)] }
      (fun t => Memory.read t.ram 0x40 == 0xF7 && !t.alu.c && !t.alu.ac && !t.alu.z && !t.alu.ov && t.pc == 0x101) = true ∧
    runs 0x3405 0x100 1 { start with acc := 0x01 }
      (fun t => t.acc == 0x00 && !t.alu.z && t.pc == 0x101) = true ∧
    runs 0x3412 0x100 1 { start with paLatch := 0xFF, pins := { start.pins with paDriven := 0xFF, paLevel := 0xF7 } }
      (fun t => t.paLatch == 0xF6 && t.pc == 0x101) = true := by decide

theorem test_setBit :
    runs 0x33C0 0x100 1 start
      (fun t => Memory.read t.ram 0x40 == 0x80 && !t.alu.c && !t.alu.ac && !t.alu.z && !t.alu.ov && t.pc == 0x101) = true ∧
    runs 0x3040 0x100 1 { start with ram := [(0x40, 0xFF)] }
      (fun t => Memory.read t.ram 0x40 == 0xFF && t.pc == 0x101) = true ∧
    runs 0x300B 0x100 1 { start with intc := { start.intc with emi := false, eei := false, eti := false, etbi := false, eif := false, tf := false, tbf := false } }
      (fun t => intc0Byte t == 0x01 && t.pc == 0x101) = true := by decide

theorem test_jmp :
    runs 0x2BFF 0x100 2 start
      (fun t => t.pc == 0x3FF && t.stk == []) = true := by decide

theorem test_szM :
    runs 0x10C0 0x100 2 start
      (fun t => t.pc == 0x102) = true ∧
    runs 0x10C0 0x100 1 { start with ram := [(0x40, 0x01)] }
      (fun t => t.pc == 0x101) = true ∧
    runs 0x10C0 0x3FF 2 start
      (fun t => t.pc == 0x001) = true := by decide

theorem test_szaM :
    runs 0x1040 0x100 2 { start with acc := 0x55 }
      (fun t => t.pc == 0x102 && t.acc == 0x00) = true ∧
    runs 0x1040 0x100 1 { start with acc := 0x55, alu := ⟨false, false, true, false⟩, ram := [(0x40, 0x80)] }
      (fun t => t.pc == 0x101 && t.acc == 0x80 && t.alu.z) = true := by decide

theorem test_szBit :
    runs 0x3C40 0x100 2 { start with ram := [(0x40, 0xFE)] }
      (fun t => t.pc == 0x102) = true ∧
    runs 0x3C40 0x100 1 { start with ram := [(0x40, 0x01)] }
      (fun t => t.pc == 0x101) = true := by decide

theorem test_snzBit :
    runs 0x3BC0 0x100 2 { start with ram := [(0x40, 0x80)] }
      (fun t => t.pc == 0x102) = true ∧
    runs 0x3BC0 0x100 1 { start with ram := [(0x40, 0x7F)] }
      (fun t => t.pc == 0x101) = true ∧
    runs 0x380A 0x100 2 { start with alu := ⟨true, false, false, false⟩ }
      (fun t => t.pc == 0x102) = true := by decide

theorem test_sizM :
    runs 0x16C0 0x100 2 { start with ram := [(0x40, 0xFF)] }
      (fun t => t.pc == 0x102 && Memory.read t.ram 0x40 == 0x00 && !t.alu.z) = true ∧
    runs 0x16C0 0x100 1 start
      (fun t => t.pc == 0x101 && Memory.read t.ram 0x40 == 0x01) = true := by decide

theorem test_sdzM :
    runs 0x17C0 0x100 2 { start with ram := [(0x40, 0x01)] }
      (fun t => t.pc == 0x102 && Memory.read t.ram 0x40 == 0x00) = true ∧
    runs 0x17C0 0x100 1 start
      (fun t => t.pc == 0x101 && Memory.read t.ram 0x40 == 0xFF) = true ∧
    stops 0x1786 0x100 .skipWritesPcl start = true := by decide

theorem test_sizaM :
    runs 0x1640 0x100 2 { start with acc := 0x12, ram := [(0x40, 0xFF)] }
      (fun t => t.pc == 0x102 && t.acc == 0x00 && Memory.read t.ram 0x40 == 0xFF) = true := by decide

theorem test_sdzaM :
    runs 0x1740 0x100 1 { start with acc := 0x12, ram := [(0x40, 0x02)] }
      (fun t => t.pc == 0x101 && t.acc == 0x01 && Memory.read t.ram 0x40 == 0x02) = true := by decide

theorem test_call :
    runs 0x2200 0x100 2 start
      (fun t => t.pc == 0x200 && t.stk == [0x101]) = true ∧
    runs 0x2200 0x100 2 { start with stk := [0x111, 0x222] }
      (fun t => t.pc == 0x200 && t.stk == [0x101, 0x111]) = true ∧
    runs 0x2010 0x3FF 2 start
      (fun t => t.pc == 0x010 && t.stk == [0x000]) = true := by decide

theorem test_ret :
    runs 0x0003 0x100 2 { start with stk := [0x123] }
      (fun t => t.pc == 0x123 && t.stk == []) = true ∧
    stops 0x0003 0x100 .stackUnderflow { start with stk := [] } = true := by decide

theorem test_retAX :
    runs 0x095A 0x100 2 { start with acc := 0x00, stk := [0x123, 0x055] }
      (fun t => t.pc == 0x123 && t.acc == 0x5A && t.stk == [0x055]) = true := by decide

theorem test_reti :
    runs 0x0004 0x100 2 { start with stk := [0x031], intc := { start.intc with emi := false, eei := false, eti := true, etbi := false, eif := false, tf := false, tbf := false } }
      (fun t => t.pc == 0x031 && intc0Byte t == 0x05 && t.stk == []) = true := by decide

theorem test_tabrdc :
    runs 0x1D40 0x120 2 { start with tblp := 0x34, rom := [(0x134, 0x2A5C)] }
      (fun t => Memory.read t.ram 0x40 == 0x5C && t.tblh == 0x2A && t.tblp == 0x34 && t.pc == 0x121) = true ∧
    runs 0x1D40 0x1FF 2 { start with tblp := 0x10, rom := [(0x110, 0x0BCD), (0x210, 0x1234)] }
      (fun t => Memory.read t.ram 0x40 == 0x34 && t.tblh == 0x12 && t.pc == 0x200) = true ∧
    runs 0x1D06 0x040 2 { start with tblp := 0x80, rom := [(0x080, 0x3F33)] }
      (fun t => t.pc == 0x033 && t.tblh == 0x3F) = true := by decide

theorem test_tabrdl :
    runs 0x1D85 0x100 2 { start with tblp := 0x02, rom := [(0x302, 0x3FFF)] }
      (fun t => t.acc == 0xFF && t.tblh == 0x3F && t.pc == 0x101) = true ∧
    runs 0x1DC1 0x100 2 { start with tblp := 0xFF, rom := [(0x3FF, 0x0001)] }
      (fun t => Memory.read t.ram 0x41 == 0x01 && t.tblh == 0x00 && t.pc == 0x101) = true ∧
    runs 0x1D87 0x100 2 { start with tblp := 0x00, rom := [(0x300, 0x15AA)] }
      (fun t => t.tblp == 0xAA && t.tblh == 0x15 && t.pc == 0x101) = true ∧
    runs 0x1D88 0x100 2 { start with tblp := 0x00, rom := [(0x300, 0x15AA)] }
      (fun t => t.tblh == 0x15 && t.pc == 0x101) = true := by decide

theorem test_nop :
    runs 0x0000 0x100 1 { start with acc := 0x12, alu := ⟨true, false, false, false⟩ }
      (fun t => t.pc == 0x101 && t.acc == 0x12 && t.alu.c && !t.alu.ac && !t.alu.z && !t.alu.ov) = true := by decide

theorem test_clrM :
    runs 0x1F06 0x234 2 start
      (fun t => t.pc == 0x200) = true ∧
    runs 0x1F40 0x100 1 { start with ram := [(0x40, 0xA5)] }
      (fun t => Memory.read t.ram 0x40 == 0x00 && !t.alu.z && t.pc == 0x101) = true := by decide

theorem test_setM :
    runs 0x1FC0 0x100 1 start
      (fun t => Memory.read t.ram 0x40 == 0xFF && t.pc == 0x101) = true ∧
    runs 0x1F81 0x100 1 start
      (fun t => t.mp0 == 0x7F && t.pc == 0x101) = true := by decide

theorem test_clrWdt :
    runs 0x0001 0x100 1 { start with timeOut := true, pdf := true }
      (fun t => !t.timeOut && !t.pdf && t.pc == 0x101) = true := by decide

theorem test_swapM :
    runs 0x11C0 0x100 1 { start with ram := [(0x40, 0x1E)] }
      (fun t => Memory.read t.ram 0x40 == 0xE1 && t.pc == 0x101) = true ∧
    runs 0x1185 0x100 1 { start with acc := 0xF0 }
      (fun t => t.acc == 0x0F && !t.alu.c && !t.alu.ac && !t.alu.z && !t.alu.ov && t.pc == 0x101) = true := by decide

theorem test_swapaM :
    runs 0x1140 0x100 1 { start with acc := 0x00, ram := [(0x40, 0xA5)] }
      (fun t => t.acc == 0x5A && Memory.read t.ram 0x40 == 0xA5 && t.pc == 0x101) = true := by decide

theorem test_halt :
    runs 0x0002 0x100 1 { start with timeOut := true, pdf := false }
      (fun t => !t.timeOut && t.pdf && t.pc == 0x101) = true := by decide

/-- The pairs of 95_test_vectors 2.9, from both marks false, TO = 1 and PDF = 1. -/
def pairStart : State :=
  { start with timeOut := true, pdf := true, opts := { start.opts with clrWdtTimes := .two } }

theorem test_clrWdt1 :
    leaves (exec .clrWdt1 pairStart) (fun t => t.wdt.armed1 && !t.wdt.armed2 && t.timeOut && t.pdf) = true ∧
    leaves (andThen (exec .clrWdt2 pairStart) (exec .clrWdt1))
      (fun t => !t.wdt.armed1 && !t.wdt.armed2 && !t.timeOut && !t.pdf && !t.wdt.cnt) = true := by decide

theorem test_clrWdt2 :
    leaves (andThen (exec .clrWdt1 pairStart) (exec .clrWdt2))
      (fun t => !t.wdt.armed1 && !t.wdt.armed2 && !t.timeOut && !t.pdf) = true ∧
    leaves (exec .clrWdt2 { pairStart with opts := start.opts }) (fun t => t.timeOut && !t.wdt.armed2) = true := by decide

/-! ### Device scenarios of 95_test_vectors section 3 -/

/-- A machine with one word at 000H, running. -/
def atWord (w : Word) (s : State) : State := { s with rom := [(0, w)] }

/-- 3.1: the overflow reloads the preload value, requests and toggles the PFD phase; fS is another clock here. -/
theorem test_timer_overflow :
    leaves (step (atWord 0x0000 { start with
        opts := { start.opts with fsSource := .rtcOsc }
        timer := { start.timer with cnt := 0xFF, pre := 0xFD, tm := 0b10, ts := true, ton := true, primed := true } }))
      (fun t => t.timer.cnt == 0xFD && intc0Byte t == 0x20 && t.timer.pfd) = true := by decide

/-- An instruction that turns the timer on, an edge of the TMR pin, then the cycle's ticks (20_memory R120): SET [0EH].4 in
event count mode counts the edge, the ticks placed after it. -/
theorem test_edge_before_tick :
    leaves (step (atWord 0b11001000001110 { start with
        opts := { start.opts with wdtEnable := false }
        timer := { start.timer with tm := 0b01, primed := true }
        inputs := [{ before := [], during := [.event (.tmrPin false), .tick 0] }] }))
      (fun t => t.timer.ton && t.timer.cnt == 0x01 && t.mft == 1 && t.inputs == []) = true := by decide

/-- The timer's tick before the fS tick of one cycle: a pulse width measurement ends between them. -/
theorem test_ticks_in_other_order :
    leaves (step (atWord 0x0000 { start with
        opts := { start.opts with wdtEnable := false }
        timer := { start.timer with tm := 0b11, ts := true, ton := true, primed := true, phase := .counting }
        inputs := [{ before := [], during := [.tick 1, .event (.tmrPin false), .tick 0] }] }))
      (fun t => !t.timer.ton && t.timer.cnt == 0x01 && t.mft == 1) = true := by decide

/-- A read of TMR blocks its clock in the cycle that reads and not in the second cycle of a taken skip (60_exceptions R379):
at the end of the first cycle the block is over. -/
theorem test_block_ends_with_its_cycle :
    leaves (exec (.szM 0x0D) { start with pc := 0x001 }) (fun t => t.tmrBlocked && t.pc == 0x002 &&
      !(applyTick .cycleEnd t).tmrBlocked) = true ∧
    dueTicks 2 start.opts = [.fs, .clock, .cycleEnd, .fs, .clock, .cycleEnd] := by decide

/-- 3.2: the falling edge ends the measurement: TMRC reads E8H. -/
theorem test_pulse_width_stop :
    tmrcByte (applyEvent { start with timer := { start.timer with tm := 0b11, ts := true, ton := true, phase := .counting } }
      (.tmrPin false)) = 0xE8 := by decide

/-- 3.3: the second firing of tap 15 is the time-out: a chip reset with TO set. -/
theorem test_watchdog_resets :
    leaves (step (atWord 0x0000 { start with mft := 0x7FFF, wdt := { start.wdt with cnt := true }, acc := 0x12 }))
      (fun t => t.timeOut && t.pc == 0x000 && t.acc == 0x12 && t.mft == 0 && !t.wdt.cnt) = true := by decide

/-- 3.4, first row: INTC0 = 37H, PC = 123H. -/
theorem test_interrupt_priority :
    (let t := interruptCheck { start with pc := 0x123, intc := { start.intc with
        emi := true, eei := true, eti := true, eif := true, tf := true } }
     t.stk == [0x123] && intc0Byte t == 0x26 && t.pc == 0x004) = true := by decide

/-- 3.4, third row: INTC0 = 25H, INTC1 = 11H, one address on the stack, PC = 200H. -/
theorem test_interrupt_waits :
    (let t := interruptCheck { start with pc := 0x200, stk := [0x050], intc := { start.intc with
        emi := true, eti := true, tf := true, erti := true, rtf := true } }
     t.stk == [0x200, 0x050] && intc0Byte t == 0x04 && intc1Byte t == 0x11 && t.pc == 0x008) = true := by decide

/-- 3.5: a falling edge on INT while halted wakes, sets EIF, and leaves PC where HALT left it. -/
theorem test_wake_by_int :
    leaves (step { start with pc := 0x051, power := .halted, pdf := true, inputs := [{ before := [.intPin false], during := [] }] })
      (fun t => t.intc.eif && t.pc == 0x051 && decide (t.power = .waking 1020)) = true := by decide

/-- 3.5: RES low while halted is a chip reset with TO = 0, PDF = 1. -/
theorem test_reset_pin_in_halt :
    (let t := applyEvent { start with pc := 0x051, power := .halted, pdf := true, intc := { start.intc with emi := true } }
       .resetPin
     t.pc == 0x000 && !t.timeOut && t.pdf && intc0Byte t == 0x00 && decide (t.power = .running)) = true := by decide

/-! ### Witnesses: states and operands that meet the hypotheses of the obligations, each clause at a boundary value -/

/-- DecodeOfEncode: both readings of the word 0001H. -/
theorem test_hyp_wellFormed :
    Instr.wellFormed .one .clrWdt = true ∧ Instr.wellFormed .two .clrWdt1 = true ∧
    Instr.wellFormed .one (.szBit 7 0x7F) = true := by decide

/-- EncodeOfDecode: the last word of all, and the shared one. -/
theorem test_hyp_decodes : decode .one 0x3FFF = .ok (.szBit 7 0x7F) ∧ decode .two 0x0001 = .ok .clrWdt1 := ⟨rfl, rfl⟩

/-- A running machine with one word at PC and nothing pending is at an instruction. -/
theorem test_hyp_atInstruction (w : Word) : AtInstruction (atWord w start) :=
  ⟨rfl, rfl, fun src => by cases src <;> rfl⟩

/-- The same with an event after the instruction. -/
theorem test_hyp_atInstruction_inputs (w : Word) :
    AtInstruction (atWord w { start with inputs := [{ before := [], during := [.event .resetPin] }] }) :=
  ⟨rfl, rfl, fun src => by cases src <;> rfl⟩

/-- UndefinedWordsStop, its parts about a step: the word 0006H at PC, and no word there. -/
theorem test_hyp_undefined_word :
    AtInstruction (atWord 0x0006 start) ∧ Rom.word (atWord 0x0006 start).rom (atWord 0x0006 start).pc = some 0x0006 ∧
    enc (atWord 0x0006 start).opts 0x0006 = .error .noRow ∧
    AtInstruction start ∧ Rom.word start.rom start.pc = none :=
  ⟨test_hyp_atInstruction _, rfl, rfl, ⟨rfl, rfl, fun src => by cases src <;> rfl⟩, rfl⟩

/-- StepRunsInstruction and CyclesCountAndTick: NOP and JMP 3FFH at PC, fS the instruction clock, the watchdog disabled. -/
theorem test_hyp_step :
    (let s := atWord 0x0000 { start with opts := { start.opts with wdtEnable := false } }
     AtInstruction s ∧ Rom.word s.rom s.pc = some 0x0000 ∧ enc s.opts 0x0000 = .ok .nop ∧
     s.opts.fsSource = .fsysDiv4 ∧ s.opts.wdtEnable = false) ∧
    (let s := atWord 0x2BFF { start with opts := { start.opts with wdtEnable := false } }
     AtInstruction s ∧ Rom.word s.rom s.pc = some 0x2BFF ∧ enc s.opts 0x2BFF = .ok (.jmp 0x3FF)) :=
  ⟨⟨⟨rfl, rfl, fun src => by cases src <;> rfl⟩, rfl, rfl, rfl, rfl⟩,
   ⟨rfl, rfl, fun src => by cases src <;> rfl⟩, rfl, rfl⟩

/-- StepKeepsLegal and ProgramAndOptionsNeverChange: a legal state whose step goes on. -/
theorem test_hyp_legal_step :
    Legal (atWord 0x0000 { start with ram := [(0x40, 0x01), (0x7F, 0x02)], stk := [0x001, 0x002] }) ∧
    goesOn (step (atWord 0x0000 { start with ram := [(0x40, 0x01), (0x7F, 0x02)], stk := [0x001, 0x002] })) = true :=
  ⟨⟨by unfold StackBounded; decide, by unfold RamLegal; decide, by unfold LcdLegal; decide,
    by unfold TimerModeLegal; decide, by unfold WdtMarksExclusive; decide, .inl rfl, (fun n h => nomatch h),
    by unfold RomLegal; decide⟩, by decide⟩

/-- Readable operands: a direct one, one through MP0, one through MP1 into each bank, the first and last display byte. -/
theorem test_hyp_readable :
    Readable 0x7F start ∧ Readable 0x00 { start with mp0 := 0x40 } ∧ Readable 0x02 { start with mp1 := 0x7F } ∧
    Readable 0x02 { start with bp := true, mp1 := 0x40 } ∧ Readable 0x02 { start with bp := true, mp1 := 0x4E } ∧
    Readable 0x0A start ∧ Readable 0x06 start := by decide

/-- Writable operands, TMRC with the timer off and with the timer on in each mode among them. -/
theorem test_hyp_writable :
    Writable 0x40 0xFF start ∧ Writable 0x0E 0x00 start ∧ Writable 0x0E 0x50 start ∧ Writable 0x0E 0x90 start ∧
    Writable 0x0E 0xD0 start ∧ Writable 0x0E 0x2F start ∧ Writable 0x02 0xFF { start with bp := true, mp1 := 0x4E } := by
  decide

/-- AddsToMemory and SubtractsToMemory: sums and differences at the ends of their ranges, written to [40H] = FFH. -/
theorem test_hyp_sums :
    (let s : State := { start with acc := 0x01, ram := [(0x40, 0xFF)], alu := ⟨true, false, false, false⟩ }
     IsSum s.acc (operand 0x40 s) 0 0x00 ⟨true, true, true, false⟩ ∧ Writable 0x40 0x00 s ∧
     IsSum s.acc (operand 0x40 s) s.alu.c.toNat 0x01 ⟨true, true, false, false⟩ ∧ Writable 0x40 0x01 s ∧
     IsDifference s.acc (operand 0x40 s) 0 0x02 ⟨false, false, false, false⟩ ∧ Writable 0x40 0x02 s) ∧
    (let s : State := { start with acc := 0x80 }
     IsDifference s.acc (operand 0x40 s) (1 - s.alu.c.toNat) 0x7F ⟨true, false, false, true⟩ ∧ Writable 0x40 0x7F s) := by
  decide

/-- OverflowIsSigned: the instructions it speaks of go on. -/
theorem test_hyp_overflow :
    goesOn (exec (.addAX 0x7F) { start with acc := 0x7F }) = true ∧
    goesOn (exec (.subAX 0x80) { start with acc := 0x7F }) = true ∧
    Readable 0x40 start ∧ goesOn (exec (.adcAM 0x40) { start with alu := ⟨true, false, false, false⟩ }) = true := by decide

/-- DaaAdjusts: ACC = 9AH adjusts to 00H with a carry. -/
theorem test_hyp_daa :
    (let s : State := { start with acc := 0x9A }
     0xA0 = s.acc.toNat + (if 9 < s.acc.toNat % 16 ∨ s.alu.ac = true then 6 else 0) ∧
     0xA0 = (if s.opts.daaTest = .sequential then 0xA0 else s.acc.toNat) ∧
     0x100 = 0xA0 + (if 9 < 0xA0 / 16 ∨ s.alu.c = true then 0x60 else 0) ∧ (0x00 : Byte).toNat = 0x100 % 256 ∧
     Writable 0x40 0x00 s) := by decide

/-- BcdAdditionIsCorrect: 99 + 99 + 1 through [40H] and through [7FH]. -/
theorem test_hyp_bcd :
    (let s : State := { start with acc := 0x99, ram := [(0x40, 0x99), (0x7F, 0x99)], alu := ⟨true, false, false, false⟩ }
     s.opts.daaTest = .sequential ∧ IsBcd s.acc ∧ IsBcd (Memory.read s.ram 0x40) ∧ IsBcd (Memory.read s.ram 0x7F) ∧
     goesOn (andThen (exec (.adcAM (BitVec.ofNat 7 0x40)) s) (exec (.daaM 0x05))) = true ∧
     goesOn (andThen (exec (.adcAM (BitVec.ofNat 7 0x7F)) s) (exec (.daaM 0x05))) = true) := by decide

/-- ACC = D0H: with bit 4 set, and a mode. -/
def loaded : State := { start with acc := 0xD0 }

/-- LogicToMemory, each clause: TMRC as the operand, so that both halves of `Writable` matter. -/
theorem test_hyp_logic :
    Writable 0x0E (loaded.acc &&& operand 0x0E loaded) loaded ∧ Writable 0x0E (loaded.acc ||| operand 0x0E loaded) loaded ∧
    Writable 0x0E (loaded.acc ^^^ operand 0x0E loaded) loaded ∧ Writable 0x0E (~~~operand 0x0E loaded) loaded := by decide

/-- StoresBytes, each clause, on TMRC. -/
theorem test_hyp_stores :
    Writable 0x0E loaded.acc loaded ∧ Writable 0x0E 0x00 loaded ∧ Writable 0x0E 0xFF loaded ∧
    NibblesSwapped (operand 0x0E loaded) 0x80 ∧ Writable 0x0E 0x80 loaded := by decide

/-- IncrementsToAcc, IncrementsMemory, LoadsSkip and CountsSkip: FFH plus one, 00H less one, neither on PCL. -/
theorem test_hyp_increments :
    (let s : State := { start with ram := [(0x40, 0xFF)] }
     Readable 0x40 s ∧ (0x00 : Byte).toNat = ((operand 0x40 s).toNat + 1) % 256 ∧ Writable 0x40 0x00 s ∧
     locate 0x40 s ≠ .pcl ∧ (0xFF : Byte).toNat = ((operand 0x41 s).toNat + 255) % 256 ∧ Writable 0x41 0xFF s ∧
     locate 0x41 s ≠ .pcl) := by decide

/-- RotatesToAcc and RotatesMemory: 81H rotated each way, with and without carry. -/
theorem test_hyp_rotates :
    (let s : State := { start with ram := [(0x40, 0x81)] }
     Readable 0x40 s ∧ RotatedRight ((operand 0x40 s).getLsbD 0) (operand 0x40 s) 0xC0 ∧ Writable 0x40 0xC0 s ∧
     RotatedRight s.alu.c (operand 0x40 s) 0x40 ∧ Writable 0x40 0x40 s ∧
     RotatedLeft ((operand 0x40 s).getLsbD 7) (operand 0x40 s) 0x03 ∧ Writable 0x40 0x03 s ∧
     RotatedLeft s.alu.c (operand 0x40 s) 0x02 ∧ Writable 0x40 0x02 s) := by decide

/-- MovesToAcc: a byte and the byte with its nibbles exchanged. -/
theorem test_hyp_swap : Readable 0x40 start ∧ NibblesSwapped (operand 0x40 { start with ram := [(0x40, 0x1E)] }) 0xE1 := by
  decide

/-- BitOperations: bit 7 set in 00H and cleared in FFH, the other seven as read. -/
theorem test_hyp_bits :
    Writable 0x40 0x80 start ∧ (∀ j < 8, j ≠ (7 : BitNo).toNat → (0x80 : Byte).getLsbD j = (operand 0x40 start).getLsbD j) ∧
    (0x80 : Byte).getLsbD (7 : BitNo).toNat = true ∧
    (let s : State := { start with ram := [(0x40, 0xFF)] }
     Writable 0x40 0x7F s ∧ (∀ j < 8, j ≠ (7 : BitNo).toNat → (0x7F : Byte).getLsbD j = (operand 0x40 s).getLsbD j) ∧
     (0x7F : Byte).getLsbD (7 : BitNo).toNat = false) := by decide

/-- JumpsAndCalls and ReturnsPopPc: the empty stack, one address, the full stack. -/
theorem test_hyp_stacks :
    start.stk.length < 2 ∧ start.stk = [] ∧ ({ start with stk := [0x3FF] } : State).stk.length < 2 ∧
    ({ start with stk := [0x111, 0x222] } : State).stk = [0x111, 0x222] := by decide

/-- CallsNestTwoDeep: the three calls go on from an empty stack. -/
theorem test_hyp_nested_calls :
    start.stk = [] ∧ goesOn (exec (.call 0x010) { start with pc := 0x001 }) = true ∧
    goesOn (andThen (exec (.call 0x010) { start with pc := 0x001 }) fun t =>
      andThen (exec (.call 0x020) { t with pc := 0x011 }) fun u => exec (.call 0x030) { u with pc := 0x021 }) = true := by
  decide

/-- TableReadsSplitTheWord: a word in the page of the following address, and the last word of the last page. -/
theorem test_hyp_tables :
    (let s : State := { start with pc := 0x121, tblp := 0x34, rom := [(0x134, 0x2A5C)] }
     Rom.word s.rom 0x134 = some 0x2A5C ∧ (0x5C : Byte).toNat = (0x2A5C : Word).toNat % 256 ∧ Writable 0x40 0x5C s ∧
     s.opts.pageBase = .following ∧ (0x134 : ProgAddr).toNat = s.pc.toNat / 256 * 256 + s.tblp.toNat) ∧
    (let s : State := { start with pc := 0x200, tblp := 0x10, opts := { start.opts with pageBase := .itself } }
     Rom.word s.rom 0x110 = none ∧ s.opts.pageBase = .itself ∧
     (0x110 : ProgAddr).toNat = (s.pc - 1).toNat / 256 * 256 + s.tblp.toNat) ∧
    (let s : State := { start with tblp := 0xFF, rom := [(0x3FF, 0x0001)] }
     Rom.word s.rom 0x3FF = some 0x0001 ∧ (0x01 : Byte).toNat = (0x0001 : Word).toNat % 256 ∧ Writable 0x41 0x01 s ∧
     (0x3FF : ProgAddr).toNat = 0x300 + s.tblp.toNat) := by decide

/-- NopAndClearWatchdog and WatchdogPairClears, each clause: the options that select them. -/
theorem test_hyp_clears :
    start.opts.clrWdtTimes = .one ∧ start.opts.wdtEnable = true ∧ pairStart.opts.clrWdtTimes = .two ∧
    pairStart.opts.wdtEnable = true ∧ pairStart.wdt.armed1 = false ∧ pairStart.wdt.armed2 = false ∧
    (let o : Config.Options := { start.opts with wdtEnable := false, wdtDisabledClrFlags := false }
     ({ start with opts := o } : State).opts.wdtEnable = false ∧ o.wdtDisabledClrFlags = false) ∧
    ({ start with opts := { start.opts with wdtEnable := false } } : State).opts.wdtDisabledClrFlags = true := by
  decide

/-- OperandsResolve, each clause at the ends of its range; MP0 = 06H reaches PCL. -/
theorem test_hyp_resolve :
    (({ start with mp0 := 0x06 } : State).mp0 = 0x06 ∧ (0x06 : DataAddr) ≠ 0x00 ∧ (0x06 : DataAddr) ≠ 0x02 ∧
     ({ start with mp0 := 0x02 } : State).mp0 = 0x02 ∧ start.mp0 = 0x00) ∧
    (start.bp = false ∧ ({ start with mp1 := 0x3F } : State).mp1 = 0x3F ∧ start.mp1 = 0x00) ∧
    0x40 ≤ ({ start with mp0 := 0x40 } : State).mp0.toNat ∧ 0x40 ≤ ({ start with mp1 := 0x7F } : State).mp1.toNat ∧
    (let s : State := { start with bp := true, mp1 := 0x4E }
     s.bp = true ∧ 0x40 ≤ s.mp1.toNat ∧ s.mp1.toNat ≤ 0x4E) ∧
    0x40 ≤ (0x7F : DataAddr).toNat ∧ (0x0C : DataAddr).toNat = 0x0C ∧ (0x0F : DataAddr).toNat = 0x0F ∧
    (0x13 : DataAddr).toNat = 0x13 ∧ (0x15 : DataAddr).toNat = 0x15 ∧ (0x3F : DataAddr).toNat = 0x3F ∧
    (0x01 : DataAddr) ≠ 0x00 ∧ (0x01 : DataAddr) ≠ 0x02 := by decide

/-- IndirectRegisterIsEmpty and Bank1HoleStops, each clause. -/
theorem test_hyp_pointers :
    start.mp0 = 0x00 ∧ start.mp1 = 0x00 ∧ start.bp = false ∧ ({ start with mp0 := 0x02 } : State).mp0 = 0x02 ∧
    (let s : State := { start with bp := true, mp1 := 0x3F }
     s.bp = true ∧ s.mp1.toNat < 0x40) ∧
    (let s : State := { start with bp := true, mp1 := 0x4F }
     s.bp = true ∧ 0x4E < s.mp1.toNat) := by decide

/-- UndefinedWritesStop, each clause; TMRC and PCL are reached directly and through MP0. -/
theorem test_hyp_undefined_writes :
    locate 0x0E start = .tmrc ∧ locate 0x00 { start with mp0 := 0x0E } = .tmrc ∧ start.timer.tm = 0 ∧
    ((0x3F : Byte).getLsbD 4 = true ∧ (0x3F : Byte).toNat < 64) ∧ locate 0x06 start = .pcl ∧
    locate 0x00 { start with mp0 := 0x06 } = .pcl := by decide

/-- RamReadsWhatWasStored: stored directly, read through MP0, at both ends of the memory. -/
theorem test_hyp_ram :
    (let s : State := { start with acc := 0xA5, mp0 := 0x7F }
     locate 0x7F s = .ram 0x7F ∧ locate 0x00 s = .ram 0x7F ∧ locate 0x40 s = .ram 0x40 ∧
     leaves (andThen (exec (.movMA 0x7F) s) (exec (.movAM 0x00))) (fun u => u.acc == s.acc) = true) := by decide

/-- StatusSaveRestore, StatusAsData and TblhAndLcdAreReachedOneWay: instructions that go on. -/
theorem test_hyp_status :
    goesOn (exec (.movAM 0x0A) start) = true ∧ goesOn (exec (.movMA 0x0A) start) = true ∧ start.bp = false ∧
    goesOn (exec (.setM 0x0A) start) = true := by decide

/-- One source alone requesting, everything enabled, with one word at its entry address. -/
def requesting (src : Source) (w : Word) : State :=
  { start with
    intc := { setRequest src true start.intc with emi := true, eei := true, eti := true, etbi := true, erti := true }
    rom := [((vector src).toNat, w)] }

/-- InterruptEntry, StepEntersHandler and InterruptThenReti: one source alone acknowledgeable, for each source. -/
theorem test_hyp_requests (src : Source) :
    (requesting src 0x0004).power = .running ∧ (requesting src 0x0004).inputs = [] ∧
    acknowledgeable src (requesting src 0x0004) = true ∧
    (∀ other, other ≠ src → acknowledgeable other (requesting src 0x0004) = false) ∧
    Rom.word (requesting src 0x0004).rom (vector src) = some 0x0004 ∧
    enc (requesting src 0x0004).opts 0x0004 = .ok .reti := by
  refine ⟨rfl, rfl, ?_, ?_, ?_, rfl⟩
  · cases src <;> rfl
  · intro other; cases src <;> cases other <;> first | (intro h; exact absurd rfl h) | (intro _; rfl)
  · cases src <;> rfl

/-- FullStackHoldsInterrupts, each clause: two addresses with a request, and EMI clear. -/
theorem test_hyp_full_stack :
    ({ requesting .ext 0x0004 with stk := [0x001, 0x002] } : State).stk.length = 2 ∧ start.intc.emi = false := by decide

/-- TimerCountsAndReloads and EventModeCountsEdges: an enabled, primed timer at FEH and at FFH, in event count mode. -/
theorem test_hyp_timer :
    (let s : State := { start with timer := { start.timer with cnt := 0xFE, tm := 0b01, ton := true, primed := true } }
     s.timer.ton = true ∧ s.timer.primed = true ∧ s.tmrBlocked = false ∧ s.timer.cnt ≠ 0xFF ∧ s.timer.tm = 0b01 ∧
     (false ≠ s.pins.tmr ∧ false = !s.timer.te)) ∧
    ({ start with timer := { start.timer with cnt := 0xFF } } : State).timer.cnt = 0xFF := by decide

/-- TimerCountsAndReloads, its clauses on the internal clock: each mode, both settings of TS, the tap of RT = 7 firing and
not. -/
theorem test_hyp_internal_clock :
    start.timer.ton = false ∧ (start.timer.ts = false ∧ start.mft.toNat % 2 ^ (8 + start.rtcc.rt.toNat) = 0) ∧
    ({ start with mft := 1 } : State).mft.toNat % 2 ^ (8 + start.rtcc.rt.toNat) ≠ 0 ∧
    ({ start.timer with tm := 0b10, ts := true } : Timer).ts = true ∧ ({ start.timer with tm := 0b10 } : Timer).tm = 0b10 ∧
    (let m : Timer := { start.timer with tm := 0b11, phase := .counting }
     m.tm = 0b11 ∧ m.phase = .counting) ∧
    (let m : Timer := { start.timer with tm := 0b11, phase := .armed }
     m.tm = 0b11 ∧ m.phase ≠ .counting) ∧ ({ start.timer with tm := 0b01 } : Timer).tm = 0b01 := by decide

/-- TimerCountsAndReloads, its last clause: a NOP beside a timer at its last value, fS another clock. -/
theorem test_hyp_timer_step :
    (let s := atWord 0x0000 { start with
        opts := { start.opts with fsSource := .rtcOsc }
        timer := { start.timer with cnt := 251, tm := 0b10, ts := true, ton := true, primed := true } }
     AtInstruction s ∧ s.inputs = [] ∧ Rom.word s.rom s.pc = some 0x0000 ∧ enc s.opts 0x0000 = .ok .nop ∧
     s.opts.fsSource ≠ .fsysDiv4 ∧ s.timer.tm = 0b10 ∧ s.timer.ton = true ∧ s.timer.primed = true ∧
     s.timer.cnt.toNat < 252) :=
  ⟨⟨rfl, rfl, fun src => by cases src <;> rfl⟩, rfl, rfl, rfl, by decide, rfl, rfl, rfl, by decide⟩

/-- PulseWidthMeasuresOnce: armed at a low pin with TE = 1, at a high one with TE = 0. -/
theorem test_hyp_pulse (te : Bool) :
    (let s : State := { start with
        timer := { start.timer with tm := 0b11, ton := true, te := te, phase := .armed }
        pins := { start.pins with tmr := !te } }
     s.timer.tm = 0b11 ∧ s.timer.te = te ∧ s.timer.ton = true ∧ s.timer.phase = .armed ∧ s.pins.tmr = !te) :=
  ⟨rfl, rfl, rfl, rfl, rfl⟩

/-- FsTickFiresTaps: no time-out comes, one tick before tap 15 fires with the watchdog stage clear. -/
theorem test_hyp_taps : watchdogExpires { start with mft := 0x7FFF } = false ∧ watchdogExpires start = false := by decide

/-- WatchdogTimesOutInRange and WatchdogTimeOutResets, both power states. -/
theorem test_hyp_watchdog :
    start.opts.wdtEnable = true ∧
    (let s : State := { start with mft := 0x7FFF, wdt := { start.wdt with cnt := true } }
     s.opts.wdtEnable = true ∧ s.wdt.cnt = true ∧ s.power = .running ∧ watchdogExpires s = true) ∧
    (let s : State := { start with mft := 0x7FFF, wdt := { start.wdt with cnt := true }, power := .halted }
     s.opts.wdtEnable = true ∧ s.wdt.cnt = true ∧ s.power = .halted ∧ watchdogExpires s = true) := by decide

/-- ChipResetsByKind, its last clause: the default keeps the memories. -/
theorem test_hyp_resets : ResetKind.resNormal ≠ .powerOn ∧ start.opts.ramAfterReset = .unchanged := by decide

/-- ChipResetsByKind, its events: running and halted, the low voltage reset selected and not. -/
theorem test_hyp_reset_events :
    start.power = .running ∧ ({ start with power := .halted } : State).power = .halted ∧ start.opts.lvrEnable = true ∧
    ({ start with opts := { start.opts with lvrEnable := false } } : State).opts.lvrEnable = false := by decide

/-- WakeUpEvents, each clause: EIF clear, EIF set, and pin 7 selected, driven high, going low. -/
theorem test_hyp_wake :
    (let s : State := { start with power := .halted }
     s.power = .halted ∧ s.pins.int = true ∧ s.intc.eif = false) ∧
    ({ start with power := .halted, intc := { start.intc with eif := true } } : State).intc.eif = true ∧
    (let s : State := { start with
        power := .halted, opts := { start.opts with paWake := 0x81 }
        pins := { start.pins with paDriven := 0xFF, paLevel := 0x81 } }
     s.opts.paWake.getLsbD 7 = true ∧ s.opts.paWake.getLsbD 0 = true ∧ s.opts.paCmos = 0 ∧ s.paLatch.getLsbD 7 = true ∧
     s.pins.paDriven = 0xFF ∧ s.pins.paLevel.getLsbD 7 = true ∧ (0x7F : Byte).getLsbD 7 = false) := by decide

/-- HaltAndStartUpDelay, both clauses. -/
theorem test_hyp_halt :
    (let s : State := { start with power := .halted }
     s.inputs = [] ∧ s.timer.ton = false ∧ s.tmrBlocked = false ∧ s.power = .halted ∧ s.opts.oscType ≠ .rtc32k) ∧
    (let s : State := { start with power := .waking 1024, opts := { start.opts with fsSource := .wdtOsc } }
     s.inputs = [] ∧ s.timer.ton = false ∧ s.tmrBlocked = false ∧ s.power = .waking 1024 ∧
     s.opts.fsSource ≠ .fsysDiv4 ∧ s.timer.ts = false) := by decide

/-- CyclesCountAndTick, the skips: each goes on, at a byte for which it skips and one for which it does not. -/
theorem test_hyp_cycles :
    ((skips 0x40 0 start).all fun p => goesOn (exec p.1 start)) = true ∧
    ((skips 0x40 0 { start with ram := [(0x40, 1)] }).all fun p => goesOn (exec p.1 { start with ram := [(0x40, 1)] })) = true ∧
    ((skips 0x40 0 start).map (·.2) = [true, true, true, false, false, false, false, false]) ∧
    ((skips 0x40 0 { start with ram := [(0x40, 1)] }).map (·.2) = [false, false, false, true, false, true, false, true]) ∧
    ((skips 0x40 0 { start with ram := [(0x40, 255)] }).map (·.2) = [false, false, false, true, true, false, true, false]) := by
  decide

/-- CyclesCountAndTick, its last part: HALT and NOP at PC go on. -/
theorem test_hyp_divider :
    (let s := atWord 0x0002 { start with opts := { start.opts with wdtEnable := false } }
     AtInstruction s ∧ s.inputs = [] ∧ enc s.opts 0x0002 = .ok .halt ∧ s.opts.fsSource = .fsysDiv4 ∧
     goesOn (exec .halt { s with pc := s.pc + 1, tmrBlocked := false }) = true) ∧
    goesOn (exec .nop start) = true :=
  ⟨⟨⟨rfl, rfl, fun src => by cases src <;> rfl⟩, rfl, rfl, rfl, rfl⟩, rfl⟩

/-- PortAIsOpenDrain, each clause: a latch 0, a pin driven low, one driven high, one undriven with a pull-high. -/
theorem test_hyp_port :
    (let s : State := { start with paLatch := 0xFE, pins := { start.pins with paDriven := 0x06, paLevel := 0x04 } }
     s.opts.paCmos = 0 ∧ s.paLatch.getLsbD 0 = false ∧
     (s.pins.paDriven.getLsbD 1 = true ∧ s.pins.paLevel.getLsbD 1 = false) ∧
     (s.paLatch.getLsbD 2 = true ∧ s.pins.paDriven.getLsbD 2 = true ∧ s.pins.paLevel.getLsbD 2 = true) ∧
     (s.paLatch.getLsbD 3 = true ∧ s.pins.paDriven.getLsbD 3 = false ∧ s.opts.paPullHigh.getLsbD 3 = true)) := by decide

/-- BuzzerAndPfdPads, each clause: the latch bits and the timer as its rows ask. -/
theorem test_hyp_buzzer :
    (let s : State := { start with
        opts := { start.opts with paCmos := 0xF, pa01Buzzer := true, pa3Pfd := true }, paLatch := 0x0A }
     s.opts.paCmos = 0xF ∧ s.opts.pa01Buzzer = true ∧ s.opts.pa3Pfd = true ∧
     s.paLatch.getLsbD 0 = false ∧ s.paLatch.getLsbD 1 = true ∧ s.paLatch.getLsbD 3 = true) ∧
    start.paLatch.getLsbD 0 = true ∧
    (let s : State := { start with paLatch := 0x00, timer := { start.timer with ton := true } }
     s.paLatch.getLsbD 0 = false ∧ s.paLatch.getLsbD 1 = false ∧ s.paLatch.getLsbD 3 = false ∧ s.timer.ton = true) := by
  decide

end Sys2Proof.Tests
end

/-! The step at an instruction boundary: with no event before the check and no request acknowledged, the state the word is
fetched in is the state itself, its boundary taken off the inputs. -/

namespace Sys2Proof.Proofs

open Sys2Proof.Machine Sys2Proof.Safety

section
variable {s : State}

/-- With no event before the boundary, taking the inputs only takes the boundary off them. -/
theorem takeInputs_of_before_nil (h : (nextBoundary s).before = []) :
    takeInputs s = { s with inputs := s.inputs.tail } := by
  simp [takeInputs, h]

/-- With nothing to acknowledge the interrupt check changes nothing (60_exceptions R340). -/
theorem interruptCheck_of_none (h : ∀ src, acknowledgeable src s = false) : interruptCheck s = s := by
  obtain ⟨hsame, -⟩ | ⟨src, hack, -⟩ := interruptCheck_cases s
  · exact hsame
  · simp [h src] at hack

/-- A running machine with nothing to acknowledge fetches and runs in the state as it is (60_exceptions R340). -/
theorem boundary_of_running (hs : List Happening) (hrun : s.power = .running)
    (hnone : ∀ src, acknowledgeable src s = false) : boundary hs s = fetchAndRun hs s := by
  simp [boundary, hrun, interruptCheck_of_none hnone]

/-- A word that ENC reads as an instruction is run in the state after the fetch (00_scope R16). -/
theorem fetchAndRun_of_enc (hs : List Happening) {w : Word} {i : Instr} (hw : Rom.word s.rom s.pc = some w)
    (hi : enc s.opts w = .ok i) : fetchAndRun hs s = runInstr hs i (afterFetch s) := by
  simp [fetchAndRun, hw, hi]

/-- At an instruction boundary with nothing to acknowledge the step is the fetch at PC and what follows it. -/
theorem step_of_atInstruction (h : AtInstruction s) :
    step s = fetchAndRun (nextBoundary s).during { s with inputs := s.inputs.tail } := by
  obtain ⟨hrun, hbefore, hnone⟩ := h
  rw [step, takeInputs_of_before_nil hbefore]
  exact boundary_of_running _ hrun hnone

/-- The instruction ENC reads at PC is what the step runs, in the state after the fetch (00_scope R16, 10_state R32). -/
theorem step_of_enc {w : Word} {i : Instr} (h : AtInstruction s) (hw : Rom.word s.rom s.pc = some w)
    (hi : enc s.opts w = .ok i) :
    step s = runInstr (nextBoundary s).during i
      { s with pc := s.pc + 1, tmrBlocked := false, inputs := s.inputs.tail } :=
  (step_of_atInstruction h).trans (fetchAndRun_of_enc (s := { s with inputs := s.inputs.tail }) _ hw hi)

end

/-- Settles O5: the step is `runInstr` in the state after the fetch, which goes on or stops as the instruction does. -/
theorem stepRunsInstruction : Obligations.StepRunsInstruction := by
  intro s w i hat hw hi
  rw [step_of_enc hat hw hi, runInstr]
  cases exec i { s with pc := s.pc + 1, tmrBlocked := false, inputs := s.inputs.tail } with
  | next t => rw [andThen_of_next]
  | fault f => rw [andThen_of_fault]
  | refused r => rw [andThen_of_refused]

end Sys2Proof.Proofs

/-! The stack instructions: what CALL pushes with room and on a full stack, what the returns pop and where they stop
(10_state R36, R37). -/

namespace Sys2Proof.Proofs

open Sys2Proof.Machine

section
variable {s t u v : State}

/-! ### The stack operations -/

/-- A push on a full stack drops the oldest address (10_state R36, 92_eei D4). -/
theorem push_of_full (p newer older : ProgAddr) : push p [newer, older] = [p, newer] := rfl

theorem returnThen_of_cons (k : State → State) {p : ProgAddr} {rest : List ProgAddr} (h : s.stk = p :: rest) :
    returnThen k s = .next (k { s with pc := p, stk := rest }) :=
  returnThen_next.mpr ⟨p, rest, h, rfl⟩

/-- A return on an empty stack stops by name (10_state R37, 92_eei D5). -/
theorem returnThen_of_nil (k : State → State) (h : s.stk = []) : returnThen k s = .fault .stackUnderflow := by
  rw [returnThen, h]

/-! ### The instructions on the stack -/

theorem exec_jmp (addr : ProgAddr) (s : State) : exec (.jmp addr) s = .next { s with pc := addr } := rfl

theorem exec_call (addr : ProgAddr) (s : State) :
    exec (.call addr) s = .next { s with pc := addr, stk := push s.pc s.stk } := rfl

theorem exec_ret (s : State) : exec .ret s = returnThen (fun s' => s') s := rfl

theorem exec_retAX (x : Byte) (s : State) : exec (.retAX x) s = returnThen (fun s' => { s' with acc := x }) s := rfl

theorem exec_reti (s : State) :
    exec .reti s = returnThen (fun s' => { s' with intc := { s'.intc with emi := true } }) s := rfl

theorem call_of_room (addr : ProgAddr) (h : s.stk.length < 2) :
    exec (.call addr) s = .next { s with pc := addr, stk := s.pc :: s.stk } := by
  rw [exec_call, push_of_room h]

theorem call_of_full (addr : ProgAddr) {newer older : ProgAddr} (h : s.stk = [newer, older]) :
    exec (.call addr) s = .next { s with pc := addr, stk := [s.pc, newer] } := by
  rw [exec_call, h, push_of_full]

theorem stk_of_call {addr : ProgAddr} (h : exec (.call addr) s = .next t) : t.stk = push s.pc s.stk := by
  rw [exec_call] at h
  cases h
  rfl

theorem ret_of_cons {p : ProgAddr} {rest : List ProgAddr} (h : s.stk = p :: rest) :
    exec .ret s = .next { s with pc := p, stk := rest } := by
  rw [exec_ret, returnThen_of_cons _ h]

theorem ret_of_nil (h : s.stk = []) : exec .ret s = .fault .stackUnderflow := by
  rw [exec_ret, returnThen_of_nil _ h]

/-! ### Nesting -/

/-- A call with room pushes exactly what the return pops, so the return undoes it. -/
theorem ret_of_call {addr : ProgAddr} (hroom : s.stk.length < 2) (h : exec (.call addr) s = .next t) :
    exec .ret t = .next s := by
  rw [call_of_room addr hroom] at h
  cases h
  exact ret_of_cons rfl

/-- After three nested calls from an empty stack only the two newest return addresses are left. -/
theorem stk_of_three_calls {a b c p q r : ProgAddr} (hempty : s.stk = [])
    (ha : exec (.call a) { s with pc := p } = .next t) (hb : exec (.call b) { t with pc := q } = .next u)
    (hc : exec (.call c) { u with pc := r } = .next v) : v.stk = [r, q] :=
  calc v.stk
    _ = push r u.stk := stk_of_call hc
    _ = push r (push q t.stk) := by rw [stk_of_call hb]
    _ = push r (push q (push p s.stk)) := by rw [stk_of_call ha]
    _ = push r [q, p] := by rw [hempty]; rfl
    _ = [r, q] := push_of_full r q p

end

/-- Settles O27: a return pops what the call pushed, and three calls leave two addresses for three returns. -/
theorem callsNestTwoDeep : Obligations.CallsNestTwoDeep := by
  refine ⟨fun addr s t hroom hcall => ret_of_call hroom hcall, ?_⟩
  intro a b c p q r s t u v hempty ha hb hc
  have hstk : v.stk = [r, q] := stk_of_three_calls hempty ha hb hc
  exact ⟨_, _, ret_of_cons hstk, rfl, ret_of_cons rfl, rfl, ret_of_nil rfl⟩

/-- Settles O25: the push with room and the push on a full stack. -/
theorem jumpsAndCalls : Obligations.JumpsAndCalls :=
  fun addr s => ⟨exec_jmp addr s, call_of_room addr, fun _ _ hfull => call_of_full addr hfull⟩

/-- Settles O26: each return is `returnThen`, which pops a non-empty stack and stops on an empty one. -/
theorem returnsPopPc : Obligations.ReturnsPopPc := by
  constructor
  · intro p rest s hstk
    exact ⟨ret_of_cons hstk, fun x => (exec_retAX x s).trans (returnThen_of_cons _ hstk),
      (exec_reti s).trans (returnThen_of_cons _ hstk)⟩
  · intro s hempty
    exact ⟨ret_of_nil hempty, fun x => (exec_retAX x s).trans (returnThen_of_nil _ hempty),
      (exec_reti s).trans (returnThen_of_nil _ hempty)⟩

end Sys2Proof.Proofs

/-! The data space: where each operand field leads, through a pointer or directly, and what an access to an indirect
addressing register does (20_memory R104, R105, R108). -/

namespace Sys2Proof.Proofs

open Sys2Proof.Machine Sys2Proof.Claims

section
variable {m a : DataAddr} {s : State}

/-! ### Where an operand field leads -/

theorem locate_via_mp0 (s : State) : locate 0x00 s = bank0 s.mp0 := rfl

theorem locate_via_mp1_bank0 (hbp : s.bp = false) : locate 0x02 s = bank0 s.mp1 := by
  simp [locate, hbp]

theorem locate_via_mp1_bank1 (hbp : s.bp = true) : locate 0x02 s = bank1 s.mp1 := by
  simp [locate, hbp]

/-- A field other than 00H and 02H is its own bank 0 address. -/
theorem locate_of_direct (h0 : m ≠ 0x00) (h2 : m ≠ 0x02) (s : State) : locate m s = bank0 m := by
  rw [locate, if_neg h0, if_neg h2]

theorem locate_of_above_pointers (h : 0x03 ≤ m.toNat) (s : State) : locate m s = bank0 m :=
  locate_of_direct (by rintro rfl; simp at h) (by rintro rfl; simp at h) s

/-! ### The data-space map -/

theorem bank0_of_indirect (h : a = 0x00 ∨ a = 0x02) : bank0 a = .iar := by
  obtain rfl | rfl := h <;> rfl

/-- The bank 0 addresses with no register (10_state R73): none of the map's own addresses is among them. -/
theorem bank0_of_unmapped (h : a.toNat = 0x0C ∨ (0x0F ≤ a.toNat ∧ a.toNat ≤ 0x11) ∨ a.toNat = 0x13 ∨
    (0x15 ≤ a.toNat ∧ a.toNat ≤ 0x1D) ∨ (0x1F ≤ a.toNat ∧ a.toNat ≤ 0x3F)) : bank0 a = .unimplemented := by
  have hnotRam : ¬ 0x40 ≤ a.toNat := by omega
  unfold bank0
  split
  case h_18 => exact if_neg hnotRam -- the arm after the seventeen addresses with a register
  all_goals omega

theorem bank1_of_display (hlo : 0x40 ≤ a.toNat) (hhi : a.toNat ≤ 0x4E) : bank1 a = .lcd a.toNat :=
  if_pos ⟨hlo, hhi⟩

/-! ### An access to an indirect addressing register -/

theorem operand_of_iar (h : locate m s = .iar) : operand m s = 0x00 := by
  rw [operand, h, readLoc]

theorem write_of_iar (h : locate m s = .iar) (v : Byte) : write m v s = .next s := by
  simp [write_next, h, startsMode00_eq_false, writeLoc]

theorem exec_movAM (m : DataAddr) (s : State) : exec (.movAM m) s = loadOp m (fun v => v) (fun _ => {}) s := rfl

theorem exec_movMA (m : DataAddr) (s : State) : exec (.movMA m) s = write m s.acc s := rfl

/-- An update that names no flag leaves all four, so what is left of it is the byte in ACC. -/
theorem setAccFlags_none (r : Byte) (s : State) : setAccFlags r {} s = { s with acc := r } := rfl

theorem movAM_of_iar (h : locate m s = .iar) : exec (.movAM m) s = .next { s with acc := 0x00 } := by
  simp [exec_movAM, loadOp_next, h, readLoc, readEffect, setAccFlags_none]

theorem movMA_of_iar (h : locate m s = .iar) : exec (.movMA m) s = .next s :=
  (exec_movMA m s).trans (write_of_iar h s.acc)

end

/-- Settles O35: a field leads to bank 0 or bank 1 through the pointer it names or directly, and the map of that bank gives
the register. -/
theorem operandsResolve : Obligations.OperandsResolve := by
  refine ⟨?viaMp0, ?viaMp1, ?display, ?iarMp0, ?iarMp1, ?ramMp0, ?ramMp1, ?ram, ?registers, ?unmapped, ?direct⟩
  case viaMp0 =>
    rintro _ s rfl h0 h2
    rw [locate_via_mp0, locate_of_direct h0 h2]
  case viaMp1 =>
    rintro _ s hbp rfl h0 h2
    rw [locate_via_mp1_bank0 hbp, locate_of_direct h0 h2]
  case display => exact fun s hbp hlo hhi => (locate_via_mp1_bank1 hbp).trans (bank1_of_display hlo hhi)
  case iarMp0 => exact fun s hmp0 => (locate_via_mp0 s).trans (bank0_of_indirect hmp0)
  case iarMp1 => exact fun s hbp hmp1 => (locate_via_mp1_bank0 hbp).trans (bank0_of_indirect hmp1)
  case ramMp0 => exact fun s hmp0 => (locate_via_mp0 s).trans (bank0_of_ram hmp0)
  case ramMp1 => exact fun s hbp hmp1 => (locate_via_mp1_bank0 hbp).trans (bank0_of_ram hmp1)
  case ram => exact fun m s hm => (locate_of_above_pointers (by omega) s).trans (bank0_of_ram hm)
  case registers => exact fun s => ⟨rfl, rfl, rfl, rfl, rfl, rfl, rfl, rfl, rfl, rfl, rfl, rfl, rfl, rfl, rfl⟩
  case unmapped => exact fun m s hm => (locate_of_above_pointers (by omega) s).trans (bank0_of_unmapped hm)
  case direct => exact fun m s t h0 h2 => (locate_of_direct h0 h2 s).trans (locate_of_direct h0 h2 t).symm

/-- Settles O36: the rules for an operand that lands on an indirect addressing register, at 00H and 02H of each pointer. -/
theorem indirectRegisterIsEmpty : Obligations.IndirectRegisterIsEmpty := by
  intro s
  refine ⟨fun m h => ⟨operand_of_iar h, write_of_iar h⟩, ?mp0, ?mp1⟩
  case mp0 =>
    intro hmp0
    have hiar : locate 0x00 s = .iar := (locate_via_mp0 s).trans (bank0_of_indirect hmp0)
    exact ⟨hiar, movAM_of_iar hiar, movMA_of_iar hiar⟩
  case mp1 =>
    intro hmp1 hbp
    have hiar : locate 0x02 s = .iar := (locate_via_mp1_bank0 hbp).trans (bank0_of_indirect hmp1)
    exact ⟨hiar, movAM_of_iar hiar, movMA_of_iar hiar⟩

end Sys2Proof.Proofs

/-! The words that are no instruction: where each format of the decoder has no row, and the stop of a machine that fetches
such a word, or where the image gives none (30_encoding R149, 92_eei D18, D25). -/

namespace Sys2Proof.Proofs

open Sys2Proof.Machine Sys2Proof.Safety

/-! ### The words each format refuses -/

/-- Format N has six opcodes, 0000H to 0005H, the same six for either CLRWDT_TIMES (30_encoding R148). -/
theorem decodeN_error_iff (times : Config.ClrWdtTimes) (n : Nat) : (∃ e, decodeN times n = .error e) ↔ 6 ≤ n := by
  unfold decodeN
  split
  case h_2 => cases times <;> simp -- the word 0001H
  case h_7 => -- the arm after the six opcodes
    simp only [imp_false, Except.error.injEq, exists_eq', true_iff] at *
    omega
  all_goals simp

/-- The opcodes of 7 bits that format M has no row for; 00H is left to format N, 12H to 1FH are format X's. -/
theorem decodeM_error_iff (op : Nat) (m : DataAddr) : (∃ e, decodeM op m = .error e) ↔
    op = 0 ∨ (0x0F ≤ op ∧ op ≤ 0x1F) ∨ (0x38 ≤ op ∧ op ≤ 0x39) ∨ op = 0x3C ∨ 0x40 ≤ op := by
  unfold decodeM
  split
  case h_44 => -- the arm after the forty-three opcodes
    simp only [imp_false, Except.error.injEq, exists_eq', true_iff] at *
    omega
  all_goals simp

/-- Format X has the seven opcodes 09H to 0FH. -/
theorem decodeX_eq_none_iff (op : Nat) (x : Byte) : decodeX op x = none ↔ ¬ (0x09 ≤ op ∧ op ≤ 0x0F) := by
  unfold decodeX
  split
  case h_8 => -- the arm after the seven opcodes
    simp only [imp_false, true_iff] at *
    omega
  all_goals simp

/-! ### The words the decoder refuses -/

/-- An opcode field at the top of a word is the word divided by the size of what is below it. -/
theorem extractLsb'_top_toNat (w : Word) {start len : Nat} (h : start + len = 14) :
    (w.extractLsb' start len).toNat = w.toNat / 2 ^ start := by
  have hlt : w.toNat / 2 ^ start < 2 ^ len :=
    Nat.div_lt_of_lt_mul (by rw [← Nat.pow_add, h]; exact w.isLt)
  rw [BitVec.extractLsb'_toNat, Nat.shiftRight_eq_div_pow, Nat.mod_eq_of_lt hlt]

/-- From 2000H the upper four bits alone decide: 9 and BH are CALL and JMP with bit 10 set (92_eei D25). -/
theorem decode_error_iff_of_upper (times : Config.ClrWdtTimes) {w : Word} (h : 8 ≤ w.toNat / 2 ^ 10) :
    (∃ e, decode times w = .error e) ↔ w.toNat / 2 ^ 10 = 0x9 ∨ w.toNat / 2 ^ 10 = 0xB := by
  have hlt : w.toNat / 2 ^ 10 < 16 := by omega
  simp only [decode, extractLsb'_top_toNat w (start := 10) (len := 4) rfl]
  split
  case h_9 => simp only [imp_false] at *; omega -- no value is left
  all_goals
    rename_i hop
    simp only [hop]
    simp

/-- Below 2000H a word is refused where neither format X nor, by its upper seven bits, format N or M has a row. -/
theorem decode_error_iff_of_lower (times : Config.ClrWdtTimes) {w : Word} (h : w.toNat / 2 ^ 10 < 8) :
    (∃ e, decode times w = .error e) ↔
      decodeX (w.toNat / 2 ^ 8) (w.extractLsb' 0 8) = none ∧
      ((w.toNat / 2 ^ 7 = 0 ∧ ∃ e, decodeN times w.toNat = .error e) ∨
        (w.toNat / 2 ^ 7 ≠ 0 ∧ ∃ e, decodeM (w.toNat / 2 ^ 7) (w.extractLsb' 0 7) = .error e)) := by
  simp only [decode, extractLsb'_top_toNat w (start := 10) (len := 4) rfl,
    extractLsb'_top_toNat w (start := 8) (len := 6) rfl, extractLsb'_top_toNat w (start := 7) (len := 7) rfl]
  split
  case h_9 =>
    split
    case h_1 i hX => simp only [hX, reduceCtorEq, exists_false, false_and]
    case h_2 hX =>
      split
      case h_1 hop => simp only [hX, hop, true_and, ne_eq, not_true_eq_false, false_and, or_false]
      case h_2 hop =>
        have hne : w.toNat / 2 ^ 7 ≠ 0 := hop
        simp only [hX, hne, true_and, ne_eq, not_false_eq_true, false_and, false_or]
  all_goals omega

/-- The undefined words of the default table are the six ranges of 30_encoding R149. -/
theorem decode_error_iff (times : Config.ClrWdtTimes) (w : Word) : (∃ e, decode times w = .error e) ↔
    (0x0006 ≤ w.toNat ∧ w.toNat ≤ 0x007F) ∨ (0x0780 ≤ w.toNat ∧ w.toNat ≤ 0x08FF) ∨
    (0x1C00 ≤ w.toNat ∧ w.toNat ≤ 0x1CFF) ∨ (0x1E00 ≤ w.toNat ∧ w.toNat ≤ 0x1E7F) ∨
    (0x2400 ≤ w.toNat ∧ w.toNat ≤ 0x27FF) ∨ (0x2C00 ≤ w.toNat ∧ w.toNat ≤ 0x2FFF) := by
  by_cases hupper : 8 ≤ w.toNat / 2 ^ 10
  · rw [decode_error_iff_of_upper times hupper]
    omega
  · rw [decode_error_iff_of_lower times (by omega), decodeX_eq_none_iff, decodeN_error_iff,
      decodeM_error_iff]
    omega

/-! ### The stop at the fetch -/

section
variable {s : State}

theorem fetchAndRun_of_bad_word (hs : List Happening) {w : Word} {e : BadWord} (hw : Rom.word s.rom s.pc = some w)
    (he : enc s.opts w = .error e) : fetchAndRun hs s = .fault (.undefinedOpcode w) := by
  simp [fetchAndRun, hw, he]

theorem fetchAndRun_of_no_word (hs : List Happening) (hw : Rom.word s.rom s.pc = none) :
    fetchAndRun hs s = .fault (.wordNotGiven s.pc) := by
  simp [fetchAndRun, hw]

end

/-- Settles O3: the decoder's refusals by format, and the fetch at an instruction boundary, which stops on either kind of
missing instruction. -/
theorem undefinedWordsStop : Obligations.UndefinedWordsStop := by
  refine ⟨decode_error_iff, ?badWord, ?noWord⟩
  case badWord =>
    intro s w e hat hw he
    exact (step_of_atInstruction hat).trans (fetchAndRun_of_bad_word (s := { s with inputs := s.inputs.tail }) _ hw he)
  case noWord =>
    intro s hat hw
    exact (step_of_atInstruction hat).trans (fetchAndRun_of_no_word (s := { s with inputs := s.inputs.tail }) _ hw)

end Sys2Proof.Proofs

/-! What an instruction with a result leaves in the state: the result in ACC with the flags, or the result written back to the
operand, which changes the destination as the data-space table says and nothing outside it (20_memory R107, R110, R113). -/

namespace Sys2Proof.Proofs

open Sys2Proof.Machine Sys2Proof.Claims

section
variable {l : Loc} {m : DataAddr} {s t : State} {i : Instr} {f : Byte → Byte} {u : Byte → FlagUpdate}

/-! ### The result in ACC -/

theorem onlyAccAndFlags_setAccFlags (r : Byte) (u : FlagUpdate) (s : State) :
    OnlyAccAndFlags s (setAccFlags r u s) := rfl

/-- A load is within its frame: a read has no effect but on the model's own counters. -/
theorem onlyAccAndFlags_load (r : Byte) (u : FlagUpdate) (l : Loc) (s : State) :
    OnlyAccAndFlags s (setAccFlags r u (readEffect l s)) := by
  cases l <;> rfl

/-- A load from a readable operand completes with the computed byte in ACC, the computed flags and nothing else changed. -/
theorem completes_of_loadOp (hexec : exec i s = loadOp m f u s) (hread : Readable m s) :
    Completes i s fun t => t.acc = f (operand m s) ∧ t.alu = s.alu.update (u (operand m s)) ∧ OnlyAccAndFlags s t :=
  ⟨_, hexec.trans (loadOp_next.mpr ⟨hread, rfl⟩), rfl, by rw [setAccFlags_alu, readEffect_alu, operand],
    onlyAccAndFlags_load _ _ _ _⟩

/-! ### What a write does to its destination -/

/-- A write to PCL takes the low byte and leaves the page bits above it (10_state R49). -/
theorem stored_pcl (v : Byte) (s : State) : Stored .pcl v s (writeLoc .pcl v s) := by
  have hlow : (pageBits s ++ v).toNat % 256 = v.toNat := by
    rw [Laws.append_toNat]; omega
  have hpage : (pageBits s ++ v).toNat / 256 = (pageBits s).toNat := by
    rw [Laws.append_toNat]; omega
  refine ⟨hlow, fun hbase => hpage.trans ?_, fun hbase => hpage.trans ?_⟩ <;>
    · simp only [pageBits, hbase, BitVec.extractLsb'_toNat, Nat.shiftRight_eq_div_pow]
      omega

/-- A write to TMRC takes mode, clock, TON and edge, arms a measurement started in mode 11 and marks the first
enable-then-disable (60_exceptions R376, 70_reset R432). -/
theorem stored_tmrc (v : Byte) (s : State) : Stored .tmrc v s (writeLoc .tmrc v s) := by
  have hmode : (v.extractLsb' 6 2).toNat = v.toNat / 64 := by
    rw [BitVec.extractLsb'_toNat, Nat.shiftRight_eq_div_pow]; omega
  have hpulse : v.extractLsb' 6 2 = 0b11 ↔ 192 ≤ v.toNat := by
    rw [BitVec.toNat_eq, hmode]
    change v.toNat / 64 = 3 ↔ _
    omega
  refine ⟨hmode, rfl, rfl, rfl, rfl, rfl, rfl, rfl, ?_⟩
  simp only [writeLoc, writeTmrc, bitOf, hpulse, Bool.not_eq_true']

/-- Row by row of the data-space table, a write leaves in the destination what the table says (20_memory R107). -/
theorem stored_writeLoc (l : Loc) (v : Byte) (s : State) : Stored l v s (writeLoc l v s) := by
  cases l with
  | pcl => exact stored_pcl v s
  | tmrc => exact stored_tmrc v s
  | mp0 | mp1 => exact BitVec.extractLsb'_toNat 0 7 v
  | rtcc => exact ⟨BitVec.extractLsb'_toNat 0 3 v, rfl, rfl⟩
  | ram a => exact Memory.read_write_same s.ram a v
  | lcd a => exact Memory.read_write_same s.lcd a (v &&& s.opts.lcdMask)
  | intc0 => exact ⟨rfl, rfl, rfl, rfl, rfl, rfl, rfl⟩
  | intc1 | tmr => exact ⟨rfl, rfl⟩
  | acc | bp | tblp | pa => rfl
  | status | iar | tblh | pb | unimplemented | bank1Hole => trivial

/-! ### What a write leaves unchanged -/

theorem writeLoc_acc (h : l ≠ .acc) (v : Byte) (s : State) : (writeLoc l v s).acc = s.acc := by
  cases l with
  | acc => exact absurd rfl h
  | _ => rfl

theorem writeLoc_mp0 (h : l ≠ .mp0) (v : Byte) (s : State) : (writeLoc l v s).mp0 = s.mp0 := by
  cases l with
  | mp0 => exact absurd rfl h
  | _ => rfl

theorem writeLoc_mp1 (h : l ≠ .mp1) (v : Byte) (s : State) : (writeLoc l v s).mp1 = s.mp1 := by
  cases l with
  | mp1 => exact absurd rfl h
  | _ => rfl

theorem writeLoc_bp (h : l ≠ .bp) (v : Byte) (s : State) : (writeLoc l v s).bp = s.bp := by
  cases l with
  | bp => exact absurd rfl h
  | _ => rfl

theorem writeLoc_tblp (h : l ≠ .tblp) (v : Byte) (s : State) : (writeLoc l v s).tblp = s.tblp := by
  cases l with
  | tblp => exact absurd rfl h
  | _ => rfl

theorem writeLoc_rtcc (h : l ≠ .rtcc) (v : Byte) (s : State) : (writeLoc l v s).rtcc = s.rtcc := by
  cases l with
  | rtcc => exact absurd rfl h
  | _ => rfl

theorem writeLoc_paLatch (h : l ≠ .pa) (v : Byte) (s : State) : (writeLoc l v s).paLatch = s.paLatch := by
  cases l with
  | pa => exact absurd rfl h
  | _ => rfl

theorem writeLoc_pc (h : l ≠ .pcl) (v : Byte) (s : State) : (writeLoc l v s).pc = s.pc := by
  cases l with
  | pcl => exact absurd rfl h
  | _ => rfl

/-- A write changes the part of the interrupt registers that INTC0 holds only there. -/
theorem writeLoc_intc0 (h : l ≠ .intc0) (v : Byte) (s : State) :
    { (writeLoc l v s).intc with erti := s.intc.erti, rtf := s.intc.rtf } = s.intc := by
  cases l with
  | intc0 => exact absurd rfl h
  | _ => rfl

theorem writeLoc_intc1 (h : l ≠ .intc1) (v : Byte) (s : State) :
    (writeLoc l v s).intc.erti = s.intc.erti ∧ (writeLoc l v s).intc.rtf = s.intc.rtf := by
  cases l with
  | intc1 => exact absurd rfl h
  | _ => exact ⟨rfl, rfl⟩

theorem writeLoc_tmr (h : l ≠ .tmr) (v : Byte) (s : State) :
    (writeLoc l v s).timer.cnt = s.timer.cnt ∧ (writeLoc l v s).timer.pre = s.timer.pre := by
  cases l with
  | tmr => exact absurd rfl h
  | _ => exact ⟨rfl, rfl⟩

/-- A write changes the timer beside counter and preload only at TMRC. -/
theorem writeLoc_tmrc (h : l ≠ .tmrc) (v : Byte) (s : State) :
    { (writeLoc l v s).timer with cnt := s.timer.cnt, pre := s.timer.pre } = s.timer := by
  cases l with
  | tmrc => exact absurd rfl h
  | _ => rfl

/-- A write changes nothing outside its destination. -/
theorem keptOutside_writeLoc (l : Loc) (v : Byte) (s : State) : KeptOutside l s (writeLoc l v s) where
  acc h := writeLoc_acc h v s
  mp0 h := writeLoc_mp0 h v s
  mp1 h := writeLoc_mp1 h v s
  bp h := writeLoc_bp h v s
  tblp h := writeLoc_tblp h v s
  rtcc h := writeLoc_rtcc h v s
  paLatch h := writeLoc_paLatch h v s
  intc0 h := writeLoc_intc0 h v s
  intc1 h := writeLoc_intc1 h v s
  count h := writeLoc_tmr h v s
  control h := writeLoc_tmrc h v s
  ram a h := (writeLoc_ram l v s a).trans (if_neg h)
  lcd a h := (writeLoc_lcd l v s a).trans (if_neg h)
  stk := writeLoc_stk l v s
  tblh := writeLoc_tblh l v s
  timeOut := writeLoc_timeOut l v s
  pdf := writeLoc_pdf l v s
  wdt := writeLoc_wdt l v s
  mft := writeLoc_mft l v s
  power := writeLoc_power l v s
  rom := writeLoc_rom l v s
  opts := writeLoc_opts l v s
  pins := writeLoc_pins l v s
  inputs := writeLoc_inputs l v s
  unseen := writeLoc_unseen l v s

/-! ### The flags after a write -/

/-- The flag update an instruction makes after its write: the computed one, freed where the destination is STATUS. -/
theorem setFlagsAfter_alu (l : Loc) (u : FlagUpdate) (s : State) :
    (setFlagsAfter l u s).alu = s.alu.update (if l = .status then u.freed (Config.freeFlags s.draws) else u) := by
  unfold setFlagsAfter
  split <;> rfl

theorem writeLoc_alu (l : Loc) (v : Byte) (s : State) : (writeLoc l v s).alu =
    if l = .status then { c := v.getLsbD 0, ac := v.getLsbD 1, z := v.getLsbD 2, ov := v.getLsbD 3 } else s.alu := by
  cases l <;> rfl

/-- Outside STATUS an affected flag takes its value and the others stay. -/
theorem flagAfter_getD_of_ne (h : l ≠ .status) (data old : Bool) (affected : Option Bool) :
    flagAfter l data old (affected.getD old) affected := by
  cases affected with
  | none => exact (if_neg h).symm
  | some b => exact fun _ => rfl

/-- In STATUS an affected flag is free and the others take the data (10_state R47, 92_eei D11). -/
theorem flagAfter_getD_status (data old free : Bool) (affected : Option Bool) :
    flagAfter .status data old ((affected.map fun _ => free).getD data) affected := by
  cases affected with
  | none => rfl
  | some b => exact fun h => absurd rfl h

theorem flagsAfter_writeLoc (l : Loc) (v : Byte) (u : FlagUpdate) (s : State) :
    FlagsAfter l v s (setFlagsAfter l u (writeLoc l v s)) u := by
  rw [FlagsAfter, setFlagsAfter_alu, writeLoc_alu]
  by_cases hl : l = .status
  · subst hl
    exact ⟨flagAfter_getD_status _ _ _ _, flagAfter_getD_status _ _ _ _, flagAfter_getD_status _ _ _ _,
      flagAfter_getD_status _ _ _ _⟩
  · rw [if_neg hl, if_neg hl]
    exact ⟨flagAfter_getD_of_ne hl _ _ _, flagAfter_getD_of_ne hl _ _ _, flagAfter_getD_of_ne hl _ _ _,
      flagAfter_getD_of_ne hl _ _ _⟩

/-! ### The result written back -/

/-- The flags written after the write are outside what the frame and the destination speak of. -/
theorem keptOutside_setFlagsAfter {l' : Loc} {u : FlagUpdate} (h : KeptOutside l s t) :
    KeptOutside l s (setFlagsAfter l' u t) := by
  unfold setFlagsAfter
  split <;> exact { h with }

theorem stored_setFlagsAfter {l' : Loc} {v : Byte} {u : FlagUpdate} (h : Stored l v s t) :
    Stored l v s (setFlagsAfter l' u t) := by
  unfold setFlagsAfter
  split <;> exact h

/-- A write and the flags after it are all that an instruction does that writes back to its operand. -/
theorem writesBack_writeLoc (m : DataAddr) (v : Byte) (u : FlagUpdate) (s : State) :
    WritesBack m v u s (setFlagsAfter (locate m s) u (writeLoc (locate m s) v s)) :=
  ⟨stored_setFlagsAfter (stored_writeLoc _ v s), keptOutside_setFlagsAfter (keptOutside_writeLoc _ v s),
    flagsAfter_writeLoc _ v u s, fun hpcl => (setFlagsAfter_pc _ u _).trans (writeLoc_pc hpcl v s)⟩

/-- No read moves an operand: the pointers and BP are as they were. -/
@[simp] theorem locate_readEffect (m : DataAddr) (l : Loc) (s : State) : locate m (readEffect l s) = locate m s := by
  simp [locate]

theorem keptOutside_of_readEffect {l' : Loc} (h : KeptOutside l (readEffect l' s) t) : KeptOutside l s t := by
  cases l' <;> exact { h with }

/-- The read before the write changes nothing that a write back speaks of. -/
theorem writesBack_of_readEffect {v : Byte} {u : FlagUpdate} {l' : Loc} (h : WritesBack m v u (readEffect l' s) t) :
    WritesBack m v u s t := by
  obtain ⟨hstored, hkept, hflags, hpc⟩ := h
  rw [locate_readEffect] at hstored hkept hflags hpc
  refine ⟨?_, keptOutside_of_readEffect hkept, ?_, fun hpcl => (hpc hpcl).trans (readEffect_pc l' s)⟩
  all_goals cases l' <;> assumption

/-- A write to a writable operand, with the flags after it, completes (no read before it). -/
theorem completes_of_write {v : Byte} {u : FlagUpdate}
    (hexec : exec i s = andThen (write m v s) fun s' => .next (setFlagsAfter (locate m s) u s'))
    (hwrite : Writable m v s) : Completes i s (WritesBack m v u s) := by
  obtain ⟨hread, hmode⟩ := hwrite
  have hwritten : write m v s = .next (writeLoc (locate m s) v s) :=
    write_next.mpr ⟨hread, startsMode00_eq_false.mpr hmode, rfl⟩
  exact ⟨_, by rw [hexec, hwritten, andThen_of_next], writesBack_writeLoc m v u s⟩

/-- A read-modify-write completes wherever its result can be written, and writes it back with the computed flags. -/
theorem completes_of_modifyFlags (hexec : exec i s = modifyFlags m f u s) (hwrite : Writable m (f (operand m s)) s) :
    Completes i s (WritesBack m (f (operand m s)) (u (operand m s)) s) := by
  obtain ⟨hread, hmode⟩ := hwrite
  refine ⟨_, hexec.trans (modifyFlags_next.mpr ⟨hread, startsMode00_eq_false.mpr hmode, rfl⟩),
    writesBack_of_readEffect (l' := locate m s) ?_⟩
  have hback := writesBack_writeLoc m (f (operand m s)) (u (operand m s)) (readEffect (locate m s) s)
  rwa [locate_readEffect] at hback

end

end Sys2Proof.Proofs

/-! The arithmetic instructions: the adder as a sum, with its second operand complemented as a difference, and the decimal
adjustment (40_arithmetic R170 to R182). -/

namespace Sys2Proof.Proofs

open Sys2Proof.Machine Sys2Proof.Claims

section
variable {m : DataAddr} {s : State} {i : Instr} {a b r : Byte} {c : Bool} {f : AluFlags}

/-! ### The adder -/

theorem beq_zero_eq_decide (r : Byte) : (r == 0) = decide (r.toNat = 0) := by
  rw [Bool.beq_eq_decide_eq, decide_eq_decide, BitVec.toNat_eq]
  rfl

theorem addResult_toNat (a b : Byte) (c : Bool) : (addResult a b c).toNat = (a.toNat + b.toNat + c.toNat) % 256 :=
  BitVec.toNat_ofNat _ _

/-- `add8` gives the sum with its four flags (40_arithmetic R170), whatever the flags were before. -/
theorem isSum_addResult (a b : Byte) (c : Bool) (f : AluFlags) :
    IsSum a b c.toNat (addResult a b c) (f.update (addUpdate a b c)) :=
  ⟨addResult_toNat a b c, rfl, rfl, beq_zero_eq_decide _, rfl⟩

/-- A sum fixes its byte and its flags, so they are the ones `add8` gives. -/
theorem eq_of_isSum (h : IsSum a b c.toNat r f) : r = addResult a b c ∧ allFlags f = addUpdate a b c := by
  obtain ⟨hr, hc, hac, hz, hov⟩ := h
  have hresult : r = addResult a b c := BitVec.eq_of_toNat_eq (hr.trans (addResult_toNat a b c).symm)
  subst hresult
  refine ⟨rfl, ?_⟩
  rw [allFlags, addUpdate, beq_zero_eq_decide, hc, hac, hz, hov, addCarry, addCarry6, addExact]

/-- Subtraction is the addition of the complement with the borrow's complement as carry (40_arithmetic R171). -/
theorem isDifference_iff_isSum_not (a b : Byte) (c : Bool) (r : Byte) (f : AluFlags) :
    IsDifference a b (1 - c.toNat) r f ↔ IsSum a (~~~b) c.toNat r f := by
  have ha := a.isLt
  have hb := b.isLt
  have hc := c.toNat_le
  have hnot : (~~~b).toNat = 255 - b.toNat := BitVec.toNat_not
  have hresult : ((r.toNat : Int) = ((a.toNat : Int) - b.toNat - ↑(1 - c.toNat)) % 256) ↔
      r.toNat = (a.toNat + (255 - b.toNat) + c.toNat) % 256 := by omega
  have hcarry : decide (256 ≤ a.toNat + (255 - b.toNat) + c.toNat) = !decide (a.toNat < b.toNat + (1 - c.toNat)) := by
    rw [← decide_not, decide_eq_decide]; omega
  have hnoBorrow : decide (b.toNat + (1 - c.toNat) ≤ a.toNat) = !decide (a.toNat < b.toNat + (1 - c.toNat)) := by
    rw [← decide_not, decide_eq_decide]; omega
  have hhalf : decide (b.toNat % 16 + (1 - c.toNat) ≤ a.toNat % 16) =
      decide (16 ≤ a.toNat % 16 + (255 - b.toNat) % 16 + c.toNat) := by
    rw [decide_eq_decide]; omega
  have hcarry6 : decide (128 ≤ a.toNat % 128 + (255 - b.toNat) % 128 + c.toNat) =
      !decide (a.toNat % 128 < b.toNat % 128 + (1 - c.toNat)) := by
    rw [← decide_not, decide_eq_decide]; omega
  rw [IsDifference, IsSum, hnot, hresult, hcarry, hnoBorrow, hhalf, hcarry6, Bool.not_xor_not]

/-! ### The instructions -/

theorem exec_addAM (m : DataAddr) (s : State) : exec (.addAM m) s =
    loadOp m (fun v => addResult s.acc v false) (fun v => addUpdate s.acc v false) s := rfl

theorem exec_addmAM (m : DataAddr) (s : State) : exec (.addmAM m) s =
    modifyFlags m (fun v => addResult s.acc v false) (fun v => addUpdate s.acc v false) s := rfl

theorem exec_addAX (x : Byte) (s : State) : exec (.addAX x) s =
    .next (setAccFlags (addResult s.acc x false) (addUpdate s.acc x false) s) := rfl

theorem exec_adcAM (m : DataAddr) (s : State) : exec (.adcAM m) s =
    loadOp m (fun v => addResult s.acc v s.alu.c) (fun v => addUpdate s.acc v s.alu.c) s := rfl

theorem exec_adcmAM (m : DataAddr) (s : State) : exec (.adcmAM m) s =
    modifyFlags m (fun v => addResult s.acc v s.alu.c) (fun v => addUpdate s.acc v s.alu.c) s := rfl

theorem exec_subAX (x : Byte) (s : State) : exec (.subAX x) s =
    .next (setAccFlags (addResult s.acc (~~~x) true) (addUpdate s.acc (~~~x) true) s) := rfl

theorem exec_subAM (m : DataAddr) (s : State) : exec (.subAM m) s =
    loadOp m (fun v => addResult s.acc (~~~v) true) (fun v => addUpdate s.acc (~~~v) true) s := rfl

theorem exec_submAM (m : DataAddr) (s : State) : exec (.submAM m) s =
    modifyFlags m (fun v => addResult s.acc (~~~v) true) (fun v => addUpdate s.acc (~~~v) true) s := rfl

theorem exec_sbcAM (m : DataAddr) (s : State) : exec (.sbcAM m) s =
    loadOp m (fun v => addResult s.acc (~~~v) s.alu.c) (fun v => addUpdate s.acc (~~~v) s.alu.c) s := rfl

theorem exec_sbcmAM (m : DataAddr) (s : State) : exec (.sbcmAM m) s =
    modifyFlags m (fun v => addResult s.acc (~~~v) s.alu.c) (fun v => addUpdate s.acc (~~~v) s.alu.c) s := rfl

theorem exec_daaM (m : DataAddr) (s : State) : exec (.daaM m) s =
    andThen (write m (daaResult s.opts.daaTest s.acc s.alu.ac s.alu.c) s) fun s' =>
      .next (setFlagsAfter (locate m s) (onlyCarry (daaCarry s.opts.daaTest s.acc s.alu.ac s.alu.c)) s') := rfl

/-! ### A sum as the result of each operand form -/

/-- A load of `add8` leaves the sum in ACC; `g` is what the instruction makes of the operand before it adds. -/
theorem completes_isSum_of_loadOp {g : Byte → Byte}
    (hexec : exec i s = loadOp m (fun v => addResult s.acc (g v) c) (fun v => addUpdate s.acc (g v) c) s)
    (hread : Readable m s) :
    Completes i s fun t => IsSum s.acc (g (operand m s)) c.toNat t.acc t.alu ∧ OnlyAccAndFlags s t := by
  obtain ⟨t, hnext, hacc, halu, hframe⟩ := completes_of_loadOp hexec hread
  refine ⟨t, hnext, ?_, hframe⟩
  rw [hacc, halu]
  exact isSum_addResult _ _ _ _

theorem completes_isSum_of_setAccFlags
    (hexec : exec i s = .next (setAccFlags (addResult s.acc b c) (addUpdate s.acc b c) s)) :
    Completes i s fun t => IsSum s.acc b c.toNat t.acc t.alu ∧ OnlyAccAndFlags s t :=
  ⟨_, hexec, isSum_addResult _ _ _ _, onlyAccAndFlags_setAccFlags _ _ _⟩

/-- A read-modify-write of `add8` writes the sum back with its flags. -/
theorem completes_writesBack_of_isSum {g : Byte → Byte}
    (hexec : exec i s = modifyFlags m (fun v => addResult s.acc (g v) c) (fun v => addUpdate s.acc (g v) c) s)
    (hsum : IsSum s.acc (g (operand m s)) c.toNat r f) (hwrite : Writable m r s) :
    Completes i s (WritesBack m r (allFlags f) s) := by
  obtain ⟨hr, hf⟩ := eq_of_isSum hsum
  rw [hr] at hwrite
  rw [hr, hf]
  exact completes_of_modifyFlags hexec hwrite

/-- The sum with the complement that a completing instruction leaves is the difference (40_arithmetic R171). -/
theorem completes_isDifference
    (h : Completes i s fun t => IsSum s.acc (~~~b) c.toNat t.acc t.alu ∧ OnlyAccAndFlags s t) :
    Completes i s fun t => IsDifference s.acc b (1 - c.toNat) t.acc t.alu ∧ OnlyAccAndFlags s t := by
  obtain ⟨t, hnext, hsum, hframe⟩ := h
  exact ⟨t, hnext, (isDifference_iff_isSum_not _ _ _ _ _).mpr hsum, hframe⟩

/-! ### The decimal adjustment -/

/-- One correction of R182: the amount added where the nibble test or the flag asks for it. -/
theorem ite_or_add (n k : Nat) (p : Prop) [Decidable p] (b : Bool) :
    (if decide p || b then n + k else n) = n + (if p ∨ b = true then k else 0) := by
  simp only [Bool.or_eq_true, decide_eq_true_eq]
  split <;> rfl

/-- The two corrections of R182, the second tested on the byte the option names, add up to what DAA computes. -/
theorem daaExact_eq {test : Config.DaaTest} {ac : Bool} {low tested sum : Nat}
    (hlow : low = a.toNat + (if 9 < a.toNat % 16 ∨ ac = true then 6 else 0))
    (htested : tested = if test = .sequential then low else a.toNat)
    (hsum : sum = low + (if 9 < tested / 16 ∨ c = true then 0x60 else 0)) : daaExact test a ac c = sum := by
  cases test with
  | sequential =>
    have htested' : tested = low := htested
    simp only [daaExact, ite_or_add, hsum, htested', hlow]
  | original =>
    have htested' : tested = a.toNat := htested
    simp only [daaExact, ite_or_add, hsum, htested', hlow]

theorem eq_daaResult {test : Config.DaaTest} {ac : Bool} (h : r.toNat = daaExact test a ac c % 256) :
    r = daaResult test a ac c :=
  BitVec.eq_of_toNat_eq (h.trans (BitVec.toNat_ofNat (daaExact test a ac c) 8).symm)

end

/-- Settles O9: each form leaves `add8` of ACC and the operand in ACC. -/
theorem addsToAcc : Obligations.AddsToAcc :=
  ⟨fun m s hread => completes_isSum_of_loadOp (g := id) (exec_addAM m s) hread,
    fun m s hread => completes_isSum_of_loadOp (g := id) (exec_adcAM m s) hread,
    fun x s => completes_isSum_of_setAccFlags (exec_addAX x s)⟩

/-- Settles O10: each form adds the complement, which is the difference. -/
theorem subtractsFromAcc : Obligations.SubtractsFromAcc :=
  ⟨fun m s hread => completes_isDifference (completes_isSum_of_loadOp (exec_subAM m s) hread),
    fun x s => completes_isDifference (completes_isSum_of_setAccFlags (exec_subAX x s)),
    fun m s hread => completes_isDifference (completes_isSum_of_loadOp (exec_sbcAM m s) hread)⟩

/-- Settles O11: the sum is what the read-modify-write computes. -/
theorem addsToMemory : Obligations.AddsToMemory :=
  ⟨fun m s _ _ hsum hwrite => completes_writesBack_of_isSum (g := id) (exec_addmAM m s) hsum hwrite,
    fun m s _ _ hsum hwrite => completes_writesBack_of_isSum (g := id) (exec_adcmAM m s) hsum hwrite⟩

/-- Settles O12: the difference is the sum with the complement, which is what the read-modify-write computes. -/
theorem subtractsToMemory : Obligations.SubtractsToMemory :=
  ⟨fun m s _ _ hdiff hwrite =>
      completes_writesBack_of_isSum (exec_submAM m s) ((isDifference_iff_isSum_not _ _ true _ _).mp hdiff) hwrite,
    fun m s _ _ hdiff hwrite =>
      completes_writesBack_of_isSum (exec_sbcmAM m s) ((isDifference_iff_isSum_not _ _ _ _ _).mp hdiff) hwrite⟩

/-- Settles O14: the adjusted ACC is the byte written and its carry the only flag. -/
theorem daaAdjusts : Obligations.DaaAdjusts := by
  intro m s low tested sum r hlow htested hsum hr hwrite
  have hexact : daaExact s.opts.daaTest s.acc s.alu.ac s.alu.c = sum := daaExact_eq hlow htested hsum
  rw [← hexact] at hr ⊢
  rw [eq_daaResult hr] at hwrite ⊢
  exact completes_of_write (exec_daaM m s) hwrite

end Sys2Proof.Proofs

/-! The logic instructions: the bitwise result in ACC or written back, Z from the computed byte (41_logic R190 to R201). -/

namespace Sys2Proof.Proofs

open Sys2Proof.Machine Sys2Proof.Claims

section
variable {m : DataAddr} {s : State} {i : Instr} {f : Byte → Byte} {r : Byte}

/-! ### Z alone, for each operand form -/

theorem zeroUpdate_eq_onlyZero (r : Byte) : zeroUpdate r = onlyZero r := by
  rw [zeroUpdate, onlyZero, beq_zero_eq_decide]

theorem update_zeroUpdate (a : AluFlags) (r : Byte) : a.update (zeroUpdate r) = { a with z := decide (r.toNat = 0) } := by
  rw [zeroUpdate_eq_onlyZero]
  rfl

/-- A load with Z from its result leaves the result and Z. -/
theorem completes_accAndZero_of_loadOp (hexec : exec i s = loadOp m f (fun v => zeroUpdate (f v)) s)
    (hread : Readable m s) : Completes i s (AccAndZero (f (operand m s)) s) := by
  obtain ⟨t, hnext, hacc, halu, hframe⟩ := completes_of_loadOp hexec hread
  exact ⟨t, hnext, hacc, halu.trans (update_zeroUpdate _ _), hframe⟩

theorem completes_accAndZero_of_setAccFlags (hexec : exec i s = .next (setAccFlags r (zeroUpdate r) s)) :
    Completes i s (AccAndZero r s) :=
  ⟨_, hexec, rfl, update_zeroUpdate _ _, onlyAccAndFlags_setAccFlags _ _ _⟩

/-- A read-modify-write with Z from its result writes the result back, with Z from the computed byte and not from what the
destination keeps (41_logic R193). -/
theorem completes_onlyZero_of_modifyFlags (hexec : exec i s = modifyFlags m f (fun v => zeroUpdate (f v)) s)
    (hwrite : Writable m (f (operand m s)) s) :
    Completes i s (WritesBack m (f (operand m s)) (onlyZero (f (operand m s))) s) := by
  rw [← zeroUpdate_eq_onlyZero]
  exact completes_of_modifyFlags hexec hwrite

/-! ### The instructions -/

theorem exec_andAM (m : DataAddr) (s : State) : exec (.andAM m) s =
    loadOp m (fun v => s.acc &&& v) (fun v => zeroUpdate (s.acc &&& v)) s := rfl

theorem exec_orAM (m : DataAddr) (s : State) : exec (.orAM m) s =
    loadOp m (fun v => s.acc ||| v) (fun v => zeroUpdate (s.acc ||| v)) s := rfl

theorem exec_xorAM (m : DataAddr) (s : State) : exec (.xorAM m) s =
    loadOp m (fun v => s.acc ^^^ v) (fun v => zeroUpdate (s.acc ^^^ v)) s := rfl

theorem exec_cplaM (m : DataAddr) (s : State) : exec (.cplaM m) s =
    loadOp m (fun v => ~~~v) (fun v => zeroUpdate (~~~v)) s := rfl

theorem exec_andAX (x : Byte) (s : State) : exec (.andAX x) s =
    .next (setAccFlags (s.acc &&& x) (zeroUpdate (s.acc &&& x)) s) := rfl

theorem exec_orAX (x : Byte) (s : State) : exec (.orAX x) s =
    .next (setAccFlags (s.acc ||| x) (zeroUpdate (s.acc ||| x)) s) := rfl

theorem exec_xorAX (x : Byte) (s : State) : exec (.xorAX x) s =
    .next (setAccFlags (s.acc ^^^ x) (zeroUpdate (s.acc ^^^ x)) s) := rfl

theorem exec_andmAM (m : DataAddr) (s : State) : exec (.andmAM m) s =
    modifyFlags m (fun v => s.acc &&& v) (fun v => zeroUpdate (s.acc &&& v)) s := rfl

theorem exec_ormAM (m : DataAddr) (s : State) : exec (.ormAM m) s =
    modifyFlags m (fun v => s.acc ||| v) (fun v => zeroUpdate (s.acc ||| v)) s := rfl

theorem exec_xormAM (m : DataAddr) (s : State) : exec (.xormAM m) s =
    modifyFlags m (fun v => s.acc ^^^ v) (fun v => zeroUpdate (s.acc ^^^ v)) s := rfl

theorem exec_cplM (m : DataAddr) (s : State) : exec (.cplM m) s =
    modifyFlags m (fun v => ~~~v) (fun v => zeroUpdate (~~~v)) s := rfl

end

/-- Settles O16: the memory forms and CPLA are loads with Z from their result, the immediate forms leave theirs directly. -/
theorem logicToAcc : Obligations.LogicToAcc := by
  refine ⟨fun m s hread => ⟨?and, ?or, ?xor, ?cpla⟩, fun x s => ⟨?andX, ?orX, ?xorX⟩⟩
  case and => exact completes_accAndZero_of_loadOp (exec_andAM m s) hread
  case or => exact completes_accAndZero_of_loadOp (exec_orAM m s) hread
  case xor => exact completes_accAndZero_of_loadOp (exec_xorAM m s) hread
  case cpla => exact completes_accAndZero_of_loadOp (exec_cplaM m s) hread
  case andX => exact completes_accAndZero_of_setAccFlags (exec_andAX x s)
  case orX => exact completes_accAndZero_of_setAccFlags (exec_orAX x s)
  case xorX => exact completes_accAndZero_of_setAccFlags (exec_xorAX x s)

/-- Settles O17: each is a read-modify-write with Z from its result. -/
theorem logicToMemory : Obligations.LogicToMemory := by
  refine fun m s => ⟨fun hwrite => ?and, fun hwrite => ?or, fun hwrite => ?xor, fun hwrite => ?cpl⟩
  case and => exact completes_onlyZero_of_modifyFlags (exec_andmAM m s) hwrite
  case or => exact completes_onlyZero_of_modifyFlags (exec_ormAM m s) hwrite
  case xor => exact completes_onlyZero_of_modifyFlags (exec_xormAM m s) hwrite
  case cpl => exact completes_onlyZero_of_modifyFlags (exec_cplM m s) hwrite

end Sys2Proof.Proofs

/-! Increment and decrement: the operand plus one or plus 255 as bytes, which is the byte plus or minus one modulo 256, with Z
from the computed byte (42_incdec R210 to R214). -/

namespace Sys2Proof.Proofs

open Sys2Proof.Machine Sys2Proof.Claims

section
variable {m : DataAddr} {s : State} {i : Instr} {k r v : Byte}

/-- A sum modulo 256 fixes its byte, which is the sum of the bytes. -/
theorem eq_add_of_toNat (h : r.toNat = (v.toNat + k.toNat) % 256) : r = v + k :=
  BitVec.eq_of_toNat_eq (h.trans (BitVec.toNat_add v k).symm)

/-! ### The instructions -/

theorem exec_incaM (m : DataAddr) (s : State) : exec (.incaM m) s =
    loadOp m (fun v => v + 1) (fun v => zeroUpdate (v + 1)) s := rfl

theorem exec_incM (m : DataAddr) (s : State) : exec (.incM m) s =
    modifyFlags m (fun v => v + 1) (fun v => zeroUpdate (v + 1)) s := rfl

theorem exec_decaM (m : DataAddr) (s : State) : exec (.decaM m) s =
    loadOp m (fun v => v + 255) (fun v => zeroUpdate (v + 255)) s := rfl

theorem exec_decM (m : DataAddr) (s : State) : exec (.decM m) s =
    modifyFlags m (fun v => v + 255) (fun v => zeroUpdate (v + 255)) s := rfl

/-! ### A constant added, for each destination -/

/-- A load that adds the constant `k` leaves the sum modulo 256 in ACC, with Z from it. -/
theorem completes_accAndZero_of_add (hexec : exec i s = loadOp m (fun v => v + k) (fun v => zeroUpdate (v + k)) s)
    (hread : Readable m s) (hr : r.toNat = ((operand m s).toNat + k.toNat) % 256) :
    Completes i s (AccAndZero r s) := by
  rw [eq_add_of_toNat hr]
  exact completes_accAndZero_of_loadOp hexec hread

/-- A read-modify-write that adds the constant `k` writes the sum modulo 256 back, with Z from it. -/
theorem completes_onlyZero_of_add (hexec : exec i s = modifyFlags m (fun v => v + k) (fun v => zeroUpdate (v + k)) s)
    (hwrite : Writable m r s) (hr : r.toNat = ((operand m s).toNat + k.toNat) % 256) :
    Completes i s (WritesBack m r (onlyZero r) s) := by
  rw [eq_add_of_toNat hr] at hwrite ⊢
  exact completes_onlyZero_of_modifyFlags hexec hwrite

end

/-- Settles O18: INCA is the load that adds 1 and DECA the load that adds 255. -/
theorem incrementsToAcc : Obligations.IncrementsToAcc :=
  fun m s _ hread => ⟨completes_accAndZero_of_add (exec_incaM m s) hread,
    completes_accAndZero_of_add (exec_decaM m s) hread⟩

/-- Settles O19: INC is the read-modify-write that adds 1 and DEC the one that adds 255. -/
theorem incrementsMemory : Obligations.IncrementsMemory :=
  fun m s _ hwrite => ⟨completes_onlyZero_of_add (exec_incM m s) hwrite,
    completes_onlyZero_of_add (exec_decM m s) hwrite⟩

end Sys2Proof.Proofs

/-! What an instruction that affects no flag leaves in the state, with its result in ACC or written back. STATUS as the
destination still takes the data in its flags (10_state R46). -/

namespace Sys2Proof.Proofs

open Sys2Proof.Machine Sys2Proof.Claims

section
variable {m : DataAddr} {s : State} {i : Instr} {f : Byte → Byte}

/-- Writing no flag leaves the flags, so that a bare write and one followed by `noFlags` give the same flags. -/
theorem setFlagsAfter_noFlags_alu (l : Loc) (s : State) : (setFlagsAfter l noFlags s).alu = s.alu := by
  unfold setFlagsAfter
  split <;> rfl

/-- A write alone is all that an instruction does that writes back to its operand and affects no flag. -/
theorem writesBack_noFlags_writeLoc (m : DataAddr) (v : Byte) (s : State) :
    WritesBack m v noFlags s (writeLoc (locate m s) v s) := by
  have hflags := flagsAfter_writeLoc (locate m s) v noFlags s
  rw [FlagsAfter, setFlagsAfter_noFlags_alu] at hflags
  exact ⟨stored_writeLoc _ v s, keptOutside_writeLoc _ v s, hflags, fun hpcl => writeLoc_pc hpcl v s⟩

/-- A read-modify-write without flags completes wherever its result can be written, and writes it back. -/
theorem completes_noFlags_of_modifyByte (hexec : exec i s = modifyByte m f s)
    (hwrite : Writable m (f (operand m s)) s) : Completes i s (WritesBack m (f (operand m s)) noFlags s) := by
  obtain ⟨hread, hmode⟩ := hwrite
  refine ⟨_, hexec.trans (modifyByte_next.mpr ⟨hread, startsMode00_eq_false.mpr hmode, rfl⟩),
    writesBack_of_readEffect (l' := locate m s) ?_⟩
  have hback := writesBack_noFlags_writeLoc m (f (operand m s)) (readEffect (locate m s) s)
  rwa [locate_readEffect] at hback

/-- A load without flags leaves its result in ACC and nothing else. -/
theorem completes_accAlone_of_loadOp (hexec : exec i s = loadOp m f (fun _ => noFlags) s) (hread : Readable m s) :
    Completes i s (AccAlone (f (operand m s)) s) :=
  completes_of_loadOp hexec hread

end

end Sys2Proof.Proofs

/-! The rotates: a byte is given by its bits, so the rotated byte of a statement is the one the shift with the entering bit
computes; the plain forms take that bit from the operand, those through carry from C (43_rotate R220 to R228). -/

namespace Sys2Proof.Proofs

open Sys2Proof.Machine Sys2Proof.Claims

section
variable {m : DataAddr} {s : State} {i : Instr} {f : Byte → Byte} {c : Byte → Bool} {b : Bool} {v r : Byte}

/-! ### The rotated byte from its bits -/

/-- Bit 7 is the entering bit and each bit below it the one above it in the operand. -/
theorem eq_shiftInRight_of_rotatedRight (h : RotatedRight b v r) : r = shiftInRight b v := by
  obtain ⟨hentering, hmoved⟩ := h
  refine BitVec.eq_of_getLsbD_eq fun j hj => ?_
  rw [shiftInRight, BitVec.getLsbD_append, BitVec.getLsbD_extractLsb']
  obtain hlow | rfl : j < 7 ∨ j = 7 := by omega
  · simp [hlow, hmoved j hlow, Nat.add_comm]
  · rw [hentering]
    simp

/-- Bit 0 is the entering bit and each bit above it the one below it in the operand. -/
theorem eq_shiftInLeft_of_rotatedLeft (h : RotatedLeft b v r) : r = shiftInLeft v b := by
  obtain ⟨hentering, hmoved⟩ := h
  refine BitVec.eq_of_getLsbD_eq fun j hj => ?_
  rw [shiftInLeft, BitVec.getLsbD_append, BitVec.getLsbD_extractLsb']
  cases j with
  | zero =>
    rw [hentering]
    simp
  | succ k =>
    have hk : k < 7 := by omega
    simp [hk, hmoved k hk]

/-! ### The instructions -/

theorem exec_rraM (m : DataAddr) (s : State) : exec (.rraM m) s =
    loadOp m (fun v => shiftInRight (v.getLsbD 0) v) (fun _ => noFlags) s := rfl

theorem exec_rrM (m : DataAddr) (s : State) : exec (.rrM m) s =
    modifyByte m (fun v => shiftInRight (v.getLsbD 0) v) s := rfl

theorem exec_rrcaM (m : DataAddr) (s : State) : exec (.rrcaM m) s =
    loadOp m (fun v => shiftInRight s.alu.c v) (fun v => onlyCarry (v.getLsbD 0)) s := rfl

theorem exec_rrcM (m : DataAddr) (s : State) : exec (.rrcM m) s =
    modifyFlags m (fun v => shiftInRight s.alu.c v) (fun v => onlyCarry (v.getLsbD 0)) s := rfl

theorem exec_rlaM (m : DataAddr) (s : State) : exec (.rlaM m) s =
    loadOp m (fun v => shiftInLeft v (v.getLsbD 7)) (fun _ => noFlags) s := rfl

theorem exec_rlM (m : DataAddr) (s : State) : exec (.rlM m) s =
    modifyByte m (fun v => shiftInLeft v (v.getLsbD 7)) s := rfl

theorem exec_rlcaM (m : DataAddr) (s : State) : exec (.rlcaM m) s =
    loadOp m (fun v => shiftInLeft v s.alu.c) (fun v => onlyCarry (v.getLsbD 7)) s := rfl

theorem exec_rlcM (m : DataAddr) (s : State) : exec (.rlcM m) s =
    modifyFlags m (fun v => shiftInLeft v s.alu.c) (fun v => onlyCarry (v.getLsbD 7)) s := rfl

/-- A load with C alone leaves its result, and in C the bit it names (43_rotate R228). -/
theorem completes_accAndCarry_of_loadOp (hexec : exec i s = loadOp m f (fun v => onlyCarry (c v)) s)
    (hread : Readable m s) : Completes i s (AccAndCarry (f (operand m s)) (c (operand m s)) s) :=
  completes_of_loadOp hexec hread

end

/-- Settles O20: each is a load of the byte shifted with its entering bit, without flags or with the lost bit in C. -/
theorem rotatesToAcc : Obligations.RotatesToAcc := by
  refine fun m s r hread => ⟨fun hright => ?rra, fun hright => ?rrca, fun hleft => ?rla, fun hleft => ?rlca⟩
  case rra =>
    obtain rfl := eq_shiftInRight_of_rotatedRight hright
    exact completes_accAlone_of_loadOp (exec_rraM m s) hread
  case rrca =>
    obtain rfl := eq_shiftInRight_of_rotatedRight hright
    exact completes_accAndCarry_of_loadOp (exec_rrcaM m s) hread
  case rla =>
    obtain rfl := eq_shiftInLeft_of_rotatedLeft hleft
    exact completes_accAlone_of_loadOp (exec_rlaM m s) hread
  case rlca =>
    obtain rfl := eq_shiftInLeft_of_rotatedLeft hleft
    exact completes_accAndCarry_of_loadOp (exec_rlcaM m s) hread

/-- Settles O21: each is a read-modify-write of the byte shifted with its entering bit, without flags or with the lost bit
in C. -/
theorem rotatesMemory : Obligations.RotatesMemory := by
  refine fun m s r hwrite => ⟨fun hright => ?rr, fun hright => ?rrc, fun hleft => ?rl, fun hleft => ?rlc⟩
  case rr =>
    obtain rfl := eq_shiftInRight_of_rotatedRight hright
    exact completes_noFlags_of_modifyByte (exec_rrM m s) hwrite
  case rrc =>
    obtain rfl := eq_shiftInRight_of_rotatedRight hright
    exact completes_of_modifyFlags (exec_rrcM m s) hwrite
  case rl =>
    obtain rfl := eq_shiftInLeft_of_rotatedLeft hleft
    exact completes_noFlags_of_modifyByte (exec_rlM m s) hwrite
  case rlc =>
    obtain rfl := eq_shiftInLeft_of_rotatedLeft hleft
    exact completes_of_modifyFlags (exec_rlcM m s) hwrite

end Sys2Proof.Proofs

/-! The data moves, and the moves among the miscellaneous instructions: a byte loaded into ACC, or a byte stored in the
operand; none affects a flag (44_datamove R235 to R238, 48_misc R296, R297, R303, R304). -/

namespace Sys2Proof.Proofs

open Sys2Proof.Machine Sys2Proof.Claims

section
variable {m : DataAddr} {s : State} {i : Instr} {v r : Byte}

/-- A byte is fixed by its value: low nibble above high nibble is the byte the exchange computes. -/
theorem eq_swapNibbles_of_nibblesSwapped (h : NibblesSwapped v r) : r = swapNibbles v := by
  have hhigh : (v.extractLsb' 4 4).toNat = v.toNat / 16 := by
    rw [BitVec.extractLsb'_toNat, Nat.shiftRight_eq_div_pow]; omega
  have hlow : (v.extractLsb' 0 4).toNat = v.toNat % 16 := BitVec.extractLsb'_toNat 0 4 v
  refine BitVec.eq_of_toNat_eq (h.trans ?_)
  rw [swapNibbles, Laws.append_toNat, hhigh, hlow]; omega

/-! ### The instructions -/

theorem exec_movAX (x : Byte) (s : State) : exec (.movAX x) s = .next (setAccFlags x noFlags s) := rfl

theorem exec_swapaM (m : DataAddr) (s : State) : exec (.swapaM m) s = loadOp m swapNibbles (fun _ => noFlags) s := rfl

theorem exec_swapM (m : DataAddr) (s : State) : exec (.swapM m) s = modifyByte m swapNibbles s := rfl

theorem exec_clrM (m : DataAddr) (s : State) : exec (.clrM m) s = write m 0x00 s := rfl

theorem exec_setM (m : DataAddr) (s : State) : exec (.setM m) s = write m 0xFF s := rfl

/-- A write with no read and no flags completes wherever its byte can be written, and stores it. -/
theorem completes_noFlags_of_write (hexec : exec i s = write m v s) (hwrite : Writable m v s) :
    Completes i s (WritesBack m v noFlags s) := by
  obtain ⟨hread, hmode⟩ := hwrite
  exact ⟨_, hexec.trans (write_next.mpr ⟨hread, startsMode00_eq_false.mpr hmode, rfl⟩),
    writesBack_noFlags_writeLoc m v s⟩

end

/-- Settles O22: MOV A,[m] and SWAPA are loads without flags, of the byte and of its nibbles exchanged; MOV A,x leaves its
immediate directly. -/
theorem movesToAcc : Obligations.MovesToAcc := by
  refine ⟨fun m s hread => ?movAM, fun x s => ?movAX, fun m s r hread hswap => ?swapa⟩
  case movAM => exact completes_accAlone_of_loadOp (exec_movAM m s) hread
  case movAX => exact ⟨_, exec_movAX x s, rfl, rfl, onlyAccAndFlags_setAccFlags x noFlags s⟩
  case swapa =>
    obtain rfl := eq_swapNibbles_of_nibblesSwapped hswap
    exact completes_accAlone_of_loadOp (exec_swapaM m s) hread

/-- Settles O23: MOV [m],A, CLR and SET write a byte they do not read, SWAP is a read-modify-write without flags. -/
theorem storesBytes : Obligations.StoresBytes := by
  refine fun m s => ⟨?mov, ?clr, ?set, fun r hswap hwrite => ?swap⟩
  case mov => exact completes_noFlags_of_write (exec_movMA m s)
  case clr => exact completes_noFlags_of_write (exec_clrM m s)
  case set => exact completes_noFlags_of_write (exec_setM m s)
  case swap =>
    obtain rfl := eq_swapNibbles_of_nibblesSwapped hswap
    exact completes_noFlags_of_modifyByte (exec_swapM m s) hwrite

end Sys2Proof.Proofs

/-! The bit operations: a byte is given by its bits, so the changed byte of a statement is the one the mask of the operand's
bit computes; neither affects a flag (45_bitop R245, R246). -/

namespace Sys2Proof.Proofs

open Sys2Proof.Machine Sys2Proof.Claims

section
variable {i : BitNo} {v r : Byte}

/-! ### The changed byte from its bits -/

/-- The mask of a bit has that bit alone. -/
theorem bitMask_getLsbD (i : BitNo) (j : Nat) : (bitMask i).getLsbD j = decide (i.toNat = j) := by
  have hi : i.toNat < 8 := i.isLt
  exact (BitVec.getLsbD_twoPow i.toNat j).trans (by simp [hi])

/-- Outside the named bit both bytes have the operand's bits, at the named bit the mask takes the bit out. -/
theorem eq_and_not_bitMask (hkept : ∀ j < 8, j ≠ i.toNat → r.getLsbD j = v.getLsbD j)
    (hclear : r.getLsbD i.toNat = false) : r = v &&& ~~~bitMask i := by
  refine BitVec.eq_of_getLsbD_eq fun j hj => ?_
  rw [BitVec.getLsbD_and, BitVec.getLsbD_not, bitMask_getLsbD]
  obtain rfl | hother := eq_or_ne j i.toNat
  · simp [hclear]
  · rw [hkept j hj hother]
    simp [hother.symm, hj]

/-- Outside the named bit both bytes have the operand's bits, at the named bit the mask puts the bit in. -/
theorem eq_or_bitMask (hkept : ∀ j < 8, j ≠ i.toNat → r.getLsbD j = v.getLsbD j)
    (hset : r.getLsbD i.toNat = true) : r = v ||| bitMask i := by
  refine BitVec.eq_of_getLsbD_eq fun j hj => ?_
  rw [BitVec.getLsbD_or, bitMask_getLsbD]
  obtain rfl | hother := eq_or_ne j i.toNat
  · simp [hset]
  · rw [hkept j hj hother]
    simp [hother.symm]

/-! ### The instructions -/

theorem exec_clrBit (i : BitNo) (m : DataAddr) (s : State) : exec (.clrBit i m) s =
    modifyByte m (fun v => v &&& ~~~bitMask i) s := rfl

theorem exec_setBit (i : BitNo) (m : DataAddr) (s : State) : exec (.setBit i m) s =
    modifyByte m (fun v => v ||| bitMask i) s := rfl

end

/-- Settles O24: each is a read-modify-write without flags of the byte with the named bit taken out or put in. -/
theorem bitOperations : Obligations.BitOperations := by
  refine fun i m s r hwrite hkept => ⟨fun hclear => ?clr, fun hset => ?set⟩
  case clr =>
    obtain rfl := eq_and_not_bitMask hkept hclear
    exact completes_noFlags_of_modifyByte (exec_clrBit i m s) hwrite
  case set =>
    obtain rfl := eq_or_bitMask hkept hset
    exact completes_noFlags_of_modifyByte (exec_setBit i m s) hwrite

end Sys2Proof.Proofs

/-! The skips: PC, which holds the following address, passes it exactly on the instruction's condition, and the second cycle
shows in PC (46_branch R256, R262 to R270). -/

namespace Sys2Proof.Proofs

open Sys2Proof.Machine Sys2Proof.Claims

section
variable {l : Loc} {m : DataAddr} {s t : State} {i : Instr} {r v : Byte} {b : Bool} {f : Byte → Byte}
  {cond : Prop} [Decidable cond]

/-! ### The skip and its cycles -/

theorem skipIf_pc (b : Bool) (s : State) : (skipIf b s).pc = if b then s.pc + 1 else s.pc := by
  cases b <;> rfl

/-- An instruction timed as a skip takes its second cycle exactly when the skip is taken: the next address is another one. -/
theorem skips_skipIf (hcycles : ∀ t, cyclesOf i s t = skipCycles s t) (hcond : b = decide cond) (hpc : t.pc = s.pc) :
    Skips cond i s (skipIf b t) := by
  subst hcond
  rw [Skips, hcycles, skipCycles, skipIf_pc, hpc]
  by_cases h : cond <;> simp [h]

/-! ### Test and load -/

theorem onlyPc_skipIf (b : Bool) (l : Loc) (s : State) : OnlyPc s (skipIf b (readEffect l s)) := by
  cases b <;> cases l <;> rfl

theorem onlyAccAndPc_skipIf (b : Bool) (r : Byte) (l : Loc) (s : State) :
    OnlyAccAndPc s (skipIf b { readEffect l s with acc := r }) := by
  cases b <;> cases l <;> rfl

/-- A test of a readable operand completes, skips on its condition and changes only PC. -/
theorem completes_of_testSkip {c : Byte → Bool} (hexec : exec i s = testSkip m c s)
    (hcycles : ∀ t, cyclesOf i s t = skipCycles s t) (hcond : c (operand m s) = decide cond) (hread : Readable m s) :
    Completes i s fun t => Skips cond i s t ∧ OnlyPc s t :=
  ⟨_, hexec.trans (testSkip_next.mpr ⟨hread, rfl⟩), skips_skipIf hcycles hcond (readEffect_pc _ s),
    onlyPc_skipIf _ _ s⟩

/-- A load with a skip, of a readable operand, completes with the computed byte in ACC, skips where that is zero and changes
nothing else. -/
theorem completes_of_loadSkip (hexec : exec i s = loadSkip m f s) (hcycles : ∀ t, cyclesOf i s t = skipCycles s t)
    (hread : Readable m s) (hr : r = f (operand m s)) :
    Completes i s fun t => t.acc = r ∧ Skips (r.toNat = 0) i s t ∧ OnlyAccAndPc s t := by
  subst hr
  exact ⟨_, hexec.trans (loadSkip_next.mpr ⟨hread, rfl⟩), skipIf_acc _ _,
    skips_skipIf hcycles (beq_zero_eq_decide _) (readEffect_pc _ s), onlyAccAndPc_skipIf _ _ _ s⟩

/-! ### Read-modify-write -/

/-- The skip changes PC alone, which only a write to PCL speaks of. -/
theorem stored_skipIf (hpcl : l ≠ .pcl) (h : Stored l v s t) : Stored l v s (skipIf b t) := by
  cases b with
  | false => exact h
  | true =>
    cases l with
    | pcl => exact absurd rfl hpcl
    | _ => exact h

theorem keptOutside_skipIf (h : KeptOutside l s t) : KeptOutside l s (skipIf b t) := by
  cases b <;> exact { h with }

theorem flagsAfter_skipIf {u : FlagUpdate} (h : FlagsAfter l v s t u) : FlagsAfter l v s (skipIf b t) u := by
  rwa [FlagsAfter, skipIf_alu]

/-- The read and the write of a read-modify-write without flags, before its skip. -/
theorem writesBack_noFlags_after_read (m : DataAddr) (v : Byte) (s : State) :
    WritesBack m v noFlags s (writeLoc (locate m s) v (readEffect (locate m s) s)) := by
  refine writesBack_of_readEffect (l' := locate m s) ?_
  have hback := writesBack_noFlags_writeLoc m v (readEffect (locate m s) s)
  rwa [locate_readEffect] at hback

/-- A read-modify-write with a skip completes wherever its result can be written and the operand is not PCL: it writes the
result back without flags and skips where that is zero. -/
theorem completes_of_modifySkip (hexec : exec i s = modifySkip m f s)
    (hcycles : ∀ t, cyclesOf i s t = skipCycles s t) (hwrite : Writable m r s) (hpcl : locate m s ≠ .pcl)
    (hr : r = f (operand m s)) :
    Completes i s fun t => Stored (locate m s) r s t ∧ KeptOutside (locate m s) s t ∧
      FlagsAfter (locate m s) r s t noFlags ∧ Skips (r.toNat = 0) i s t := by
  subst hr
  obtain ⟨hread, hmode⟩ := hwrite
  obtain ⟨hstored, hkept, hflags, hpc⟩ := writesBack_noFlags_after_read m (f (operand m s)) s
  exact ⟨_, hexec.trans (modifySkip_next.mpr ⟨hread, hpcl, startsMode00_eq_false.mpr hmode, rfl⟩),
    stored_skipIf hpcl hstored, keptOutside_skipIf hkept, flagsAfter_skipIf hflags,
    skips_skipIf hcycles (beq_zero_eq_decide _) (hpc hpcl)⟩

/-! ### The instructions -/

theorem exec_szM (m : DataAddr) (s : State) : exec (.szM m) s = testSkip m (fun v => v == 0) s := rfl

theorem exec_szBit (i : BitNo) (m : DataAddr) (s : State) :
    exec (.szBit i m) s = testSkip m (fun v => !bitOf v i.toNat) s := rfl

theorem exec_snzBit (i : BitNo) (m : DataAddr) (s : State) :
    exec (.snzBit i m) s = testSkip m (fun v => bitOf v i.toNat) s := rfl

theorem exec_szaM (m : DataAddr) (s : State) : exec (.szaM m) s = loadSkip m (fun v => v) s := rfl

theorem exec_sizaM (m : DataAddr) (s : State) : exec (.sizaM m) s = loadSkip m (fun v => v + 1) s := rfl

theorem exec_sdzaM (m : DataAddr) (s : State) : exec (.sdzaM m) s = loadSkip m (fun v => v + 255) s := rfl

theorem exec_sizM (m : DataAddr) (s : State) : exec (.sizM m) s = modifySkip m (fun v => v + 1) s := rfl

theorem exec_sdzM (m : DataAddr) (s : State) : exec (.sdzM m) s = modifySkip m (fun v => v + 255) s := rfl

theorem not_bitOf_eq_decide (v : Byte) (n : Nat) : (!bitOf v n) = decide (v.getLsbD n = false) := by
  simp [bitOf]

theorem bitOf_eq_decide (v : Byte) (n : Nat) : bitOf v n = decide (v.getLsbD n = true) := by
  simp [bitOf]

end

/-- Settles O28: each is a test whose condition is the statement's, of the byte or of its named bit. -/
theorem testsSkip : Obligations.TestsSkip := by
  refine fun m i s hread => ⟨?szM, ?szBit, ?snzBit⟩
  case szM => exact completes_of_testSkip (exec_szM m s) (fun _ => rfl) (beq_zero_eq_decide _) hread
  case szBit => exact completes_of_testSkip (exec_szBit i m s) (fun _ => rfl) (not_bitOf_eq_decide _ _) hread
  case snzBit => exact completes_of_testSkip (exec_snzBit i m s) (fun _ => rfl) (bitOf_eq_decide _ _) hread

/-- Settles O29: each is a load with a skip, of the byte, of the byte plus 1 and of the byte plus 255. -/
theorem loadsSkip : Obligations.LoadsSkip := by
  refine fun m s r hread => ⟨fun hr => ?sza, fun hr => ?siza, fun hr => ?sdza⟩
  case sza => exact completes_of_loadSkip (exec_szaM m s) (fun _ => rfl) hread hr
  case siza => exact completes_of_loadSkip (exec_sizaM m s) (fun _ => rfl) hread (eq_add_of_toNat hr)
  case sdza => exact completes_of_loadSkip (exec_sdzaM m s) (fun _ => rfl) hread (eq_add_of_toNat hr)

/-- Settles O30: SIZ is the read-modify-write with a skip that adds 1 and SDZ the one that adds 255. -/
theorem countsSkip : Obligations.CountsSkip := by
  refine fun m s r hwrite hpcl => ⟨fun hr => ?siz, fun hr => ?sdz⟩
  case siz => exact completes_of_modifySkip (exec_sizM m s) (fun _ => rfl) hwrite hpcl (eq_add_of_toNat hr)
  case sdz => exact completes_of_modifySkip (exec_sdzM m s) (fun _ => rfl) hwrite hpcl (eq_add_of_toNat hr)

end Sys2Proof.Proofs

/-! An interrupt and the return of its handler: the entry pushes PC onto a stack with room and clears EMI, which was set; RETI
pops PC and sets EMI (60_exceptions R341, R342, 46_branch R261). -/

namespace Sys2Proof.Proofs

open Sys2Proof.Machine

section
variable {s : State} {src : Source}

@[simp] theorem setRequest_emi (src : Source) (b : Bool) (i : Intc) : (setRequest src b i).emi = i.emi := by
  cases src <;> rfl

theorem intc_with_emi_set {i : Intc} (h : i.emi = true) : { i with emi := true } = i := by
  rw [← h]

/-- RETI in the entered state pops what the entry pushed and sets EMI in the entry's INTC. -/
theorem reti_of_enter (hroom : s.stk.length < 2) :
    exec .reti (enter src s) = .next { s with intc := { setRequest src false s.intc with emi := true } } := by
  have hstk : (enter src s).stk = s.pc :: s.stk := (enter_stk src s).trans (push_of_room hroom)
  rw [exec_reti, returnThen_of_cons _ hstk]
  rfl

end

/-- Settles O48: an acknowledged interrupt had room on the stack and EMI set, so the return restores both. -/
theorem interruptThenReti : Obligations.InterruptThenReti := by
  intro s src hack
  obtain ⟨hemi, hroom, -, -, -⟩ := acknowledgeable_iff.mp hack
  rw [reti_of_enter hroom, intc_with_emi_set ((setRequest_emi src false s.intc).trans hemi)]

end Sys2Proof.Proofs

/-! The instructions and their words: each format read back from its fields gives the instruction, and each row the decoder
reads is the row the encoder writes (30_encoding R144, R145, R148, R150). -/

namespace Sys2Proof.Proofs

open Sys2Proof.Machine

section
variable {times : Config.ClrWdtTimes} {w : Word} {i : Instr}

/-! ### What a word is, field by field -/

theorem append_fieldM (w : Word) : w.extractLsb' 7 7 ++ w.extractLsb' 0 7 = w := by
  refine BitVec.eq_of_toNat_eq ?_
  rw [Laws.append_toNat, extractLsb'_top_toNat w rfl, BitVec.extractLsb'_toNat]
  omega

theorem append_fieldX (w : Word) : w.extractLsb' 8 6 ++ w.extractLsb' 0 8 = w := by
  refine BitVec.eq_of_toNat_eq ?_
  rw [Laws.append_toNat, extractLsb'_top_toNat w rfl, BitVec.extractLsb'_toNat]
  omega

theorem append_fieldA (w : Word) : w.extractLsb' 10 4 ++ w.extractLsb' 0 10 = w := by
  refine BitVec.eq_of_toNat_eq ?_
  rw [Laws.append_toNat, extractLsb'_top_toNat w rfl, BitVec.extractLsb'_toNat]
  omega

theorem append_fieldB (w : Word) : w.extractLsb' 10 4 ++ w.extractLsb' 7 3 ++ w.extractLsb' 0 7 = w := by
  refine BitVec.eq_of_toNat_eq ?_
  rw [Laws.append_toNat, Laws.append_toNat, extractLsb'_top_toNat w rfl, BitVec.extractLsb'_toNat,
    BitVec.extractLsb'_toNat, Nat.shiftRight_eq_div_pow]
  omega

/-! ### The row the decoder reads is the row the encoder writes -/

theorem encode_of_decodeM {op : Nat} {m : DataAddr} (h : decodeM op m = .ok i) :
    encode i = BitVec.ofNat 7 op ++ m ∧ i.wellFormed times = true := by
  unfold decodeM at h
  split at h <;> cases h <;> exact ⟨rfl, rfl⟩

theorem encode_of_decodeX {op : Nat} {x : Byte} (h : decodeX op x = some i) :
    encode i = BitVec.ofNat 6 op ++ x ∧ i.wellFormed times = true := by
  unfold decodeX at h
  split at h <;> cases h <;> exact ⟨rfl, rfl⟩

/-- The word 0001H is the one CLRWDT_TIMES decides (30_encoding R148). -/
theorem encode_of_decodeN {n : Nat} (h : decodeN times n = .ok i) :
    encode i = BitVec.ofNat 14 n ∧ i.wellFormed times = true := by
  unfold decodeN at h
  split at h
  case h_2 => cases times <;> cases h <;> exact ⟨rfl, rfl⟩
  all_goals cases h <;> exact ⟨rfl, rfl⟩

/-! ### A word that decodes is the word of its instruction -/

theorem append_of_fieldA {op : BitVec 4} (hop : (w.extractLsb' 10 4).toNat = op.toNat) : op ++ w.extractLsb' 0 10 = w := by
  rw [← BitVec.eq_of_toNat_eq hop, append_fieldA]

theorem append_of_fieldB {op : BitVec 4} (hop : (w.extractLsb' 10 4).toNat = op.toNat) :
    op ++ w.extractLsb' 7 3 ++ w.extractLsb' 0 7 = w := by
  rw [← BitVec.eq_of_toNat_eq hop, append_fieldB]

/-- Each arm of the decoder names its opcode, and the fields around the opcode make up the word again. -/
theorem encode_of_decode (h : decode times w = .ok i) : encode i = w ∧ i.wellFormed times = true := by
  simp only [decode] at h
  split at h
  case h_1 | h_2 => rename_i hop; cases h; exact ⟨append_of_fieldA hop, rfl⟩
  case h_3 | h_4 => cases h
  case h_5 | h_6 | h_7 | h_8 => rename_i hop; cases h; exact ⟨append_of_fieldB hop, rfl⟩
  case h_9 => -- below 2000H: format X, then N, then M
    split at h
    case h_1 hX =>
      cases h
      obtain ⟨hword, hwf⟩ := encode_of_decodeX hX
      exact ⟨by rw [hword, BitVec.ofNat_toNat, BitVec.setWidth_eq, append_fieldX], hwf⟩
    case h_2 =>
      split at h
      case h_1 =>
        obtain ⟨hword, hwf⟩ := encode_of_decodeN h
        exact ⟨by rw [hword, BitVec.ofNat_toNat, BitVec.setWidth_eq], hwf⟩
      case h_2 =>
        obtain ⟨hword, hwf⟩ := encode_of_decodeM h
        exact ⟨by rw [hword, BitVec.ofNat_toNat, BitVec.setWidth_eq, append_fieldM], hwf⟩

/-! ### The word of an instruction decodes to it -/

/-- Format M: an opcode that is neither format X's nor 00H, with the address field below it. -/
theorem decode_append_fieldM (op : BitVec 7) (m : DataAddr) (hlow : op.toNat / 8 < 8)
    (hX : ∀ x, decodeX (op.toNat / 2) x = none) (hop : op.toNat ≠ 0) : decode times (op ++ m) = decodeM op.toNat m := by
  have hword : (op ++ m).toNat = op.toNat * 2 ^ 7 + m.toNat := Laws.fieldM op m
  have hopcode : ((op ++ m).extractLsb' 7 7).toNat = op.toNat := by rw [extractLsb'_top_toNat _ rfl, hword]; omega
  have hupper : ((op ++ m).extractLsb' 10 4).toNat = op.toNat / 8 := by rw [extractLsb'_top_toNat _ rfl, hword]; omega
  have hmiddle : ((op ++ m).extractLsb' 8 6).toNat = op.toNat / 2 := by rw [extractLsb'_top_toNat _ rfl, hword]; omega
  have hfield : (op ++ m).extractLsb' 0 7 = m :=
    BitVec.eq_of_toNat_eq (by rw [BitVec.extractLsb'_toNat, hword, Nat.shiftRight_zero]; omega)
  simp only [decode, hopcode, hupper, hmiddle, hfield, hX]
  split
  case h_9 => rfl
  all_goals omega

/-- Format X: an opcode of the seven, with the immediate below it. -/
theorem decode_append_fieldX (op : BitVec 6) (x : Byte) (hlow : op.toNat / 4 < 8) (hX : decodeX op.toNat x = some i) :
    decode times (op ++ x) = .ok i := by
  have hword : (op ++ x).toNat = op.toNat * 2 ^ 8 + x.toNat := Laws.fieldX op x
  have hupper : ((op ++ x).extractLsb' 10 4).toNat = op.toNat / 4 := by rw [extractLsb'_top_toNat _ rfl, hword]; omega
  have hopcode : ((op ++ x).extractLsb' 8 6).toNat = op.toNat := by rw [extractLsb'_top_toNat _ rfl, hword]; omega
  have hfield : (op ++ x).extractLsb' 0 8 = x :=
    BitVec.eq_of_toNat_eq (by rw [BitVec.extractLsb'_toNat, hword, Nat.shiftRight_zero]; omega)
  simp only [decode, hupper, hopcode, hfield, hX]
  split
  case h_9 => rfl
  all_goals omega

/-- Format A: the opcode and the program address, read back from their fields. -/
theorem extract_append_fieldA (op : BitVec 4) (addr : ProgAddr) :
    ((op ++ addr).extractLsb' 10 4).toNat = op.toNat ∧ (op ++ addr).extractLsb' 0 10 = addr := by
  have hword : (op ++ addr).toNat = op.toNat * 2 ^ 10 + addr.toNat := Laws.fieldA op addr
  refine ⟨by rw [extractLsb'_top_toNat _ rfl, hword]; omega, BitVec.eq_of_toNat_eq ?_⟩
  rw [BitVec.extractLsb'_toNat, hword, Nat.shiftRight_zero]; omega

/-- Format B: the opcode, the bit number and the data address, read back from their fields. -/
theorem extract_append_fieldB (op : BitVec 4) (b : BitNo) (m : DataAddr) :
    ((op ++ b ++ m).extractLsb' 10 4).toNat = op.toNat ∧ (op ++ b ++ m).extractLsb' 7 3 = b ∧
      (op ++ b ++ m).extractLsb' 0 7 = m := by
  have hword : (op ++ b ++ m).toNat = op.toNat * 2 ^ 10 + b.toNat * 128 + m.toNat := Laws.fieldB op b m
  refine ⟨by rw [extractLsb'_top_toNat _ rfl, hword]; omega, BitVec.eq_of_toNat_eq ?_, BitVec.eq_of_toNat_eq ?_⟩
  · rw [BitVec.extractLsb'_toNat, hword, Nat.shiftRight_eq_div_pow]; omega
  · rw [BitVec.extractLsb'_toNat, hword, Nat.shiftRight_zero]; omega

/-- The decoder is a left inverse of the encoder on the instructions that have a word under the option. -/
theorem decode_encode (h : i.wellFormed times = true) : decode times (encode i) = .ok i := by
  cases i with
  | nop | ret | reti | halt | clrWdt2 => cases times <;> rfl
  | clrWdt =>
    cases times with
    | one => rfl
    | two => cases h
  | clrWdt1 =>
    cases times with
    | one => cases h
    | two => rfl
  | addAX x | subAX x | andAX x | orAX x | xorAX x | movAX x | retAX x =>
    exact decode_append_fieldX _ x (by decide) rfl
  | jmp addr | call addr =>
    simp only [encode, decode, extract_append_fieldA]
    rfl
  | clrBit b m | setBit b m | szBit b m | snzBit b m =>
    simp only [encode, decode, extract_append_fieldB]
    rfl
  | addAM m | addmAM m | adcAM m | adcmAM m | subAM m | submAM m | sbcAM m | sbcmAM m | daaM m | andAM m | orAM m
  | xorAM m | andmAM m | ormAM m | xormAM m | cplM m | cplaM m | incaM m | incM m | decaM m | decM m | rraM m | rrM m
  | rrcaM m | rrcM m | rlaM m | rlM m | rlcaM m | rlcM m | movAM m | movMA m | szM m | szaM m | sizM m | sdzM m
  | sizaM m | sdzaM m | tabrdc m | tabrdl m | clrM m | setM m | swapM m | swapaM m =>
    exact decode_append_fieldM _ m (by decide) (fun _ => rfl) (by decide)

end

/-- Settles O1: each word read back by its format; the default ENC is the decoder, so it reaches each instruction at its own
word. -/
theorem decodeOfEncode : Obligations.DecodeOfEncode :=
  ⟨fun _ _ hwf => decode_encode hwf,
    fun _ hdefault i hwf => ⟨encode i, (enc_default hdefault _).trans (decode_encode hwf)⟩⟩

/-- Settles O2: each arm of the decoder reads the row that the encoder writes. -/
theorem encodeOfDecode : Obligations.EncodeOfDecode :=
  fun _ _ _ hdecode => encode_of_decode hdecode

/-- Settles O4: the nine words are closed terms, read by evaluating the decoder. -/
theorem specWordsDecode : Obligations.SpecWordsDecode :=
  ⟨rfl, rfl, rfl, rfl, rfl, rfl, rfl, rfl, rfl⟩

end Sys2Proof.Proofs

/-! What an instruction can do: the state it leaves is made from the state it starts in by the named operations alone. Each
rule about all instructions is then an induction on these operations. -/

namespace Sys2Proof.Proofs

open Sys2Proof.Machine

/-- `Effect i s t`: from `s` the instruction `i` can come to `t`, by the operations the operand forms are made of. What only
some instructions do names them. -/
inductive Effect (i : Instr) (s : State) : State → Prop where
  | same : Effect i s s
  | read (l : Loc) {t : State} : Effect i s t → Effect i s (readEffect l t)
  | result (r : Byte) (u : FlagUpdate) {t : State} : Effect i s t → Effect i s (setAccFlags r u t)
  | write (m : DataAddr) (v : Byte) {t : State} : startsMode00 (locate m s) v = false → Effect i s t →
      Effect i s (writeLoc (locate m s) v t)
  | flags (l : Loc) (u : FlagUpdate) {t : State} : Effect i s t → Effect i s (setFlagsAfter l u t)
  | jump (p : ProgAddr) {t : State} : Effect i s t → Effect i s { t with pc := p }
  | push (p : ProgAddr) {t : State} : Effect i s t → Effect i s { t with stk := Machine.push p t.stk }
  | pop {t : State} : Effect i s t → Effect i s { t with stk := t.stk.tail }
  | enableInterrupts {t : State} : Effect i s t → Effect i s { t with intc := { t.intc with emi := true } }
  | tableHigh (w : BitVec 6) {t : State} : (∃ m, i = .tabrdc m ∨ i = .tabrdl m) → Effect i s t →
      Effect i s { t with tblh := w }
  | watchdog (wdt : Wdt) (timeOut pdf : Bool) : (i = .clrWdt ∨ i = .clrWdt1 ∨ i = .clrWdt2) →
      (¬(s.wdt.armed1 = true ∧ s.wdt.armed2 = true) → ¬(wdt.armed1 = true ∧ wdt.armed2 = true)) →
      Effect i s { s with wdt := wdt, timeOut := timeOut, pdf := pdf }
  | powerDown (mft : BitVec 15) : i = .halt →
      Effect i s { watchdogClear s with timeOut := false, pdf := true, mft := mft, power := .halted }

section
variable {i : Instr} {m : DataAddr} {s t : State} {f : Byte → Byte} {u : Byte → FlagUpdate}

/-! ### The operand forms -/

theorem effect_skipIf (b : Bool) (h : Effect i s t) : Effect i s (skipIf b t) := by
  cases b with
  | false => exact h
  | true => exact .jump _ h

theorem effect_of_loadOp (hexec : exec i s = loadOp m f u s) (h : exec i s = .next t) : Effect i s t := by
  obtain ⟨-, rfl⟩ := loadOp_next.mp (hexec.symm.trans h)
  exact .result _ _ (.read _ .same)

theorem effect_of_setAccFlags {r : Byte} {u : FlagUpdate} (hexec : exec i s = .next (setAccFlags r u s))
    (h : exec i s = .next t) : Effect i s t := by
  cases hexec.symm.trans h
  exact .result _ _ .same

theorem effect_of_modifyByte (hexec : exec i s = modifyByte m f s) (h : exec i s = .next t) : Effect i s t := by
  obtain ⟨-, hmode, rfl⟩ := modifyByte_next.mp (hexec.symm.trans h)
  exact .write m _ hmode (.read _ .same)

theorem effect_of_modifyFlags (hexec : exec i s = modifyFlags m f u s) (h : exec i s = .next t) : Effect i s t := by
  obtain ⟨-, hmode, rfl⟩ := modifyFlags_next.mp (hexec.symm.trans h)
  exact .flags _ _ (.write m _ hmode (.read _ .same))

theorem effect_of_write {v : Byte} (hexec : exec i s = Machine.write m v s) (h : exec i s = .next t) : Effect i s t := by
  obtain ⟨-, hmode, rfl⟩ := write_next.mp (hexec.symm.trans h)
  exact .write m v hmode .same

theorem effect_of_testSkip {c : Byte → Bool} (hexec : exec i s = testSkip m c s) (h : exec i s = .next t) :
    Effect i s t := by
  obtain ⟨-, rfl⟩ := testSkip_next.mp (hexec.symm.trans h)
  exact effect_skipIf _ (.read _ .same)

theorem effect_of_loadSkip (hexec : exec i s = loadSkip m f s) (h : exec i s = .next t) : Effect i s t := by
  obtain ⟨-, rfl⟩ := loadSkip_next.mp (hexec.symm.trans h)
  exact effect_skipIf _ (.result _ {} (.read _ .same))

theorem effect_of_modifySkip (hexec : exec i s = modifySkip m f s) (h : exec i s = .next t) : Effect i s t := by
  obtain ⟨-, -, hmode, rfl⟩ := modifySkip_next.mp (hexec.symm.trans h)
  exact effect_skipIf _ (.write m _ hmode (.read _ .same))

theorem effect_of_tableRead {p : ProgAddr} (hi : ∃ m, i = .tabrdc m ∨ i = .tabrdl m) (hexec : exec i s = tableRead p m s)
    (h : exec i s = .next t) : Effect i s t := by
  obtain ⟨-, hmode, rfl⟩ := tableRead_next.mp (hexec.symm.trans h)
  exact .tableHigh _ hi (.write m _ hmode .same)

/-- DAA writes without a read and has a flag (40_arithmetic R182). -/
theorem effect_of_daaM (h : exec (.daaM m) s = .next t) : Effect (.daaM m) s t := by
  rw [exec_daaM] at h
  obtain ⟨w, hwrite, hflags⟩ := andThen_next.mp h
  obtain ⟨-, hmode, rfl⟩ := write_next.mp hwrite
  cases hflags
  exact .flags _ _ (.write m _ hmode .same)

/-! ### The stack, the watchdog and the power-down -/

theorem effect_of_return {k : State → State} (hk : ∀ x, Effect i s x → Effect i s (k x))
    (hexec : exec i s = returnThen k s) (h : exec i s = .next t) : Effect i s t := by
  obtain ⟨p, rest, hstk, rfl⟩ := returnThen_next.mp (hexec.symm.trans h)
  have hpop : rest = s.stk.tail := by rw [hstk, List.tail_cons]
  rw [hpop]
  exact hk _ (.jump p (.pop .same))

theorem exec_tabrdc (m : DataAddr) (s : State) : exec (.tabrdc m) s = tableRead (pageBits s ++ s.tblp) m s := rfl

theorem exec_tabrdl (m : DataAddr) (s : State) : exec (.tabrdl m) s = tableRead (0b11#2 ++ s.tblp) m s := rfl

theorem exec_nop (s : State) : exec .nop s = .next s := rfl

theorem exec_clrWdt (s : State) : exec .clrWdt s =
    if s.opts.clrWdtTimes = .one ∧ clearsActive s.opts then .next (clearWatchdogAndFlags s) else .next s := rfl

theorem exec_clrWdt1 (s : State) : exec .clrWdt1 s =
    if s.opts.clrWdtTimes = .two ∧ clearsActive s.opts then
      if s.wdt.armed2 then
        .next { clearWatchdogAndFlags s with wdt := { cnt := false, armed1 := false, armed2 := false } }
      else .next { s with wdt := { s.wdt with armed1 := true } }
    else .next s := rfl

theorem exec_clrWdt2 (s : State) : exec .clrWdt2 s =
    if s.opts.clrWdtTimes = .two ∧ clearsActive s.opts then
      if s.wdt.armed1 then
        .next { clearWatchdogAndFlags s with wdt := { cnt := false, armed1 := false, armed2 := false } }
      else .next { s with wdt := { s.wdt with armed2 := true } }
    else .next s := rfl

theorem exec_halt (s : State) : exec .halt s = .next { watchdogClear s with
    timeOut := false, pdf := true, mft := 0#7 ++ s.mft.extractLsb' 0 8, power := .halted } := rfl

theorem effect_of_clrWdt (h : exec .clrWdt s = .next t) : Effect .clrWdt s t := by
  rw [exec_clrWdt] at h
  split at h <;> cases h
  case isTrue => exact .watchdog _ _ _ (.inl rfl) id
  case isFalse => exact .same

/-- CLR WDT1 leaves its mark only where the other is clear, and else clears both (48_misc R300). -/
theorem effect_of_clrWdt1 (h : exec .clrWdt1 s = .next t) : Effect .clrWdt1 s t := by
  rw [exec_clrWdt1] at h
  split at h
  case isTrue =>
    split at h <;> cases h
    case isTrue => exact .watchdog _ _ _ (.inr (.inl rfl)) (fun _ => by simp)
    case isFalse harmed2 => exact .watchdog _ _ _ (.inr (.inl rfl)) (fun _ hboth => harmed2 hboth.2)
  case isFalse =>
    cases h
    exact .same

/-- CLR WDT2 leaves its mark only where the other is clear, and else clears both (48_misc R301). -/
theorem effect_of_clrWdt2 (h : exec .clrWdt2 s = .next t) : Effect .clrWdt2 s t := by
  rw [exec_clrWdt2] at h
  split at h
  case isTrue =>
    split at h <;> cases h
    case isTrue => exact .watchdog _ _ _ (.inr (.inr rfl)) (fun _ => by simp)
    case isFalse harmed1 => exact .watchdog _ _ _ (.inr (.inr rfl)) (fun _ hboth => harmed1 hboth.1)
  case isFalse =>
    cases h
    exact .same

/-! ### Every instruction -/

/-- What an instruction leaves is made by the operations of `Effect`. -/
theorem effect_of_exec (h : exec i s = .next t) : Effect i s t := by
  cases i with
  | addAM m => exact effect_of_loadOp (exec_addAM m s) h
  | adcAM m => exact effect_of_loadOp (exec_adcAM m s) h
  | subAM m => exact effect_of_loadOp (exec_subAM m s) h
  | sbcAM m => exact effect_of_loadOp (exec_sbcAM m s) h
  | andAM m => exact effect_of_loadOp (exec_andAM m s) h
  | orAM m => exact effect_of_loadOp (exec_orAM m s) h
  | xorAM m => exact effect_of_loadOp (exec_xorAM m s) h
  | cplaM m => exact effect_of_loadOp (exec_cplaM m s) h
  | incaM m => exact effect_of_loadOp (exec_incaM m s) h
  | decaM m => exact effect_of_loadOp (exec_decaM m s) h
  | rraM m => exact effect_of_loadOp (exec_rraM m s) h
  | rrcaM m => exact effect_of_loadOp (exec_rrcaM m s) h
  | rlaM m => exact effect_of_loadOp (exec_rlaM m s) h
  | rlcaM m => exact effect_of_loadOp (exec_rlcaM m s) h
  | movAM m => exact effect_of_loadOp (exec_movAM m s) h
  | swapaM m => exact effect_of_loadOp (exec_swapaM m s) h
  | addAX x => exact effect_of_setAccFlags (exec_addAX x s) h
  | subAX x => exact effect_of_setAccFlags (exec_subAX x s) h
  | andAX x => exact effect_of_setAccFlags (exec_andAX x s) h
  | orAX x => exact effect_of_setAccFlags (exec_orAX x s) h
  | xorAX x => exact effect_of_setAccFlags (exec_xorAX x s) h
  | movAX x => exact effect_of_setAccFlags (exec_movAX x s) h
  | addmAM m => exact effect_of_modifyFlags (exec_addmAM m s) h
  | adcmAM m => exact effect_of_modifyFlags (exec_adcmAM m s) h
  | submAM m => exact effect_of_modifyFlags (exec_submAM m s) h
  | sbcmAM m => exact effect_of_modifyFlags (exec_sbcmAM m s) h
  | andmAM m => exact effect_of_modifyFlags (exec_andmAM m s) h
  | ormAM m => exact effect_of_modifyFlags (exec_ormAM m s) h
  | xormAM m => exact effect_of_modifyFlags (exec_xormAM m s) h
  | cplM m => exact effect_of_modifyFlags (exec_cplM m s) h
  | incM m => exact effect_of_modifyFlags (exec_incM m s) h
  | decM m => exact effect_of_modifyFlags (exec_decM m s) h
  | rrcM m => exact effect_of_modifyFlags (exec_rrcM m s) h
  | rlcM m => exact effect_of_modifyFlags (exec_rlcM m s) h
  | rrM m => exact effect_of_modifyByte (exec_rrM m s) h
  | rlM m => exact effect_of_modifyByte (exec_rlM m s) h
  | swapM m => exact effect_of_modifyByte (exec_swapM m s) h
  | clrBit b m => exact effect_of_modifyByte (exec_clrBit b m s) h
  | setBit b m => exact effect_of_modifyByte (exec_setBit b m s) h
  | movMA m => exact effect_of_write (exec_movMA m s) h
  | clrM m => exact effect_of_write (exec_clrM m s) h
  | setM m => exact effect_of_write (exec_setM m s) h
  | szM m => exact effect_of_testSkip (exec_szM m s) h
  | szBit b m => exact effect_of_testSkip (exec_szBit b m s) h
  | snzBit b m => exact effect_of_testSkip (exec_snzBit b m s) h
  | szaM m => exact effect_of_loadSkip (exec_szaM m s) h
  | sizaM m => exact effect_of_loadSkip (exec_sizaM m s) h
  | sdzaM m => exact effect_of_loadSkip (exec_sdzaM m s) h
  | sizM m => exact effect_of_modifySkip (exec_sizM m s) h
  | sdzM m => exact effect_of_modifySkip (exec_sdzM m s) h
  | daaM m => exact effect_of_daaM h
  | tabrdc m => exact effect_of_tableRead ⟨m, .inl rfl⟩ (exec_tabrdc m s) h
  | tabrdl m => exact effect_of_tableRead ⟨m, .inr rfl⟩ (exec_tabrdl m s) h
  | jmp addr =>
    cases (exec_jmp addr s).symm.trans h
    exact .jump addr .same
  | call addr =>
    cases (exec_call addr s).symm.trans h
    exact .jump addr (.push s.pc .same)
  | ret => exact effect_of_return (fun _ => id) (exec_ret s) h
  | retAX x => exact effect_of_return (fun _ => .result x {}) (exec_retAX x s) h
  | reti => exact effect_of_return (fun _ => .enableInterrupts) (exec_reti s) h
  | nop =>
    cases (exec_nop s).symm.trans h
    exact .same
  | clrWdt => exact effect_of_clrWdt h
  | clrWdt1 => exact effect_of_clrWdt1 h
  | clrWdt2 => exact effect_of_clrWdt2 h
  | halt =>
    cases (exec_halt s).symm.trans h
    exact .powerDown _ rfl

/-! ### What no instruction changes, and what only some do -/

theorem Effect.rom (h : Effect i s t) : t.rom = s.rom := by
  induction h with
  | read _ _ ih | result _ _ _ ih | write _ _ _ _ ih | flags _ _ _ ih => simpa using ih
  | same | watchdog | powerDown => rfl
  | jump _ _ ih | push _ _ ih | pop _ ih | enableInterrupts _ ih | tableHigh _ _ _ ih => exact ih

theorem Effect.opts (h : Effect i s t) : t.opts = s.opts := by
  induction h with
  | read _ _ ih | result _ _ _ ih | write _ _ _ _ ih | flags _ _ _ ih => simpa using ih
  | same | watchdog | powerDown => rfl
  | jump _ _ ih | push _ _ ih | pop _ ih | enableInterrupts _ ih | tableHigh _ _ _ ih => exact ih

/-- The divider is the prescaler that HALT clears, and no other instruction reaches it (60_exceptions R361). -/
theorem Effect.mft (h : Effect i s t) (hi : i ≠ .halt) : t.mft = s.mft := by
  induction h with
  | read _ _ ih | result _ _ _ ih | write _ _ _ _ ih | flags _ _ _ ih => simpa using ih
  | same | watchdog => rfl
  | jump _ _ ih | push _ _ ih | pop _ ih | enableInterrupts _ ih | tableHigh _ _ _ ih => exact ih
  | powerDown _ hhalt => exact absurd hhalt hi

/-- TO and PDF change by HALT and by the watchdog clears alone (10_state R46). -/
theorem Effect.timeOut_pdf (h : Effect i s t) (hhalt : i ≠ .halt) (hclr : i ≠ .clrWdt) (hclr1 : i ≠ .clrWdt1)
    (hclr2 : i ≠ .clrWdt2) : t.timeOut = s.timeOut ∧ t.pdf = s.pdf := by
  induction h with
  | read _ _ ih | result _ _ _ ih | write _ _ _ _ ih | flags _ _ _ ih => simpa using ih
  | same => exact ⟨rfl, rfl⟩
  | jump _ _ ih | push _ _ ih | pop _ ih | enableInterrupts _ ih | tableHigh _ _ _ ih => exact ih
  | powerDown _ hi => exact absurd hi hhalt
  | watchdog _ _ _ hi =>
    obtain hi | hi | hi := hi
    · exact absurd hi hclr
    · exact absurd hi hclr1
    · exact absurd hi hclr2

/-- TBLH is written by the table reads alone (10_state R55). -/
theorem Effect.tblh (h : Effect i s t) (hi : ∀ m, i ≠ .tabrdc m ∧ i ≠ .tabrdl m) : t.tblh = s.tblh := by
  induction h with
  | read _ _ ih | result _ _ _ ih | write _ _ _ _ ih | flags _ _ _ ih => simpa using ih
  | same | watchdog | powerDown => rfl
  | jump _ _ ih | push _ _ ih | pop _ ih | enableInterrupts _ ih => exact ih
  | tableHigh _ htable =>
    obtain ⟨m, hi' | hi'⟩ := htable
    · exact absurd hi' (hi m).1
    · exact absurd hi' (hi m).2

theorem writeLoc_lcd_of_not_lcd {l : Loc} (h : ∀ a, l ≠ .lcd a) (v : Byte) (s : State) : (writeLoc l v s).lcd = s.lcd := by
  cases l with
  | lcd a => exact absurd rfl (h a)
  | _ => rfl

/-- With BP = 0 no operand leads into the display memory (20_memory R102, R104). -/
theorem Effect.lcd (h : Effect i s t) (hbp : s.bp = false) : t.lcd = s.lcd := by
  induction h with
  | read _ _ ih | result _ _ _ ih | flags _ _ _ ih => simpa using ih
  | write m v _ _ ih =>
    have hnot : ∀ a, locate m s ≠ .lcd a := by
      intro a hl
      obtain ⟨-, hset, -⟩ := locate_lcd hl
      rw [hbp] at hset
      cases hset
    exact (writeLoc_lcd_of_not_lcd hnot v _).trans ih
  | same | watchdog | powerDown => rfl
  | jump _ _ ih | push _ _ ih | pop _ ih | enableInterrupts _ ih | tableHigh _ _ _ ih => exact ih

end

/-- Settles O43: the two rules about every instruction's effect. -/
theorem tblhAndLcdAreReachedOneWay : Obligations.TblhAndLcdAreReachedOneWay := by
  intro i s t hexec
  have heffect := effect_of_exec hexec
  exact ⟨heffect.tblh, heffect.lcd⟩

end Sys2Proof.Proofs

/-! What a device tick can do: beside its frame it changes of the timer the counter and the PFD phase, of the interrupt
registers the request flags, and it can only wake a halted machine (60_exceptions R360, R365 to R377). -/

namespace Sys2Proof.Proofs

open Sys2Proof.Machine

/-- `t` has the power state of `s`, or the start-up delay of a machine that `s` has halted (60_exceptions R397). -/
def PowerKeptOrWoken (s t : State) : Prop :=
  t.power = s.power ∨ (s.power = .halted ∧ t.power = .waking startUpPeriods)

/-- `t` is `s` but for what a tick of a device can change. -/
structure TickFrame (s t : State) : Prop where
  frame : DeviceFrame s t
  timer : { t.timer with cnt := s.timer.cnt, pfd := s.timer.pfd } = s.timer
  intc : { t.intc with tf := s.intc.tf, tbf := s.intc.tbf, rtf := s.intc.rtf } = s.intc
  power : PowerKeptOrWoken s t
  unseen : s.power ≠ .running → t.unseen = s.unseen

section
variable {s t u : State} {src : Source}

/-! ### Waking -/

theorem PowerKeptOrWoken.trans (h : PowerKeptOrWoken s t) (k : PowerKeptOrWoken t u) : PowerKeptOrWoken s u := by
  obtain hkept | ⟨hhalted, hwoken⟩ := h
  · rw [PowerKeptOrWoken, hkept] at k
    exact k
  · obtain hkept | ⟨hhalted', -⟩ := k
    · exact .inr ⟨hhalted, hkept.trans hwoken⟩
    · rw [hwoken] at hhalted'
      cases hhalted'

theorem PowerKeptOrWoken.ne_running (h : PowerKeptOrWoken s t) (hs : s.power ≠ .running) : t.power ≠ .running := by
  obtain hkept | ⟨-, hwoken⟩ := h
  · rwa [hkept]
  · rw [hwoken]
    nofun

theorem wake_power (s : State) : PowerKeptOrWoken s (wake s) := by
  unfold wake
  split
  case h_1 hhalted => exact .inr ⟨hhalted, rfl⟩
  all_goals exact .inl rfl

theorem wake_frame (s : State) : DeviceFrame s (wake s) := by
  unfold wake
  split <;> rfl

/-! ### A request -/

theorem setRequest_of_requested {i : Intc} (h : requested i src = true) : setRequest src true i = i := by
  rw [← h]
  cases src <;> rfl

/-- A request sets its flag and no other bit of the interrupt registers, whatever the flag was (60_exceptions R335). -/
theorem raise_intc (src : Source) (s : State) : (raise src s).intc = setRequest src true s.intc := by
  unfold raise
  split
  case isTrue hset => rw [setRequest_of_requested hset]
  case isFalse =>
    dsimp only
    split <;> simp

theorem raise_power (src : Source) (s : State) : PowerKeptOrWoken s (raise src s) := by
  unfold raise
  split
  case isTrue => exact .inl rfl
  case isFalse =>
    dsimp only
    split
    case h_2 => exact wake_power { s with intc := setRequest src true s.intc }
    all_goals exact .inl rfl

/-- Only a running machine's next check can miss a request (60_exceptions R340). -/
theorem raise_unseen (src : Source) (h : s.power ≠ .running) : (raise src s).unseen = s.unseen := by
  unfold raise
  split
  case isTrue => rfl
  case isFalse =>
    dsimp only
    split
    case h_1 hrun => exact absurd hrun h
    case h_2 => exact wake_unseen _
    case h_3 => rfl

/-! ### The ticks -/

theorem TickFrame.refl (s : State) : TickFrame s s := ⟨rfl, rfl, rfl, .inl rfl, fun _ => rfl⟩

theorem TickFrame.trans (h : TickFrame s t) (k : TickFrame t u) : TickFrame s u where
  frame := DeviceFrame.trans h.frame k.frame
  timer := (congrArg (fun x : Timer => { x with cnt := s.timer.cnt, pfd := s.timer.pfd }) k.timer).trans h.timer
  intc := (congrArg (fun x : Intc => { x with tf := s.intc.tf, tbf := s.intc.tbf, rtf := s.intc.rtf }) k.intc).trans h.intc
  power := h.power.trans k.power
  unseen := fun hs => (k.unseen (h.power.ne_running hs)).trans (h.unseen hs)

/-- The three sources on the chip; the external one is no device's tick. -/
theorem tickFrame_raise (h : src ≠ .ext) (s : State) : TickFrame s (raise src s) where
  frame := raise_frame src s
  timer := by rw [raise_timer]
  intc := by
    rw [raise_intc]
    cases src with
    | ext => exact absurd rfl h
    | tmr | tb | rtc => rfl
  power := raise_power src s
  unseen := raise_unseen src

theorem tickFrame_timerOverflow (s : State) : TickFrame s (timerOverflow s) :=
  TickFrame.trans (t := { s with timer := { s.timer with pfd := !s.timer.pfd } })
    ⟨rfl, rfl, rfl, .inl rfl, fun _ => rfl⟩
    (tickFrame_raise (by decide) _)

theorem tickFrame_timerCount (s : State) : TickFrame s (timerCount s) := by
  unfold timerCount
  split
  · exact TickFrame.trans (t := { s with timer := { s.timer with cnt := s.timer.pre } })
      ⟨rfl, rfl, rfl, .inl rfl, fun _ => rfl⟩
      (tickFrame_timerOverflow _)
  · exact ⟨rfl, rfl, rfl, .inl rfl, fun _ => rfl⟩

theorem tickFrame_timerNoise (s : State) : TickFrame s (timerNoise s) := by
  unfold timerNoise
  split
  · dsimp only
    have hcontent : TickFrame s
        { s with timer := { s.timer with cnt := Config.timerNoise s.draws }, draws := s.draws + 1 } :=
      ⟨rfl, rfl, rfl, .inl rfl, fun _ => rfl⟩
    split
    · exact hcontent.trans (tickFrame_timerOverflow _)
    · exact hcontent
  · exact .refl s

theorem tickFrame_timerTick (s : State) : TickFrame s (timerTick s) := by
  unfold timerTick
  split
  · exact .refl s
  · split
    · exact tickFrame_timerNoise s
    · split
      · dsimp only
        have hdraw : TickFrame s { s with draws := s.draws + 1 } := ⟨rfl, rfl, rfl, .inl rfl, fun _ => rfl⟩
        split
        · exact hdraw
        · exact hdraw.trans (tickFrame_timerCount _)
      · exact tickFrame_timerCount s

theorem tickFrame_internalTick (s : State) : TickFrame s (internalTick s) := by
  unfold internalTick
  split
  · exact tickFrame_timerTick s
  · split
    · exact tickFrame_timerTick s
    · exact .refl s

theorem tickFrame_systemTick (s : State) : TickFrame s (systemTick s) := by
  unfold systemTick
  split
  · exact tickFrame_internalTick s
  · exact .refl s

theorem tickFrame_timeBaseTap (s : State) : TickFrame s (timeBaseTap s) := by
  unfold timeBaseTap
  split
  · exact tickFrame_raise (by decide) s
  · exact .refl s

theorem tickFrame_rtcTap (s : State) : TickFrame s (rtcTap s) := by
  unfold rtcTap
  split
  · dsimp only
    have hrequest : TickFrame s (raise .rtc s) := tickFrame_raise (by decide) s
    split
    · exact hrequest
    · exact hrequest.trans (tickFrame_internalTick _)
  · exact .refl s

/-- The two taps below the watchdog's, in their order. -/
theorem tickFrame_taps (s : State) : TickFrame s (rtcTap (timeBaseTap s)) :=
  (tickFrame_timeBaseTap s).trans (tickFrame_rtcTap _)

end

end Sys2Proof.Proofs

/-! The machine invariant: each operation, event, tick and reset keeps it, so a step does (10_state R35, R66, R67, 48_misc
R300, R301, 60_exceptions R375, R392, R398). -/

namespace Sys2Proof.Proofs

open Sys2Proof.Machine Sys2Proof.Safety

section
variable {s t : State} {l : Loc} {v : Byte} {i : Instr}

/-! ### Writes -/

theorem ramLegal_writeLoc (h : RamLegal s) (hl : ∀ a, l = .ram a → 0x40 ≤ a ∧ a ≤ 0x7F) :
    RamLegal (writeLoc l v s) := by
  obtain ⟨hwf, hrange⟩ := h
  cases l with
  | ram a =>
    refine ⟨Memory.wf_write hwf a v, fun c hc => ?_⟩
    obtain rfl | hold := Memory.mem_write hc
    · exact hl a rfl
    · exact hrange c hold
  | _ => exact ⟨hwf, hrange⟩

theorem and_mask_and_not_mask (v mask : Byte) : v &&& mask &&& ~~~mask = 0 := by
  refine BitVec.eq_of_getLsbD_eq fun j hj => ?_
  cases hmask : mask.getLsbD j <;> simp [hmask]

/-- What a write stores in the display memory has been cut to LCD_MASK (10_state R67, 92_eei D10). -/
theorem lcdLegal_writeLoc (h : LcdLegal s) (hl : ∀ a, l = .lcd a → 0x40 ≤ a ∧ a ≤ 0x4E) :
    LcdLegal (writeLoc l v s) := by
  obtain ⟨hwf, hrange⟩ := h
  cases l with
  | lcd a =>
    refine ⟨Memory.wf_write hwf a _, fun c hc => ?_⟩
    obtain rfl | hold := Memory.mem_write hc
    · obtain ⟨hlo, hhi⟩ := hl a rfl
      exact ⟨hlo, hhi, and_mask_and_not_mask v s.opts.lcdMask⟩
    · exact hrange c hold
  | _ => exact ⟨hwf, hrange⟩

/-- The one write that turns the timer on names a mode other than 00 (60_exceptions R375, 92_eei D28). -/
theorem timerModeLegal_writeLoc (h : TimerModeLegal s) (hmode : startsMode00 l v = false) :
    TimerModeLegal (writeLoc l v s) := by
  cases l with
  | tmrc => exact startsMode00_eq_false.mp hmode rfl
  | _ => exact h

theorem legal_writeLoc {m : DataAddr} (h : Legal t) (hmode : startsMode00 (locate m s) v = false) :
    Legal (writeLoc (locate m s) v t) where
  stack := by rw [StackBounded, writeLoc_stk]; exact h.stack
  ram := ramLegal_writeLoc h.ram fun _ => locate_ram
  lcd := lcdLegal_writeLoc h.lcd fun _ hl => by
    obtain ⟨-, -, -, hrange⟩ := locate_lcd hl
    exact hrange
  timer := timerModeLegal_writeLoc h.timer hmode
  marks := by rw [WdtMarksExclusive, writeLoc_wdt]; exact h.marks
  power := by rw [PowerDownMarked, writeLoc_power, writeLoc_pdf]; exact h.power
  delay := by rw [DelayBounded, writeLoc_power]; exact h.delay
  rom := by rw [RomLegal, writeLoc_rom]; exact h.rom

/-! ### Instructions and the interrupt entry -/

theorem legal_readEffect (h : Legal s) : Legal (readEffect l s) := by
  cases l <;> exact { h with }

theorem legal_setFlagsAfter {u : FlagUpdate} (h : Legal s) : Legal (setFlagsAfter l u s) := by
  unfold setFlagsAfter
  split <;> exact { h with }

/-- An instruction of a running machine keeps the invariant: the watchdog clears may clear PDF while it
runs, HALT sets it. -/
theorem legal_of_effect (h : Legal s) (hrun : s.power = .running) (heffect : Effect i s t) : Legal t := by
  induction heffect with
  | same => exact h
  | read _ _ ih => exact legal_readEffect ih
  | flags _ _ _ ih => exact legal_setFlagsAfter ih
  | write _ _ hmode _ ih => exact legal_writeLoc ih hmode
  | result _ _ _ ih | jump _ _ ih | enableInterrupts _ ih | tableHigh _ _ _ ih => exact { ih with }
  | push p _ ih => exact { ih with stack := push_length p _ }
  | pop _ ih => exact { ih with stack := List.length_tail.trans_le ((Nat.sub_le _ _).trans ih.stack) }
  | watchdog _ _ _ _ hmarks => exact { h with marks := hmarks h.marks, power := .inl hrun }
  | powerDown _ _ => exact { h with power := .inr rfl, delay := nofun }

theorem legal_enter {src : Source} (h : Legal s) : Legal (enter src s) :=
  { h with stack := push_length s.pc s.stk }

theorem legal_interruptCheck (h : Legal s) : Legal (interruptCheck s) := by
  obtain ⟨hsame, -⟩ | ⟨src, -, henter⟩ := interruptCheck_cases s
  · rw [hsame]; exact h
  · rw [henter]; exact legal_enter h

theorem interruptCheck_power (s : State) : (interruptCheck s).power = s.power := by
  obtain ⟨hsame, -⟩ | ⟨src, -, henter⟩ := interruptCheck_cases s
  · rw [hsame]
  · rw [henter, enter_power]

/-! ### Device ticks -/

/-- What changes of a state only the timer, the interrupt registers, the power state, the marks and the draws keeps the
invariant, if the timer's mode and TON stay and the machine at most wakes. -/
theorem legal_of_deviceFrame (h : Legal s) (hframe : DeviceFrame s t) (hton : t.timer.ton = s.timer.ton)
    (htm : t.timer.tm = s.timer.tm) (hpower : PowerKeptOrWoken s t) : Legal t where
  stack := by rw [StackBounded, hframe.stk]; exact h.stack
  ram := by rw [RamLegal, hframe.ram]; exact h.ram
  lcd := by rw [LcdLegal, hframe.lcd, hframe.opts]; exact h.lcd
  timer := by rw [TimerModeLegal, hton, htm]; exact h.timer
  marks := by rw [WdtMarksExclusive, hframe.wdt]; exact h.marks
  power := by
    rw [PowerDownMarked, hframe.pdf]
    obtain hkept | ⟨hhalted, -⟩ := hpower
    · rw [hkept]; exact h.power
    · exact .inr (h.power.resolve_left (by rw [hhalted]; nofun))
  delay := by
    intro n hn
    obtain hkept | ⟨-, hwoken⟩ := hpower
    · exact h.delay n (hkept.symm.trans hn)
    · cases hwoken.symm.trans hn
      exact le_rfl
  rom := by rw [RomLegal, hframe.rom]; exact h.rom

theorem legal_of_tickFrame (h : Legal s) (htick : TickFrame s t) : Legal t :=
  legal_of_deviceFrame h htick.frame (congrArg Timer.ton htick.timer :) (congrArg Timer.tm htick.timer :) htick.power

theorem legal_raise {src : Source} (h : Legal s) : Legal (raise src s) :=
  legal_of_deviceFrame h (raise_frame src s) (by rw [raise_timer]) (by rw [raise_timer]) (raise_power src s)

theorem legal_wake (h : Legal s) : Legal (wake s) :=
  legal_of_deviceFrame h (wake_frame s) (by rw [wake_timer]) (by rw [wake_timer]) (wake_power s)

/-! ### Resets -/

theorem legal_resetCommon {k : ResetKind} (h : Legal s) : Legal (resetCommon k s) :=
  { h with stack := Nat.zero_le _, timer := nofun, marks := (nomatch ·.1), power := .inl rfl, delay := nofun }

theorem legal_forgetMemories {draw : Nat} (h : Legal s) : Legal (forgetMemories draw s) :=
  { h with
    ram := ⟨Memory.wf_filled _ _, fun _ hc => mem_ramAddrs (Memory.mem_filled hc).1⟩
    lcd := by
      refine ⟨Memory.wf_filled _ _, fun c hc => ?_⟩
      obtain ⟨haddr, hbyte⟩ := Memory.mem_filled hc
      obtain ⟨hlo, hhi⟩ := mem_lcdAddrs haddr
      exact ⟨hlo, hhi, by rw [hbyte]; exact and_mask_and_not_mask _ _⟩ }

theorem legal_chipReset {k : ResetKind} (h : Legal s) : Legal (chipReset k s) := by
  have hcommon : Legal (resetCommon k s) := legal_resetCommon h
  have hregisters : Legal (forgetRegisters s.draws (resetCommon k s)) := { hcommon with }
  unfold chipReset
  dsimp only
  split
  case h_1 => exact legal_forgetMemories hregisters
  all_goals
    split
    · exact hcommon
    · exact legal_forgetMemories hcommon

/-- The warm reset keeps PDF, which a halted machine has set (60_exceptions R398). -/
theorem legal_warmReset (h : Legal s) (hpower : s.power ≠ .running) : Legal (warmReset s) :=
  { h with
    stack := Nat.zero_le _
    power := .inr (h.power.resolve_left hpower)
    delay := fun n hn => by cases hn; exact le_rfl }

theorem legal_watchdogTimeOut (h : Legal s) : Legal (watchdogTimeOut s) := by
  unfold watchdogTimeOut
  split
  case h_1 => exact legal_chipReset h
  all_goals
    rename_i hpower
    exact legal_warmReset h (by rw [hpower]; nofun)

theorem legal_watchdogTap (h : Legal s) : Legal (watchdogTap s) := by
  unfold watchdogTap
  split
  · split
    · exact legal_watchdogTimeOut { h with }
    · exact { h with }
  · exact h

theorem legal_fsTick (h : Legal s) : Legal (fsTick s) :=
  legal_watchdogTap (legal_of_tickFrame (s := { s with mft := s.mft + 1 }) { h with } (tickFrame_taps _))

theorem legal_applyTick (k : Tick) (s : State) (h : Legal s) : Legal (applyTick k s) := by
  cases k with
  | fs => exact legal_fsTick h
  | clock => exact legal_of_tickFrame h (tickFrame_systemTick s)
  | cycleEnd => exact { h with }

/-! ### Events -/

theorem legal_tmrEdge {rising : Bool} (h : Legal s) : Legal (tmrEdge rising s) := by
  unfold tmrEdge startEdge stopEdge
  split
  · split
    · exact legal_of_tickFrame h (tickFrame_timerTick s)
    · exact h
  · split
    · split
      · split
        · exact { h with }
        · exact h
      · split
        · exact { h with timer := nofun }
        · exact h
    · exact h

theorem legal_applyEvent (e : Event) (s : State) (h : Legal s) : Legal (applyEvent s e) := by
  cases e with
  | fsTick =>
    rw [applyEvent]
    split
    · exact h
    · exact legal_fsTick h
  | portA driven level =>
    rw [applyEvent, portAEvent]
    dsimp only
    split
    · exact { h with }
    · exact legal_wake { h with }
  | intPin level =>
    rw [applyEvent, intPinEvent]
    dsimp only
    split
    · exact legal_raise { h with }
    · exact { h with }
  | tmrPin level =>
    rw [applyEvent, tmrPinEvent]
    dsimp only
    split
    · exact { h with }
    · exact legal_tmrEdge { h with }
  | supply low => exact { h with }
  | resetPin =>
    rw [applyEvent, resetPinEvent]
    split <;> exact legal_chipReset h
  | lowVoltage =>
    rw [applyEvent, lowVoltageEvent]
    split
    · exact legal_chipReset h
    · exact h
  | powerOn => exact legal_chipReset (k := .powerOn) h

/-! ### The step -/

theorem legal_runSchedule (hs : List Happening) (due : List Tick) (h : Legal s) : Legal (runSchedule hs due s) :=
  runSchedule_keeps legal_applyEvent legal_applyTick hs due s h

theorem legal_timerNoise (h : Legal s) : Legal (timerNoise s) := legal_of_tickFrame h (tickFrame_timerNoise s)

theorem legal_settle (h : Legal s) : Legal (settle s) := by
  unfold settle
  split
  case h_1 => exact { h with power := .inl rfl, delay := nofun }
  all_goals exact h

/-- The fetched instruction runs in the state after the fetch, and the ticks of its cycles follow it. -/
theorem legal_of_fetchAndRun {hs : List Happening} (h : Legal s) (hrun : s.power = .running)
    (hnext : fetchAndRun hs s = .next t) : Legal t := by
  unfold fetchAndRun at hnext
  split at hnext
  · cases hnext
  · split at hnext
    · cases hnext
    · obtain ⟨x, hexec, hafter⟩ := andThen_next.mp hnext
      have hfetch : Legal (afterFetch s) := { h with }
      have hexecuted : Legal x := legal_of_effect hfetch hrun (effect_of_exec hexec)
      cases hafter
      exact legal_timerNoise (legal_runSchedule _ _ { hexecuted with })

/-- One cycle of the start-up delay: the machine has PDF set, and the delay grows shorter. -/
theorem legal_wakingCycle {hs : List Happening} {n : Nat} (h : Legal s) (hpower : s.power = .waking n) :
    Legal (wakingCycle hs n s) := by
  have hpdf : s.pdf = true := h.power.resolve_left (by rw [hpower]; nofun)
  have hshorter : Legal { s with power := .waking (n - 4), tmrBlocked := false } :=
    { h with
      power := .inr hpdf
      delay := fun k hk => by cases hk; exact (Nat.sub_le _ _).trans (h.delay n hpower) }
  exact legal_settle (legal_timerNoise (legal_runSchedule _ _ hshorter))

theorem legal_of_boundary {hs : List Happening} (h : Legal s) (hnext : boundary hs s = .next t) : Legal t := by
  unfold boundary at hnext
  split at hnext
  case h_1 hrun =>
    exact legal_of_fetchAndRun (legal_interruptCheck h) ((interruptCheck_power s).trans hrun) hnext
  case h_2 =>
    cases hnext
    exact legal_timerNoise (legal_runSchedule _ _ { h with })
  case h_3 n hpower =>
    cases hnext
    exact legal_wakingCycle h hpower

end

/-- Settles O6: the events before the boundary keep the invariant, and so does what the machine does at it. -/
theorem stepKeepsLegal : Obligations.StepKeepsLegal :=
  fun _ _ h hstep => legal_of_boundary (takeInputs_keeps legal_applyEvent { h with }) hstep

/-- Settles O7: the memories are empty, the timer is off and the machine runs. -/
theorem resetIsLegal : Obligations.ResetIsLegal := by
  obtain ⟨hram, hlcd, hrom⟩ := reset_memories_wf
  exact { stack := Nat.zero_le _, ram := ⟨hram, nofun⟩, lcd := ⟨hlcd, nofun⟩, timer := nofun, marks := (nomatch ·.1),
          power := .inl rfl, delay := nofun, rom := hrom }

/-- Settles O8: the reset state and the register reads are closed terms. -/
theorem resetGivesSpecValues : Obligations.ResetGivesSpecValues :=
  ⟨rfl, rfl, rfl, rfl, rfl, rfl, rfl, rfl, rfl, rfl, rfl, rfl, rfl, rfl, rfl, rfl, rfl⟩

end Sys2Proof.Proofs

/-! What no step changes: the program image and the options, which no instruction, event, tick or reset writes (20_memory
R123, 70_reset R429). -/

namespace Sys2Proof.Proofs

open Sys2Proof.Machine

section
variable {s t : State}

/-- `t` has the program and the options of `s`. -/
def SamePart (s t : State) : Prop := t.rom = s.rom ∧ t.opts = s.opts

theorem SamePart.trans {u : State} (h : SamePart s t) (k : SamePart t u) : SamePart s u :=
  ⟨k.1.trans h.1, k.2.trans h.2⟩

theorem samePart_takeInputs (s : State) : SamePart s (takeInputs s) :=
  takeInputs_keeps (P := SamePart s)
    (fun e x h => ⟨(applyEvent_rom x e).trans h.1, (applyEvent_opts x e).trans h.2⟩) ⟨rfl, rfl⟩

theorem samePart_interruptCheck (s : State) : SamePart s (interruptCheck s) := by
  obtain ⟨hsame, -⟩ | ⟨src, -, henter⟩ := interruptCheck_cases s
  · rw [hsame]; exact ⟨rfl, rfl⟩
  · rw [henter]; exact ⟨rfl, rfl⟩

/-- The ticks and events of a schedule, and the unprimed timer's effects after them. -/
theorem samePart_schedule (hs : List Happening) (due : List Tick) (s : State) :
    SamePart s (timerNoise (runSchedule hs due s)) :=
  ⟨by simp, by simp⟩

theorem samePart_settle (s : State) : SamePart s (settle s) := by
  unfold settle
  split <;> exact ⟨rfl, rfl⟩

theorem samePart_of_fetchAndRun {hs : List Happening} (hnext : fetchAndRun hs s = .next t) : SamePart s t := by
  unfold fetchAndRun at hnext
  split at hnext
  · cases hnext
  · split at hnext
    · cases hnext
    · obtain ⟨x, hexec, hafter⟩ := andThen_next.mp hnext
      have heffect := effect_of_exec hexec
      have hexecuted : SamePart s x := ⟨heffect.rom, heffect.opts⟩
      cases hafter
      exact hexecuted.trans (samePart_schedule _ _ _)

theorem samePart_of_boundary {hs : List Happening} (hnext : boundary hs s = .next t) : SamePart s t := by
  unfold boundary at hnext
  split at hnext
  case h_1 => exact (samePart_interruptCheck s).trans (samePart_of_fetchAndRun hnext)
  case h_2 =>
    cases hnext
    exact samePart_schedule _ _ _
  case h_3 n _ =>
    cases hnext
    have hcycle := samePart_schedule hs (dueTicks 1 s.opts) { s with power := .waking (n - 4), tmrBlocked := false }
    exact hcycle.trans (samePart_settle _)

end

/-- Settles O44: each part of a step keeps the program and the options. -/
theorem programAndOptionsNeverChange : Obligations.ProgramAndOptionsNeverChange :=
  fun s _ hstep => (samePart_takeInputs s).trans (samePart_of_boundary hstep)

end Sys2Proof.Proofs

/-! Signed overflow, and decimal addition: what the adder's OV and the decimal adjustment's C say about the numbers that were
added (40_arithmetic R171, R182, R183). -/

namespace Sys2Proof.Proofs

open Sys2Proof.Machine Sys2Proof.Claims

section
variable {s t : State} {i : Instr} {a b r : Byte} {c : Bool} {f : AluFlags} {P : State → Prop}

/-- What a completing instruction leaves is of the one state it answers. -/
theorem of_completes (h : Completes i s P) (hexec : exec i s = .next t) : P t := by
  obtain ⟨t', hnext, hP⟩ := h
  cases hexec.symm.trans hnext
  exact hP

/-! ### OV -/

/-- The carries into and out of bit 7 differ exactly when the exact signed sum does not fit a byte (40_arithmetic R183). -/
theorem ov_of_isSum (h : IsSum a b c.toNat r f) :
    f.ov = true ↔ (a.toInt + b.toInt + c.toNat < -128 ∨ 127 < a.toInt + b.toInt + c.toNat) := by
  obtain ⟨-, -, -, -, hov⟩ := h
  have ha := a.isLt
  have hb := b.isLt
  have hc := c.toNat_le
  rw [hov, bne_iff_ne, ne_eq, decide_eq_decide, BitVec.toInt_eq_toNat_cond, BitVec.toInt_eq_toNat_cond]
  split <;> split <;> omega

/-- The difference is the sum with the complement, whose signed value is -1 - b (40_arithmetic R171). -/
theorem ov_of_isDifference (h : IsDifference a b 0 r f) :
    f.ov = true ↔ (a.toInt - b.toInt < -128 ∨ 127 < a.toInt - b.toInt) := by
  obtain ⟨-, -, -, -, hov⟩ := h
  have ha := a.isLt
  have hb := b.isLt
  rw [hov, bne_iff_ne, ne_eq, decide_eq_decide, BitVec.toInt_eq_toNat_cond, BitVec.toInt_eq_toNat_cond]
  split <;> split <;> omega

/-! ### Decimal addition -/

theorem toNat_decide (p : Prop) [Decidable p] : (decide p).toNat = if p then 1 else 0 := by
  split <;> simp [*]

/-- The adjusted sum of two BCD bytes and a carry as a number, before it is cut to a byte: the low digit is corrected where
the low digits' sum passes 9, the high digit where the whole sum passes 99 (40_arithmetic R182). -/
theorem daaExact_of_bcd_sum (ha : IsBcd a) (hb : IsBcd b) (h : IsSum a b c.toNat r f) :
    daaExact .sequential r f.ac f.c + 256 * f.c.toNat =
      a.toNat + b.toNat + c.toNat + (if 9 < a.toNat % 16 + b.toNat % 16 + c.toNat then 6 else 0) +
        (if 99 < bcd a + bcd b + c.toNat then 0x60 else 0) := by
  obtain ⟨hr, hc, hac, -, -⟩ := h
  obtain ⟨ha1, ha0⟩ := ha
  obtain ⟨hb1, hb0⟩ := hb
  have hcarry := c.toNat_le
  have hlow : (9 < r.toNat % 16 ∨ f.ac = true) ↔ 9 < a.toNat % 16 + b.toNat % 16 + c.toNat := by
    rw [hac, decide_eq_true_eq]; omega
  have hhigh : (9 < (r.toNat + if 9 < a.toNat % 16 + b.toNat % 16 + c.toNat then 6 else 0) / 16 ∨ f.c = true) ↔
      99 < bcd a + bcd b + c.toNat := by
    rw [hc, decide_eq_true_eq, bcd, bcd]
    split <;> omega
  have hcut : r.toNat + 256 * f.c.toNat = a.toNat + b.toNat + c.toNat := by
    rw [hc, toNat_decide]
    split <;> omega
  simp only [daaExact, ite_or_add, hlow, hhigh]
  omega

/-- DAA turns the binary sum of two BCD bytes and a carry into their decimal sum, with C as its hundreds (92_eei D6). -/
theorem bcd_daaResult (ha : IsBcd a) (hb : IsBcd b) (h : IsSum a b c.toNat r f) :
    IsBcd (daaResult .sequential r f.ac f.c) ∧
    bcd (daaResult .sequential r f.ac f.c) + 100 * (daaCarry .sequential r f.ac f.c).toNat =
      bcd a + bcd b + c.toNat := by
  have hexact := daaExact_of_bcd_sum ha hb h
  obtain ⟨ha1, ha0⟩ := ha
  obtain ⟨hb1, hb0⟩ := hb
  have hcarry := c.toNat_le
  have hbyte : (daaResult .sequential r f.ac f.c).toNat = (daaExact .sequential r f.ac f.c + 256 * f.c.toNat) % 256 := by
    rw [Nat.add_mul_mod_self_left]
    exact BitVec.toNat_ofNat _ _
  have hhundreds : daaCarry .sequential r f.ac f.c =
      decide (256 ≤ daaExact .sequential r f.ac f.c + 256 * f.c.toNat) := by
    cases hc : f.c <;> simp [daaCarry]
  rw [IsBcd, hhundreds, toNat_decide, bcd, hbyte]
  split at hexact -- whether the low digits pass 9
  all_goals
    split at hexact -- whether the sum passes 99
    all_goals
      rename_i hhigh
      rw [bcd, bcd] at hhigh ⊢
      rw [hexact]
      split <;> omega

/-- DAA with ACC as its operand leaves the adjusted byte in ACC and its carry in C. -/
theorem exec_daaM_acc (s : State) : exec (.daaM 0x05) s = .next (setAccFlags
    (daaResult s.opts.daaTest s.acc s.alu.ac s.alu.c) (onlyCarry (daaCarry s.opts.daaTest s.acc s.alu.ac s.alu.c)) s) := rfl

end

/-- Settles O13: OV of the sum that ADD and ADC leave and of the difference that SUB leaves. -/
theorem overflowIsSigned : Obligations.OverflowIsSigned := by
  refine ⟨fun x s t hexec => ?add, fun x s t hexec => ?sub, fun m s t hread hexec => ?adc⟩
  case add =>
    obtain ⟨-, -, hcompletes⟩ := addsToAcc
    obtain ⟨hsum, -⟩ := of_completes (hcompletes x s) hexec
    simpa using ov_of_isSum (c := false) hsum
  case sub =>
    obtain ⟨-, hcompletes, -⟩ := subtractsFromAcc
    obtain ⟨hdiff, -⟩ := of_completes (hcompletes x s) hexec
    exact ov_of_isDifference hdiff
  case adc =>
    obtain ⟨-, hcompletes, -⟩ := addsToAcc
    obtain ⟨hsum, -⟩ := of_completes (hcompletes m s hread) hexec
    exact ov_of_isSum hsum

/-- Settles O15: ADC leaves the binary sum of the two bytes and the carry, which DAA turns into the decimal one. -/
theorem bcdAdditionIsCorrect : Obligations.BcdAdditionIsCorrect := by
  intro a s t u hlo hhi hseq hacc hmem hadc hdaa
  have haddr : (BitVec.ofNat 7 a).toNat = a := by rw [BitVec.toNat_ofNat]; omega
  have hlocate : locate (BitVec.ofNat 7 a) s = .ram a := by
    rw [locate_of_above_pointers (by omega), bank0_of_ram (by omega), haddr]
  have hoperand : operand (BitVec.ofNat 7 a) s = Memory.read s.ram a := by rw [operand, hlocate, readLoc]
  obtain ⟨-, hcompletes, -⟩ := addsToAcc
  have hread : Readable (BitVec.ofNat 7 a) s := by rw [Readable, hlocate]; nofun
  obtain ⟨hsum, hframe⟩ := of_completes (hcompletes _ s hread) hadc
  have hopts : t.opts = s.opts := (congrArg State.opts hframe :)
  rw [hoperand] at hsum
  cases (exec_daaM_acc t).symm.trans hdaa
  rw [setAccFlags_acc, setAccFlags_alu, hopts, hseq]
  exact bcd_daaResult hacc hmem hsum

end Sys2Proof.Proofs

/-! The registers as bytes, and what is stored and read again: the bits of a packed register, general purpose memory, STATUS
(10_state R46, R48, R66, 20_memory R106, R107). -/

namespace Sys2Proof.Proofs

open Sys2Proof.Machine Sys2Proof.Claims

section
variable {l : Loc} {m n : DataAddr} {s t u : State} {P : State → Prop}

/-! ### A byte from its bits -/

theorem packByte_toNat (b7 b6 b5 b4 b3 b2 b1 b0 : Bool) : (packByte b7 b6 b5 b4 b3 b2 b1 b0).toNat =
    b0.toNat + 2 * b1.toNat + 4 * b2.toNat + 8 * b3.toNat + 16 * b4.toNat + 32 * b5.toNat + 64 * b6.toNat +
      128 * b7.toNat := by
  simp only [packByte, Laws.append_toNat, BitVec.toNat_ofBool]
  omega

theorem getLsbD_append_bit {w : Nat} (x : BitVec w) (b : Bool) (i : Nat) :
    (x ++ BitVec.ofBool b).getLsbD i = if i = 0 then b else x.getLsbD (i - 1) := by
  rw [BitVec.getLsbD_append, BitVec.getLsbD_ofBool]
  by_cases h : i = 0 <;> simp [h]

theorem packByte_getLsbD {i : Nat} (b7 b6 b5 b4 b3 b2 b1 b0 : Bool) (h : i < 8) :
    (packByte b7 b6 b5 b4 b3 b2 b1 b0).getLsbD i = [b0, b1, b2, b3, b4, b5, b6, b7].getD i false := by
  rw [packByte]
  iterate 7 rw [getLsbD_append_bit]
  interval_cases i <;> simp

theorem byteOf_getLsbD {i : Nat} (f : Nat → Bool) (h : i < 8) : (byteOf f).getLsbD i = f i := by
  rw [byteOf, packByte_getLsbD _ _ _ _ _ _ _ _ h]
  interval_cases i <;> rfl

theorem toNat_of_two_bits (v : BitVec 2) : v.toNat = (v.getLsbD 0).toNat + 2 * (v.getLsbD 1).toNat := by
  decide +revert

theorem toNat_of_three_bits (v : BitVec 3) :
    v.toNat = (v.getLsbD 0).toNat + 2 * (v.getLsbD 1).toNat + 4 * (v.getLsbD 2).toNat := by
  decide +revert

/-! ### The registers as numbers -/

theorem statusByte_toNat (s : State) : (statusByte s).toNat = s.alu.c.toNat + 2 * s.alu.ac.toNat + 4 * s.alu.z.toNat +
    8 * s.alu.ov.toNat + 16 * s.pdf.toNat + 32 * s.timeOut.toNat := by
  simp [statusByte, packByte_toNat]

theorem intc0Byte_toNat (s : State) : (intc0Byte s).toNat = s.intc.emi.toNat + 2 * s.intc.eei.toNat +
    4 * s.intc.eti.toNat + 8 * s.intc.etbi.toNat + 16 * s.intc.eif.toNat + 32 * s.intc.tf.toNat +
      64 * s.intc.tbf.toNat := by
  simp [intc0Byte, packByte_toNat]

theorem intc1Byte_toNat (s : State) : (intc1Byte s).toNat = s.intc.erti.toNat + 16 * s.intc.rtf.toNat := by
  simp [intc1Byte, packByte_toNat]

theorem tmrcByte_toNat (s : State) : (tmrcByte s).toNat = 8 * s.timer.te.toNat + 16 * s.timer.ton.toNat +
    32 * s.timer.ts.toNat + 64 * s.timer.tm.toNat := by
  rw [tmrcByte, packByte_toNat, toNat_of_two_bits]
  simp only [Bool.toNat_false]
  omega

theorem rtccByte_toNat (s : State) : (rtccByte s).toNat = s.rtcc.rt.toNat + 8 * s.rtcc.lvdc.toNat +
    16 * s.rtcc.qosc.toNat + 32 * (lvdo s).toNat := by
  rw [rtccByte, packByte_toNat, toNat_of_three_bits]
  simp only [Bool.toNat_false]
  omega

theorem pointerByte_toNat (p : DataAddr) : (1#1 ++ p : BitVec (1 + 7)).toNat = 128 + p.toNat := by
  rw [Laws.append_toNat]
  rfl

theorem tblhByte_toNat (h : BitVec 6) : (0b00#2 ++ h : BitVec (2 + 6)).toNat = h.toNat := by
  rw [Laws.append_toNat]
  exact Nat.zero_add _

theorem lowByte_toNat {w : Nat} (v : BitVec w) : (lowByte v).toNat = v.toNat % 256 := BitVec.extractLsb'_toNat 0 8 v

/-! ### Reading with MOV A,[m] -/

/-- MOV A,[m] completes with what the location reads as in ACC, in the state after the read's effect. -/
theorem completes_movAM (hlocate : locate m s = l) (hread : l ≠ .bank1Hole)
    (hP : P { readEffect l s with acc := readLoc l s }) : Completes (.movAM m) s P := by
  subst hlocate
  exact ⟨_, (exec_movAM m s).trans (loadOp_next.mpr ⟨hread, rfl⟩), by rwa [setAccFlags_none]⟩

theorem acc_of_movAM (hexec : exec (.movAM m) s = .next t) : t.acc = readLoc (locate m s) s := by
  obtain ⟨-, rfl⟩ := loadOp_next.mp ((exec_movAM m s).symm.trans hexec)
  rfl

theorem writeLoc_of_movMA (hexec : exec (.movMA m) s = .next t) : t = writeLoc (locate m s) s.acc s := by
  obtain ⟨-, -, rfl⟩ := write_next.mp ((exec_movMA m s).symm.trans hexec)
  rfl

/-! ### STATUS -/

/-- A write to STATUS sets the four ALU flags and changes nothing else (10_state R46). -/
theorem exec_movMA_status (s : State) : exec (.movMA 0x0A) s = .next { s with alu := {
    c := s.acc.getLsbD 0, ac := s.acc.getLsbD 1, z := s.acc.getLsbD 2, ov := s.acc.getLsbD 3 } } := rfl

theorem statusByte_flags (s : State) : (statusByte s).getLsbD 0 = s.alu.c ∧ (statusByte s).getLsbD 1 = s.alu.ac ∧
    (statusByte s).getLsbD 2 = s.alu.z ∧ (statusByte s).getLsbD 3 = s.alu.ov := by
  simp only [statusByte, packByte_getLsbD, Nat.reduceLT]
  exact ⟨rfl, rfl, rfl, rfl⟩

end

/-- Settles O39: each register is a packed byte, whose value is that of its bits. -/
theorem registersReadBitByBit : Obligations.RegistersReadBitByBit := by
  refine fun s => ⟨?status, ?intc0, ?intc1, ?tmrc, ?rtcc, ?mp0, ?mp1, ?tblh, ?pcl, ?tmr⟩
  case status => exact completes_movAM (l := .status) rfl nofun (statusByte_toNat s)
  case intc0 => exact completes_movAM (l := .intc0) rfl nofun (intc0Byte_toNat s)
  case intc1 => exact completes_movAM (l := .intc1) rfl nofun (intc1Byte_toNat s)
  case tmrc => exact completes_movAM (l := .tmrc) rfl nofun (tmrcByte_toNat s)
  case rtcc => exact completes_movAM (l := .rtcc) rfl nofun (rtccByte_toNat s)
  case mp0 => exact completes_movAM (l := .mp0) rfl nofun (pointerByte_toNat s.mp0)
  case mp1 => exact completes_movAM (l := .mp1) rfl nofun (pointerByte_toNat s.mp1)
  case tblh => exact completes_movAM (l := .tblh) rfl nofun (tblhByte_toNat s.tblh)
  case pcl => exact completes_movAM (l := .pcl) rfl nofun (lowByte_toNat s.pc)
  case tmr => exact completes_movAM (l := .tmr) rfl nofun ⟨rfl, rfl⟩

/-- Settles O40: the write leaves the byte at the address, and the read finds it there. -/
theorem ramReadsWhatWasStored : Obligations.RamReadsWhatWasStored := by
  intro m n s t u a hm hstore hn hload
  have hwritten : t = writeLoc (.ram a) s.acc s := hm ▸ writeLoc_of_movMA hstore
  calc u.acc
    _ = readLoc (.ram a) t := hn ▸ acc_of_movAM hload
    _ = Memory.read (Memory.write s.ram a s.acc) a := by rw [hwritten]; rfl
    _ = s.acc := Memory.read_write_same s.ram a s.acc

/-- Settles O41: the four flags are bits 0 to 3 of STATUS, which are the bits a write to it takes. -/
theorem statusSaveRestore : Obligations.StatusSaveRestore := by
  intro s t u v hsave hacc hrestore
  have hbyte : u.acc = statusByte s := hacc.trans (acc_of_movAM hsave)
  obtain ⟨hc, hac, hz, hov⟩ := statusByte_flags s
  cases (exec_movMA_status u).symm.trans hrestore
  exact ⟨by simp only [hbyte, hc, hac, hz, hov], rfl, rfl⟩

/-- Settles O42: the write and the read of STATUS, and the rule about every instruction's effect on TO and PDF. -/
theorem statusAsData : Obligations.StatusAsData :=
  fun s => ⟨exec_movMA_status s, completes_movAM (l := .status) rfl nofun ⟨rfl, rfl, statusByte_toNat s⟩,
    fun _ _ hexec hhalt hclr hclr1 hclr2 => (effect_of_exec hexec).timeOut_pdf hhalt hclr hclr1 hclr2⟩

end Sys2Proof.Proofs

/-! The accesses that stop by name: outside the display memory in bank 1, a timer turned on in mode 00, SIZ and SDZ on PCL
(20_memory R108, 46_branch R271, 60_exceptions R375). -/

namespace Sys2Proof.Proofs

open Sys2Proof.Machine Sys2Proof.Claims

section
variable {l : Loc} {m : DataAddr} {s : State} {v : Byte}

/-! ### The bank 1 hole -/

theorem locate_hole (hbp : s.bp = true) (hmp1 : s.mp1.toNat < 0x40 ∨ 0x4E < s.mp1.toNat) :
    locate 0x02 s = .bank1Hole := by
  rw [locate_via_mp1_bank1 hbp]
  exact if_neg (by omega)

theorem write_of_hole (h : locate m s = .bank1Hole) (v : Byte) : write m v s = .fault .bank1OutsideLcd := by
  rw [write, h]
  rfl

theorem tableRead_of_hole (h : locate m s = .bank1Hole) (p : ProgAddr) : tableRead p m s = .fault .bank1OutsideLcd := by
  rw [tableRead, write_of_hole h, andThen_of_fault]

/-- Every instruction that reads `[m]` reads it first, and that read stops. -/
theorem readers_stop (h : locate m s = .bank1Hole) (i : BitNo) :
    ∀ instr ∈ readers m i, exec instr s = .fault .bank1OutsideLcd := by
  simp only [readers, List.forall_mem_cons, List.not_mem_nil, false_imp_iff, implies_true,
    exec_addAM, exec_addmAM, exec_adcAM, exec_adcmAM, exec_subAM, exec_submAM, exec_sbcAM, exec_sbcmAM, exec_andAM,
    exec_orAM, exec_xorAM, exec_andmAM, exec_ormAM, exec_xormAM, exec_cplM, exec_cplaM, exec_incaM, exec_incM, exec_decaM,
    exec_decM, exec_rraM, exec_rrM, exec_rrcaM, exec_rrcM, exec_rlaM, exec_rlM, exec_rlcaM, exec_rlcM, exec_movAM,
    exec_clrBit, exec_setBit, exec_szM, exec_szaM, exec_szBit, exec_snzBit, exec_sizM, exec_sdzM, exec_sizaM, exec_sdzaM,
    exec_swapM, exec_swapaM, loadOp, modifyFlags, modifyByte, testSkip, loadSkip, modifySkip,
    withOperand_of_hole h, and_self]

theorem writers_stop (h : locate m s = .bank1Hole) :
    ∀ instr ∈ writers m, exec instr s = .fault .bank1OutsideLcd := by
  simp only [writers, List.forall_mem_cons, List.not_mem_nil, false_imp_iff, implies_true, and_true]
  refine ⟨?mov, ?clr, ?set, ?daa, ?tabrdc, ?tabrdl⟩
  case mov => exact write_of_hole h _
  case clr => exact write_of_hole h _
  case set => exact write_of_hole h _
  case daa => rw [exec_daaM, write_of_hole h, andThen_of_fault]
  case tabrdc => exact tableRead_of_hole h _
  case tabrdl => exact tableRead_of_hole h _

/-! ### Mode 00 and PCL -/

theorem store_of_mode00 (hl : l = .tmrc) (hton : v.getLsbD 4 = true) (hmode : v.toNat < 64) (s : State) :
    store l v s = .fault .timerMode00 := by
  have hzero : v.extractLsb' 6 2 = 0b00 := by
    refine BitVec.eq_of_toNat_eq ?_
    rw [BitVec.extractLsb'_toNat, Nat.shiftRight_eq_div_pow, Nat.div_eq_of_lt hmode]
    rfl
  subst hl
  simp [store, startsMode00, bitOf, hton, hzero]

/-- In mode 00 the byte that SET [m].4 writes back to TMRC still names mode 00, with TON set. -/
theorem tmrcByte_or_ton (htm : s.timer.tm = 0) :
    (tmrcByte s ||| bitMask 4).getLsbD 4 = true ∧ (tmrcByte s ||| bitMask 4).toNat < 64 := by
  have hbyte : (tmrcByte s).toNat < 2 ^ 6 := by
    have hte := s.timer.te.toNat_le
    have hton := s.timer.ton.toNat_le
    have hts := s.timer.ts.toNat_le
    have htm' : s.timer.tm.toNat = 0 := congrArg BitVec.toNat htm
    rw [tmrcByte_toNat]
    omega
  have hmask : (bitMask 4).toNat < 2 ^ 6 := by decide
  exact ⟨by rw [BitVec.getLsbD_or, bitMask_getLsbD]; simp, by rw [BitVec.toNat_or]; exact Nat.or_lt_two_pow hbyte hmask⟩

theorem modifySkip_of_pcl {f : Byte → Byte} (h : locate m s = .pcl) : modifySkip m f s = .fault .skipWritesPcl := by
  simp [modifySkip, withOperand, h]

end

/-- Settles O37: MP1 outside 40H to 4EH leads nowhere in bank 1, and every instruction with an operand accesses it. -/
theorem bank1HoleStops : Obligations.Bank1HoleStops := by
  intro s i hbp hmp1 instr hmem
  have hhole := locate_hole hbp hmp1
  obtain hreader | hwriter := List.mem_append.mp hmem
  · exact readers_stop hhole i instr hreader
  · exact writers_stop hhole instr hwriter

/-- Settles O38: the store stops, whatever instruction ends in it, and SIZ and SDZ stop before theirs. -/
theorem undefinedWritesStop : Obligations.UndefinedWritesStop := by
  refine fun s m => ⟨fun htmrc => ⟨fun hton hmode => ?mov, fun htm => ?set, fun v t hton hmode => ?store⟩,
    fun hpcl => ?pcl⟩
  case mov => exact store_of_mode00 htmrc hton hmode s
  case set =>
    obtain ⟨hton, hmode⟩ := tmrcByte_or_ton htm
    rw [exec_setBit, modifyByte, withOperand_of_readable (by rw [htmrc]; nofun), htmrc]
    exact store_of_mode00 rfl hton hmode _
  case store => exact store_of_mode00 htmrc hton hmode t
  case pcl => exact ⟨(exec_sizM m s).trans (modifySkip_of_pcl hpcl), (exec_sdzM m s).trans (modifySkip_of_pcl hpcl)⟩

end Sys2Proof.Proofs

/-! The table reads: the word at TBLP in a page, its low byte written to the operand, its six high bits in TBLH (47_tableread
R285 to R287). -/

namespace Sys2Proof.Proofs

open Sys2Proof.Machine Sys2Proof.Claims

section
variable {m : DataAddr} {s : State} {i : Instr} {p : ProgAddr} {w : Word} {lo : Byte}

/-- The word the image gives, or the free one of an address it gives none for (log 7). -/
theorem tableWord_eq (h : Rom.word s.rom p = some w ∨ (Rom.word s.rom p = none ∧ w = Config.unprogrammedWord p.toNat)) :
    tableWord s p = w := by
  obtain hgiven | ⟨hnone, rfl⟩ := h
  · rw [tableWord, hgiven, Option.getD_some]
  · rw [tableWord, hnone, Option.getD_none]

theorem pageBits_toNat_of_following (h : s.opts.pageBase = .following) : (pageBits s).toNat = s.pc.toNat / 256 := by
  rw [pageBits, h, BitVec.extractLsb'_toNat, Nat.shiftRight_eq_div_pow]
  omega

theorem pageBits_toNat_of_itself (h : s.opts.pageBase = .itself) : (pageBits s).toNat = (s.pc - 1).toNat / 256 := by
  rw [pageBits, h, BitVec.extractLsb'_toNat, Nat.shiftRight_eq_div_pow]
  omega

/-- A program address is its page and the byte within it. -/
theorem eq_page_append {page : BitVec 2} {low : Byte} (h : p.toNat = page.toNat * 256 + low.toNat) : page ++ low = p :=
  BitVec.eq_of_toNat_eq ((Laws.append_toNat page low).trans h.symm)

theorem highBits_toNat (w : Word) : (w.extractLsb' 8 6).toNat = w.toNat / 256 := by
  rw [BitVec.extractLsb'_toNat, Nat.shiftRight_eq_div_pow]
  omega

/-- A table read into a writable operand completes, writes the low byte and puts the high bits into TBLH. -/
theorem completes_of_tableRead (hexec : exec i s = tableRead p m s) (hw : tableWord s p = w)
    (hlo : lo.toNat = w.toNat % 256) (hwrite : Writable m lo s) :
    Completes i s fun t => WritesBack m lo noFlags s { t with tblh := s.tblh } ∧ t.tblh.toNat = w.toNat / 256 := by
  have hbyte : lowByte w = lo := BitVec.eq_of_toNat_eq ((lowByte_toNat w).trans hlo.symm)
  obtain ⟨hread, hmode⟩ := hwrite
  refine ⟨_, hexec.trans (tableRead_next.mpr ⟨hread, ?mode, rfl⟩), ?written, ?high⟩
  case mode => rw [hw, hbyte]; exact startsMode00_eq_false.mpr hmode
  case written =>
    have hback := writesBack_noFlags_writeLoc m lo s
    rw [hw, hbyte, ← writeLoc_tblh (locate m s) lo s]
    exact hback
  case high => rw [hw]; exact highBits_toNat w

end

/-- Settles O31: each is a table read of the word at its page and TBLP. -/
theorem tableReadsSplitTheWord : Obligations.TableReadsSplitTheWord := by
  refine fun m s p w lo hword hlo hwrite => ⟨fun hpage => ?current, fun hlast => ?last⟩
  case current =>
    have haddr : pageBits s ++ s.tblp = p := by
      obtain ⟨hbase, hp⟩ | ⟨hbase, hp⟩ := hpage
      · exact eq_page_append (pageBits_toNat_of_following hbase ▸ hp)
      · exact eq_page_append (pageBits_toNat_of_itself hbase ▸ hp)
    exact completes_of_tableRead (exec_tabrdc m s) (haddr ▸ tableWord_eq hword) hlo hwrite
  case last =>
    have haddr : 0b11#2 ++ s.tblp = p := eq_page_append hlast
    exact completes_of_tableRead (exec_tabrdl m s) (haddr ▸ tableWord_eq hword) hlo hwrite

end Sys2Proof.Proofs

/-! NOP, the watchdog clears by their option, and HALT (48_misc R295 to R302). -/

namespace Sys2Proof.Proofs

open Sys2Proof.Machine Sys2Proof.Claims

section
variable {s : State}

theorem clearsActive_iff {o : Config.Options} :
    clearsActive o = true ↔ o.wdtEnable = true ∨ o.wdtDisabledClrFlags = true := Bool.or_eq_true_iff

/-! ### Where a watchdog clear is a NOP -/

theorem clrWdt_of_not (h : ¬(s.opts.clrWdtTimes = .one ∧ clearsActive s.opts = true)) : exec .clrWdt s = .next s :=
  (exec_clrWdt s).trans (if_neg h)

theorem clrWdt1_of_not (h : ¬(s.opts.clrWdtTimes = .two ∧ clearsActive s.opts = true)) : exec .clrWdt1 s = .next s :=
  (exec_clrWdt1 s).trans (if_neg h)

theorem clrWdt2_of_not (h : ¬(s.opts.clrWdtTimes = .two ∧ clearsActive s.opts = true)) : exec .clrWdt2 s = .next s :=
  (exec_clrWdt2 s).trans (if_neg h)

/-! ### The automaton of the pair -/

/-- CLR WDT1 with the other mark clear leaves its own (92_eei D16). -/
theorem clrWdt1_alone (h : s.opts.clrWdtTimes = .two ∧ clearsActive s.opts = true) (hother : s.wdt.armed2 = false) :
    exec .clrWdt1 s = .next { s with wdt := { s.wdt with armed1 := true } } := by
  rw [exec_clrWdt1, if_pos h, if_neg (by rw [hother]; nofun)]

theorem clrWdt2_alone (h : s.opts.clrWdtTimes = .two ∧ clearsActive s.opts = true) (hother : s.wdt.armed1 = false) :
    exec .clrWdt2 s = .next { s with wdt := { s.wdt with armed2 := true } } := by
  rw [exec_clrWdt2, if_pos h, if_neg (by rw [hother]; nofun)]

/-- CLR WDT1 after CLR WDT2 completes the pair (48_misc R300). -/
theorem clrWdt1_completes (h : s.opts.clrWdtTimes = .two ∧ clearsActive s.opts = true) (hother : s.wdt.armed2 = true) :
    exec .clrWdt1 s =
      .next { s with timeOut := false, pdf := false, wdt := { cnt := false, armed1 := false, armed2 := false } } := by
  rw [exec_clrWdt1, if_pos h, if_pos hother]
  rfl

theorem clrWdt2_completes (h : s.opts.clrWdtTimes = .two ∧ clearsActive s.opts = true) (hother : s.wdt.armed1 = true) :
    exec .clrWdt2 s =
      .next { s with timeOut := false, pdf := false, wdt := { cnt := false, armed1 := false, armed2 := false } } := by
  rw [exec_clrWdt2, if_pos h, if_pos hother]
  rfl

/-- The prescaler is the divider above its lowest eight stages (92_eei D32). -/
theorem prescalerCleared_toNat (d : BitVec 15) : (0#7 ++ d.extractLsb' 0 8).toNat = d.toNat % 256 := by
  rw [Laws.append_toNat, BitVec.extractLsb'_toNat]
  exact Nat.zero_add _

end

/-- Settles O32: each instruction acts where the option selects it and it is active, and is a NOP elsewhere. -/
theorem nopAndClearWatchdog : Obligations.NopAndClearWatchdog := by
  refine fun s => ⟨exec_nop s, fun hone hactive => ?clears, fun htwo => ?other, fun hone => ?pair,
    fun hdis hkeep => ?inactive⟩
  case clears => exact (exec_clrWdt s).trans (if_pos ⟨hone, clearsActive_iff.mpr hactive⟩)
  case other => exact clrWdt_of_not (by rw [htwo]; exact (nomatch ·.1))
  case pair =>
    have hnotTwo : s.opts.clrWdtTimes ≠ .two := by rw [hone]; nofun
    exact ⟨clrWdt1_of_not (hnotTwo ·.1), clrWdt2_of_not (hnotTwo ·.1)⟩
  case inactive =>
    have hnone : ¬clearsActive s.opts = true := by rw [clearsActive_iff, hdis, hkeep]; simp
    exact ⟨clrWdt_of_not (hnone ·.2), clrWdt1_of_not (hnone ·.2), clrWdt2_of_not (hnone ·.2)⟩

/-- Settles O33: from both marks clear, each instruction alone leaves its mark, and the other one then completes the pair. -/
theorem watchdogPairClears : Obligations.WatchdogPairClears := by
  intro s htwo hactive h1 h2
  have hselected : s.opts.clrWdtTimes = .two ∧ clearsActive s.opts = true := ⟨htwo, clearsActive_iff.mpr hactive⟩
  have hcleared : ({ s.wdt with cnt := false } : Wdt) = { cnt := false, armed1 := false, armed2 := false } := by
    simp only [h1, h2]
  rw [hcleared]
  refine ⟨_, _, clrWdt1_alone hselected h2, rfl, ?again1, clrWdt2_alone hselected h1, rfl, ?again2, ?pair12, ?pair21⟩
  case again1 => exact clrWdt1_alone (s := { s with wdt := { s.wdt with armed1 := true } }) hselected h2
  case again2 => exact clrWdt2_alone (s := { s with wdt := { s.wdt with armed2 := true } }) hselected h1
  case pair12 => exact clrWdt2_completes hselected rfl
  case pair21 => exact clrWdt1_completes hselected rfl

/-- Settles O34: the state HALT leaves, by its fields. -/
theorem haltPowersDown : Obligations.HaltPowersDown :=
  fun s => ⟨_, exec_halt s, rfl, rfl, rfl, prescalerCleared_toNat s.mft, rfl, rfl⟩

end Sys2Proof.Proofs

/-! The interrupt check and the step that enters a handler (60_exceptions R336 to R341). -/

namespace Sys2Proof.Proofs

open Sys2Proof.Machine

section
variable {s : State} {src : Source}

/-- Entry on a stack with room, which an acknowledgeable request has (60_exceptions R339, R341). -/
theorem enter_of_acknowledgeable (h : acknowledgeable src s = true) : enter src s = { s with
    stk := s.pc :: s.stk, pc := vector src, intc := { setRequest src false s.intc with emi := false } } := by
  obtain ⟨-, hroom, -, -, -⟩ := acknowledgeable_iff.mp h
  rw [enter, push_of_room hroom]

/-- With no boundary of the outside world to come the step is the bare boundary. -/
theorem step_of_no_inputs (h : s.inputs = []) : step s = boundary [] s := by
  have hquiet : nextBoundary s = .quiet := by
    rw [nextBoundary, h]
    rfl
  rw [step, takeInputs_of_none h, hquiet]
  rfl

theorem boundary_of_power_running (hs : List Happening) (h : s.power = .running) :
    boundary hs s = fetchAndRun hs (interruptCheck s) := by
  rw [boundary, h]

/-- A check that sees one source alone takes it. -/
theorem interruptCheck_of_unique (h : acknowledgeable src s = true)
    (hunique : ∀ other, other ≠ src → acknowledgeable other s = false) : interruptCheck s = enter src s := by
  obtain ⟨-, hnone⟩ | ⟨taken, hack, henter⟩ := interruptCheck_cases s
  · rw [hnone src] at h
    cases h
  · obtain rfl : taken = src := by
      by_contra hother
      rw [hunique taken hother] at hack
      cases hack
    exact henter

end

/-- Settles O45: in the order of priority, the first acknowledgeable source is the one entered. -/
theorem interruptEntry : Obligations.InterruptEntry := by
  refine fun s => ⟨fun hack => ?ext, fun hext hack => ?tmr, fun hext htmr hack => ?tb, fun hext htmr htb hack => ?rtc⟩
  case ext =>
    rw [interruptCheck, if_pos hack, enter_of_acknowledgeable hack]
    rfl
  case tmr =>
    rw [interruptCheck, hext, if_neg Bool.false_ne_true, if_pos hack, enter_of_acknowledgeable hack]
    rfl
  case tb =>
    rw [interruptCheck, hext, htmr, if_neg Bool.false_ne_true, if_neg Bool.false_ne_true, if_pos hack,
      enter_of_acknowledgeable hack]
    rfl
  case rtc =>
    rw [interruptCheck, hext, htmr, htb, if_neg Bool.false_ne_true, if_neg Bool.false_ne_true, if_neg Bool.false_ne_true,
      if_pos hack, enter_of_acknowledgeable hack]
    rfl

/-- Settles O46: an acknowledgeable request needs EMI and room on the stack. -/
theorem fullStackHoldsInterrupts : Obligations.FullStackHoldsInterrupts := by
  refine fun s hheld => interruptCheck_of_none fun src => ?_
  by_contra hack
  obtain ⟨hemi, hroom, -, -, -⟩ := acknowledgeable_iff.mp (Bool.eq_true_of_not_eq_false hack)
  obtain hfull | hmasked := hheld
  · omega
  · rw [hmasked] at hemi
    cases hemi

/-- Settles O47: the check enters the one source, and the fetch is at its entry address. -/
theorem stepEntersHandler : Obligations.StepEntersHandler := by
  intro s src w i hrun hinputs hack hunique hw hi
  rw [step_of_no_inputs hinputs, boundary_of_power_running _ hrun, interruptCheck_of_unique hack hunique,
    fetchAndRun_of_enc (s := enter src s) [] hw hi, enter_of_acknowledgeable hack]
  rfl

end Sys2Proof.Proofs

/-! The port A pads: a pin as an open drain, and the buzzer and PFD functions on their pins (60_exceptions R381 to R388). -/

namespace Sys2Proof.Proofs

open Sys2Proof.Machine Sys2Proof.Claims

section
variable {s : State} {o : Config.Options} {i : Nat}

/-! ### The pins by their configuration -/

/-- PA4 to PA7 are never CMOS, so the four option bits say all of it (60_exceptions R381). -/
theorem cmosPins_getLsbD (o : Config.Options) (i : Nat) : (cmosPins o).getLsbD i = o.paCmos.getLsbD i := by
  rw [cmosPins, BitVec.getLsbD_append]
  by_cases h : i < 4 <;> simp [h, BitVec.getLsbD_of_ge, Nat.le_of_not_lt]

/-- PA4 to PA7 always have a pull-high, the others by their option (60_exceptions R381). -/
theorem pulledPins_getLsbD (hi : i < 8) (h : 4 ≤ i ∨ o.paPullHigh.getLsbD i = true) :
    (pulledPins o).getLsbD i = true := by
  rw [pulledPins, BitVec.getLsbD_append]
  split
  case isTrue hlow => exact h.resolve_left (by omega)
  case isFalse hhigh =>
    change (BitVec.allOnes 4).getLsbD (i - 4) = true
    rw [BitVec.getLsbD_allOnes]
    simp only [decide_eq_true_eq]
    omega

/-! ### The level outside and at the pad -/

theorem externalPad_of_driven (h : s.pins.paDriven.getLsbD i = true) (draw : Nat) :
    externalPad s draw i = s.pins.paLevel.getLsbD i := if_pos h

theorem externalPad_of_pulled (hfree : s.pins.paDriven.getLsbD i = false) (hpull : (pulledPins s.opts).getLsbD i = true)
    (draw : Nat) : externalPad s draw i = true := by
  rw [externalPad, bitOf, hfree, if_neg Bool.false_ne_true, bitOf, if_pos hpull]

theorem padA_of_nmos (h : s.opts.paCmos.getLsbD i = false) (draw : Nat) :
    padA s draw i = (s.paLatch.getLsbD i && externalPad s draw i) := by
  rw [padA, bitOf, cmosPins_getLsbD, h, if_neg Bool.false_ne_true, bitOf]

theorem padA_of_cmos (h : s.opts.paCmos.getLsbD i = true) (draw : Nat) : padA s draw i = drivenPad s draw i := by
  rw [padA, bitOf, cmosPins_getLsbD, if_pos h]

/-! ### The functions on their pins -/

theorem drivenPad_buzzer (h : buzzerOn s.opts = true) (draw : Nat) :
    drivenPad s draw 0 = (!s.paLatch.getLsbD 0 && buzzerSignal s) := if_pos ⟨rfl, h⟩

theorem drivenPad_inverseBuzzer (h : buzzerOn s.opts = true) (draw : Nat) :
    drivenPad s draw 1 = (!s.paLatch.getLsbD 0 && !s.paLatch.getLsbD 1 && !buzzerSignal s) := if_pos ⟨rfl, h⟩

theorem drivenPad_pfd (h : pfdOn s.opts = true) (draw : Nat) : drivenPad s draw 3 =
    (!s.paLatch.getLsbD 3 && (if s.timer.ton then s.timer.pfd else Config.pfdStopped draw)) := if_pos ⟨rfl, h⟩

/-- MOV A,[12H] completes with each pad's level in its bit of ACC. -/
theorem completes_readPa {P : State → Prop}
    (hP : ∀ t : State, (∀ i < 8, t.acc.getLsbD i = padA s s.draws i) → P t) :
    Completes (.movAM 0x12) s P :=
  completes_movAM (l := .pa) rfl nofun (hP _ fun _ hi => byteOf_getLsbD _ hi)

theorem exec_movMA_pa (s : State) : exec (.movMA 0x12) s = .next { s with paLatch := s.acc } := rfl

end

/-- Settles O59: an NMOS pad is the AND of its latch bit and the level outside. -/
theorem portAIsOpenDrain : Obligations.PortAIsOpenDrain := by
  refine ⟨fun s hnmos => completes_readPa fun t hpads i hi => ?_, exec_movMA_pa⟩
  have hpad : t.acc.getLsbD i = (s.paLatch.getLsbD i && externalPad s s.draws i) :=
    (hpads i hi).trans (padA_of_nmos (by rw [hnmos]; exact BitVec.getLsbD_zero) _)
  rw [hpad]
  refine ⟨fun hlatch => ?latchLow, fun hdriven hlow => ?drivenLow, fun hlatch hdriven hhigh => ?drivenHigh,
    fun hlatch hfree hpull => ?pulled⟩
  case latchLow => rw [hlatch, Bool.false_and]
  case drivenLow => rw [externalPad_of_driven hdriven, hlow, Bool.and_false]
  case drivenHigh => rw [hlatch, externalPad_of_driven hdriven, hhigh, Bool.and_true]
  case pulled => rw [hlatch, externalPad_of_pulled hfree (pulledPins_getLsbD hi hpull), Bool.and_true]

/-- Settles O60: the three pads with their functions on, by their latch bits. -/
theorem buzzerAndPfdPads : Obligations.BuzzerAndPfdPads := by
  refine fun s hcmos hbuzzer hpfd => completes_readPa fun t hpads => ?_
  have hpin : ∀ i < 4, s.opts.paCmos.getLsbD i = true := by
    intro i hi
    rw [hcmos]
    exact (BitVec.getLsbD_allOnes (v := 4)).trans (decide_eq_true hi)
  have hcmosBit : ∀ i < 4, bitOf (cmosPins s.opts) i = true := fun i hi => (cmosPins_getLsbD s.opts i).trans (hpin i hi)
  have hbuzzerOn : buzzerOn s.opts = true := by
    rw [buzzerOn, hbuzzer, hcmosBit 0 (by decide), hcmosBit 1 (by decide)]
    rfl
  have hpfdOn : pfdOn s.opts = true := by
    rw [pfdOn, hpfd, hcmosBit 3 (by decide)]
    rfl
  have hpa0 : t.acc.getLsbD 0 = (!s.paLatch.getLsbD 0 && buzzerSignal s) :=
    (hpads 0 (by decide)).trans ((padA_of_cmos (hpin 0 (by decide)) _).trans (drivenPad_buzzer hbuzzerOn _))
  have hpa1 : t.acc.getLsbD 1 = (!s.paLatch.getLsbD 0 && !s.paLatch.getLsbD 1 && !buzzerSignal s) :=
    (hpads 1 (by decide)).trans ((padA_of_cmos (hpin 1 (by decide)) _).trans (drivenPad_inverseBuzzer hbuzzerOn _))
  have hpa3 : t.acc.getLsbD 3 =
      (!s.paLatch.getLsbD 3 && (if s.timer.ton then s.timer.pfd else Config.pfdStopped s.draws)) :=
    (hpads 3 (by decide)).trans ((padA_of_cmos (hpin 3 (by decide)) _).trans (drivenPad_pfd hpfdOn _))
  rw [hpa0, hpa1, hpa3]
  refine ⟨fun h0 => ?off, fun h0 => ?signal, fun h0 h1 => ?pair, fun h0 h1 => ?single, fun h3 => ?pfdOff,
    fun h3 hton => ?pfd⟩
  case off => simp only [h0, Bool.not_true, Bool.false_and, and_self]
  case signal => simp only [h0, buzzerSignal, Bool.not_false, Bool.true_and]
  case pair => simp only [h0, h1, Bool.not_false, Bool.true_and]
  case single => simp only [h1, Bool.not_true, Bool.and_false, Bool.false_and]
  case pfdOff => simp only [h3, Bool.not_true, Bool.false_and]
  case pfd => simp only [h3, hton, Bool.not_false, Bool.true_and, if_true]

end Sys2Proof.Proofs

/-! The chip resets, the events that are resets, and the events that wake a halted machine (70_reset R421 to R426,
60_exceptions R395, R396). -/

namespace Sys2Proof.Proofs

open Sys2Proof.Machine

section
variable {s : State} {k : ResetKind} {src : Source} {i : Nat} {level : Byte}

/-! ### The resets -/

/-- A reset other than power-on is the common one, with the memories by the option RAM_AFTER_RESET (92_eei D19). -/
theorem chipReset_of_ne_powerOn (hk : k ≠ .powerOn) (s : State) :
    ∃ ram lcd, chipReset k s = { resetCommon k s with ram := ram, lcd := lcd } ∧
      (s.opts.ramAfterReset = .unchanged → ram = s.ram ∧ lcd = s.lcd) := by
  have hmemories : chipReset k s = match s.opts.ramAfterReset with
      | .unchanged => resetCommon k s
      | .unknown => forgetMemories s.draws (resetCommon k s) := by
    cases k with
    | powerOn => exact absurd rfl hk
    | resNormal | resHalt | wdtNormal => rfl
  rw [hmemories]
  cases hoption : s.opts.ramAfterReset with
  | unchanged => exact ⟨_, _, rfl, fun _ => ⟨rfl, rfl⟩⟩
  | unknown => exact ⟨_, _, rfl, nofun⟩

/-- RTCC after a reset reads 07H, whatever the supply: LVDC is 0, so LVDO is (10_state R60, R62). -/
theorem rtccByte_of_reset (h : s.rtcc = State.reset.rtcc) : rtccByte s = 0x07 := by
  have hlvdo : lvdo s = false := by
    have hlvdc : s.rtcc.lvdc = false := congrArg Rtcc.lvdc h
    rw [lvdo, hlvdc, Bool.and_false, Bool.false_and]
  rw [rtccByte, hlvdo, h]
  decide

theorem intc0Byte_of_reset (h : s.intc = State.reset.intc) : intc0Byte s = 0x00 := by
  rw [intc0Byte, h]
  decide

theorem intc1Byte_of_reset (h : s.intc = State.reset.intc) : intc1Byte s = 0x00 := by
  rw [intc1Byte, h]
  decide

/-- TMRC after a reset reads 08H: mode 00, off, TE set (10_state R59). -/
theorem tmrcByte_of_reset (htm : s.timer.tm = 0b00) (hts : s.timer.ts = false) (hton : s.timer.ton = false)
    (hte : s.timer.te = true) : tmrcByte s = 0x08 := by
  rw [tmrcByte, htm, hts, hton, hte]
  decide

theorem resetPinEvent_of_running (h : s.power = .running) : applyEvent s .resetPin = chipReset .resNormal s := by
  rw [applyEvent, resetPinEvent, h]

theorem resetPinEvent_of_halted (h : s.power = .halted) : applyEvent s .resetPin = chipReset .resHalt s := by
  rw [applyEvent, resetPinEvent, h]

theorem lowVoltageEvent_of_resets (h : lowVoltageResets s = true) :
    applyEvent s .lowVoltage = chipReset .resNormal s := by
  rw [applyEvent, lowVoltageEvent, if_pos h]

theorem lowVoltageEvent_of_not (h : lowVoltageResets s = false) : applyEvent s .lowVoltage = s := by
  rw [applyEvent, lowVoltageEvent, h, if_neg Bool.false_ne_true]

/-! ### Waking -/

theorem wake_of_halted (h : s.power = .halted) : wake s = { s with power := .waking startUpPeriods } := by
  rw [wake, h]

theorem raise_of_requested (h : requested s.intc src = true) : raise src s = s := if_pos h

/-- A new request in HALT sets its flag and starts the start-up delay (60_exceptions R395). -/
theorem raise_of_halted (hnew : requested s.intc src = false) (h : s.power = .halted) : raise src s =
    { s with intc := setRequest src true s.intc, power := .waking startUpPeriods } := by
  rw [raise, hnew, if_neg Bool.false_ne_true]
  dsimp only
  rw [h]
  exact wake_of_halted rfl

/-- A falling edge on INT requests the external interrupt (60_exceptions R331). -/
theorem intPinEvent_falling (h : s.pins.int = true) :
    applyEvent s (.intPin false) = raise .ext { s with pins := { s.pins with int := false } } := by
  rw [applyEvent, intPinEvent]
  simp [h]

/-- What drives port A has changed, before a wake-up: a pad that floats takes its level from the draws. -/
def afterPortA (driven level : Byte) (s : State) : State :=
  { s with pins := { s.pins with paDriven := driven, paLevel := level }, draws := s.draws + 2 }

/-- A falling edge on a pin that can wake the machine is a wake-up (60_exceptions R396). -/
theorem portAEvent_of_falling {driven : Byte} (hi : i < 8) (hpin : (wakePins s).getLsbD i = true)
    (hold : externalPad s s.draws i = true)
    (hnew : externalPad (afterPortA driven level s) (s.draws + 1) i = false) :
    applyEvent s (.portA driven level) = wake (afterPortA driven level s) := by
  have hedge : wakePins s &&& byteOf (fun j =>
      externalPad s s.draws j && !externalPad (afterPortA driven level s) (s.draws + 1) j) ≠ 0 := by
    intro hzero
    have hbit := congrArg (·.getLsbD i) hzero
    simp [byteOf_getLsbD _ hi, hpin, hold, hnew] at hbit
  exact if_neg hedge

theorem wakePins_getLsbD (hi : i < 8) (s : State) : (wakePins s).getLsbD i =
    (s.opts.paWake.getLsbD i && !s.opts.paCmos.getLsbD i && s.paLatch.getLsbD i) := by
  rw [wakePins, BitVec.getLsbD_and, BitVec.getLsbD_and, BitVec.getLsbD_not, cmosPins_getLsbD, decide_eq_true hi,
    Bool.true_and]

end

/-- Settles O55: the fields of the common reset, which the power-on and the memories' option leave as they are; then each
event. -/
theorem chipResetsByKind : Obligations.ChipResetsByKind := by
  refine ⟨fun s k => ?kinds, fun s => ⟨resetPinEvent_of_running, resetPinEvent_of_halted, fun hrun hlvr => ?lowVoltage,
    fun hlvr => ?disabled, fun hhalt => ?halted, rfl⟩⟩
  case kinds =>
    by_cases hk : k = .powerOn
    case pos =>
      subst hk
      exact ⟨⟨rfl, rfl, rfl, intc0Byte_of_reset rfl, intc1Byte_of_reset rfl, tmrcByte_of_reset rfl rfl rfl rfl,
        rtccByte_of_reset rfl, rfl, rfl, rfl, rfl⟩, rfl, rfl, fun h => absurd rfl h⟩
    case neg =>
      obtain ⟨ram, lcd, hreset, hmemories⟩ := chipReset_of_ne_powerOn hk s
      rw [hreset]
      exact ⟨⟨rfl, rfl, rfl, intc0Byte_of_reset rfl, intc1Byte_of_reset rfl, tmrcByte_of_reset rfl rfl rfl rfl,
        rtccByte_of_reset rfl, rfl, rfl, rfl, rfl⟩, by cases k <;> rfl, by cases k <;> rfl,
        fun _ => ⟨rfl, rfl, rfl, rfl, rfl, rfl, hmemories⟩⟩
  case lowVoltage => exact lowVoltageEvent_of_resets (by simp [lowVoltageResets, hrun, hlvr])
  case disabled => exact lowVoltageEvent_of_not (by simp [lowVoltageResets, hlvr])
  case halted => exact lowVoltageEvent_of_not (by simp [lowVoltageResets, hhalt])

/-- Settles O56: a new request and a selected falling edge start the delay; a request already set changes nothing. -/
theorem wakeUpEvents : Obligations.WakeUpEvents := by
  refine fun s hhalt => ⟨fun hint hnew => ?new, fun hint hset => ?again,
    fun i hi hwake hnmos hlatch hdriven hhigh level hlow => ?port⟩
  case new => rw [intPinEvent_falling hint]; exact raise_of_halted hnew hhalt
  case again =>
    have hkept := raise_of_requested (src := .ext) (s := { s with pins := { s.pins with int := false } }) hset
    rw [intPinEvent_falling hint, hkept]
    exact hhalt
  case port =>
    have hall : (0xFF : Byte).getLsbD i = true := (BitVec.getLsbD_allOnes (v := 8)).trans (decide_eq_true hi)
    have hpin : (wakePins s).getLsbD i = true := by rw [wakePins_getLsbD hi, hwake, hnmos, hlatch]; simp
    have hevent : applyEvent s (.portA 0xFF level) = wake (afterPortA 0xFF level s) :=
      portAEvent_of_falling hi hpin ((externalPad_of_driven (hdriven ▸ hall) _).trans hhigh)
        ((externalPad_of_driven (s := afterPortA 0xFF level s) hall _).trans hlow)
    rw [hevent, wake_of_halted (s := afterPortA 0xFF level s) hhalt]
    exact ⟨rfl, rfl, rfl⟩

end Sys2Proof.Proofs

/-! The divider and its taps: what one tick of fS does, and when the watchdog stage times out (60_exceptions R360 to R372). -/

namespace Sys2Proof.Proofs

open Sys2Proof.Machine Sys2Proof.Claims

/-- A tick of fS before the watchdog stage: the divider counts, and the two taps below fire. -/
def beforeWatchdog (s : State) : State := rtcTap (timeBaseTap { s with mft := s.mft + 1 })

/-- The watchdog is enabled, and `k` ticks after the divider's and the stage's 0 are where `s` stands. -/
structure WatchdogAt (s : State) (k : Nat) : Prop where
  enabled : s.opts.wdtEnable = true
  divider : s.mft.toNat = k % 2 ^ 15
  stage : s.wdt.cnt = decide (2 ^ 15 ≤ k)

section
variable {s t : State} {src : Source} {k : Nat}

/-! ### The timer's request -/

/-- A timer tick changes the timer, and beside that only by the timer's request. -/
def TimerTicked (s t : State) : Prop :=
  ∃ timer draws, t = { s with timer := timer, draws := draws } ∨
    t = raise .tmr { s with timer := timer, draws := draws }

theorem timerTicked_refl (s : State) : TimerTicked s s := ⟨_, _, .inl rfl⟩

theorem timerTicked_timerCount (s : State) : TimerTicked s (timerCount s) := by
  unfold timerCount
  split
  · exact ⟨_, _, .inr rfl⟩
  · exact ⟨_, _, .inl rfl⟩

theorem timerTicked_timerNoise (s : State) : TimerTicked s (timerNoise s) := by
  unfold timerNoise
  split
  · dsimp only
    split
    · exact ⟨_, _, .inr rfl⟩
    · exact ⟨_, _, .inl rfl⟩
  · exact timerTicked_refl s

theorem timerTicked_timerTick (s : State) : TimerTicked s (timerTick s) := by
  unfold timerTick
  split
  · exact timerTicked_refl s
  · split
    · exact timerTicked_timerNoise s
    · split
      · dsimp only
        split
        · exact ⟨_, _, .inl rfl⟩
        · exact timerTicked_timerCount { s with draws := s.draws + 1 }
      · exact timerTicked_timerCount s

theorem timerTicked_internalTick (s : State) : TimerTicked s (internalTick s) := by
  unfold internalTick
  split
  · exact timerTicked_timerTick s
  · split
    · exact timerTicked_timerTick s
    · exact timerTicked_refl s

theorem TimerTicked.intc (h : TimerTicked s t) : { t.intc with tf := s.intc.tf } = s.intc := by
  obtain ⟨timer, draws, rfl | rfl⟩ := h
  · rfl
  · rw [raise_intc]
    rfl

/-! ### The taps -/

/-- Below the full width a tap sees the tick count itself (60_exceptions R360). -/
theorem tapFires_succ (hk : k ≤ 15) (m : BitVec 15) : tapFires (m + 1) k = decide ((m.toNat + 1) % 2 ^ k = 0) := by
  have hsucc : (m + 1).toNat % 2 ^ k = (m.toNat + 1) % 2 ^ k := by
    rw [BitVec.toNat_add]
    exact Nat.mod_mod_of_dvd _ (pow_dvd_pow 2 hk)
  rw [tapFires, hsucc, beq_eq_decide]

theorem timeBaseTap_intc (s : State) : (timeBaseTap s).intc =
    { s.intc with tbf := s.intc.tbf || tapFires s.mft (12 + s.opts.tbPeriod.val) } := by
  unfold timeBaseTap
  split
  case isTrue hfires =>
    rw [raise_intc, hfires, Bool.or_true]
    rfl
  case isFalse hquiet => rw [Bool.not_eq_true _ |>.mp hquiet, Bool.or_false]

/-- The real time clock requests RTF at its tap; a timer it clocks can request TF (60_exceptions R372, R373). -/
theorem rtcTap_intc (s : State) : { (rtcTap s).intc with tf := s.intc.tf } =
    { s.intc with rtf := s.intc.rtf || tapFires s.mft (8 + s.rtcc.rt.toNat) } := by
  unfold rtcTap
  split
  case isTrue hfires =>
    rw [hfires, Bool.or_true]
    dsimp only
    split
    case isTrue => rw [raise_intc]; rfl
    case isFalse =>
      have htimer := (timerTicked_internalTick (raise .rtc s)).intc
      rw [raise_intc] at htimer
      exact htimer
  case isFalse hquiet => rw [Bool.not_eq_true _ |>.mp hquiet, Bool.or_false]

/-! ### One tick of fS -/

theorem tickFrame_beforeWatchdog (s : State) : TickFrame { s with mft := s.mft + 1 } (beforeWatchdog s) :=
  tickFrame_taps _

/-- The requests a tick of fS makes by its taps (60_exceptions R371, R372). -/
theorem beforeWatchdog_intc (s : State) : { (beforeWatchdog s).intc with tf := s.intc.tf } = { s.intc with
    tbf := s.intc.tbf || tapFires (s.mft + 1) (12 + s.opts.tbPeriod.val)
    rtf := s.intc.rtf || tapFires (s.mft + 1) (8 + s.rtcc.rt.toNat) } := by
  have hbase := timeBaseTap_intc { s with mft := s.mft + 1 }
  have hclock := rtcTap_intc (timeBaseTap { s with mft := s.mft + 1 })
  rw [timeBaseTap_mft, timeBaseTap_rtcc, hbase] at hclock
  exact hclock

theorem watchdogTap_of_not (h : (s.opts.wdtEnable && s.wdt.cnt && tapFires s.mft 15) = false) : watchdogTap s =
    { s with wdt := { s.wdt with cnt := s.wdt.cnt || (s.opts.wdtEnable && tapFires s.mft 15) } } := by
  unfold watchdogTap
  split
  case isTrue hclocked =>
    have hstage : s.wdt.cnt = false := by
      rw [Bool.and_right_comm, hclocked, Bool.true_and] at h
      exact h
    rw [hclocked, hstage]
    rfl
  case isFalse hquiet => rw [Bool.not_eq_true _ |>.mp hquiet, Bool.or_false]

theorem watchdogTap_of_expired (h : (s.opts.wdtEnable && s.wdt.cnt && tapFires s.mft 15) = true) :
    watchdogTap s = watchdogTimeOut { s with wdt := { s.wdt with cnt := false } } := by
  obtain ⟨⟨henabled, hstage⟩, hfires⟩ := by simpa only [Bool.and_eq_true] using h
  rw [watchdogTap, henabled, hfires, hstage]
  rfl

/-- Where the tick is no time-out, the watchdog's tap only sets the stage, at its period (60_exceptions R365). -/
theorem fsTick_of_not_expired (h : watchdogExpires s = false) : fsTick s = { beforeWatchdog s with
    wdt := { s.wdt with cnt := s.wdt.cnt || (s.opts.wdtEnable && tapFires (s.mft + 1) 15) } } := by
  obtain ⟨hframe, -, -, -, -⟩ := tickFrame_beforeWatchdog s
  have htap := watchdogTap_of_not (s := beforeWatchdog s) (by rw [hframe.opts, hframe.wdt, hframe.mft]; exact h)
  refine htap.trans (congrArg (fun w : Wdt => { beforeWatchdog s with wdt := w }) ?_)
  rw [hframe.opts, hframe.wdt, hframe.mft]

theorem fsTick_of_expired (h : watchdogExpires s = true) : fsTick s =
    watchdogTimeOut { beforeWatchdog s with wdt := { s.wdt with cnt := false } } := by
  obtain ⟨hframe, -, -, -, -⟩ := tickFrame_beforeWatchdog s
  have htap := watchdogTap_of_expired (s := beforeWatchdog s) (by rw [hframe.opts, hframe.wdt, hframe.mft]; exact h)
  rw [hframe.wdt] at htap
  exact htap

/-! ### When the watchdog times out -/

/-- The time-out comes with the tick that overflows divider and stage together (60_exceptions R365). -/
theorem watchdogExpires_at (h : WatchdogAt s k) (hk : k < 2 ^ 16) : watchdogExpires s = decide (k + 1 = 2 ^ 16) := by
  obtain ⟨henabled, hdivider, hstage⟩ := h
  rw [watchdogExpires, henabled, hstage, tapFires_succ (le_refl 15), hdivider, Bool.true_and, ← Bool.decide_and,
    decide_eq_decide]
  omega

theorem watchdogAt_fsTick (h : WatchdogAt s k) (hk : k + 1 < 2 ^ 16) : WatchdogAt (fsTick s) (k + 1) := by
  have hquiet : watchdogExpires s = false := by
    rw [watchdogExpires_at h (by omega), decide_eq_false_iff_not]
    omega
  obtain ⟨henabled, hdivider, hstage⟩ := h
  obtain ⟨hframe, -, -, -, -⟩ := tickFrame_beforeWatchdog s
  rw [fsTick_of_not_expired hquiet]
  refine ⟨hframe.opts ▸ henabled, ?divider, ?stage⟩
  case divider =>
    change (beforeWatchdog s).mft.toNat = _
    rw [hframe.mft, BitVec.toNat_add, hdivider]
    exact Nat.mod_add_mod _ _ _
  case stage =>
    change (s.wdt.cnt || (s.opts.wdtEnable && tapFires (s.mft + 1) 15)) = _
    rw [hstage, henabled, tapFires_succ (le_refl 15), hdivider, Bool.true_and, ← Bool.decide_or, decide_eq_decide]
    omega

theorem watchdogAt_fsTicks (n : Nat) (h : WatchdogAt s k) (hk : k + n < 2 ^ 16) : WatchdogAt (fsTicks n s) (k + n) := by
  induction n generalizing s k with
  | zero => exact h
  | succ n ih =>
    rw [fsTicks, ← Nat.add_assoc, Nat.add_right_comm]
    exact ih (watchdogAt_fsTick h (by omega)) (by omega)

/-- A watchdog clear restarts the stage where the divider stands (48_misc R298). -/
theorem watchdogAt_watchdogClear (h : s.opts.wdtEnable = true) : WatchdogAt (watchdogClear s) s.mft.toNat where
  enabled := h
  divider := (Nat.mod_eq_of_lt s.mft.isLt).symm
  stage := (decide_eq_false (Nat.not_le_of_lt s.mft.isLt)).symm

/-! ### The time-out -/

theorem watchdogTimeOut_of_running (h : s.power = .running) : watchdogTimeOut s = chipReset .wdtNormal s := by
  rw [watchdogTimeOut, h]

theorem watchdogTimeOut_of_not_running (h : s.power ≠ .running) : watchdogTimeOut s = warmReset s := by
  unfold watchdogTimeOut
  split
  case h_1 hrun => exact absurd hrun h
  all_goals rfl

theorem power_of_running (h : TickFrame s t) (hrun : s.power = .running) : t.power = .running := by
  obtain hkept | ⟨hhalted, -⟩ := h.power
  · exact hkept.trans hrun
  · rw [hrun] at hhalted
    cases hhalted

/-- A tick of a machine that does not run, with what it may change set back or written over. -/
theorem warmReset_of_tickFrame (h : TickFrame s t) (hstopped : s.power ≠ .running) :
    warmReset { t with
      intc := { t.intc with tf := s.intc.tf, tbf := s.intc.tbf, rtf := s.intc.rtf }
      timer := { t.timer with cnt := s.timer.cnt, pfd := s.timer.pfd }, draws := s.draws } = warmReset s := by
  obtain ⟨hframe, htimer, hintc, -, hunseen⟩ := h
  rw [htimer, hintc]
  have hrest := congrArg (fun x : State => warmReset { x with unseen := t.unseen }) hframe
  calc _ = warmReset { s with unseen := t.unseen } := hrest
    _ = warmReset s := by rw [hunseen hstopped]

theorem mft_of_expired (h : watchdogExpires s = true) : s.mft + 1 = 0 := by
  obtain ⟨-, hfires⟩ := by simpa only [watchdogExpires, Bool.and_eq_true] using h
  have hzero : (s.mft + 1).toNat % 2 ^ 15 = 0 := eq_of_beq hfires
  rw [Nat.mod_eq_of_lt (s.mft + 1).isLt] at hzero
  exact BitVec.eq_of_toNat_eq hzero

end

/-- Settles O52: the tick is the divider's count, the two taps' requests and the watchdog's stage. -/
theorem fsTickFiresTaps : Obligations.FsTickFiresTaps := by
  intro s hquiet
  obtain ⟨hframe, -, -, -, -⟩ := tickFrame_beforeWatchdog s
  have hintc := beforeWatchdog_intc s
  rw [fsTick_of_not_expired hquiet]
  have htb := s.opts.tbPeriod.isLt
  have hrt := s.rtcc.rt.isLt
  refine ⟨hframe.mft, ?tbf, ?rtf, ?stage, hframe.pc, (congrArg Intc.emi hintc :)⟩
  case tbf => rw [← tapFires_succ (by omega)]; exact (congrArg Intc.tbf hintc :)
  case rtf => rw [← tapFires_succ (by omega)]; exact (congrArg Intc.rtf hintc :)
  case stage =>
    have hlast : (s.mft.toNat + 1) % 2 ^ 15 = 0 ↔ s.mft.toNat + 1 = 2 ^ 15 := by omega
    rw [tapFires_succ (le_refl 15)]
    simp only [hlast]

/-- Settles O53: counted from where the clear finds the divider, the time-out is the tick that reaches 2^16. -/
theorem watchdogTimesOutInRange : Obligations.WatchdogTimesOutInRange := by
  intro s henabled
  have hdivider := s.mft.isLt
  have hexpires : ∀ n, s.mft.toNat + n < 2 ^ 16 →
      watchdogExpires (fsTicks n (watchdogClear s)) = decide (s.mft.toNat + n + 1 = 2 ^ 16) := fun n hn =>
    watchdogExpires_at (watchdogAt_fsTicks n (watchdogAt_watchdogClear henabled) hn) hn
  refine ⟨fun n hn => ?early, 2 ^ 16 - 1 - s.mft.toNat, by omega, ?last, fun k hk => ?before⟩
  case early => rw [hexpires n (by omega), decide_eq_false_iff_not]; omega
  case last => rw [hexpires _ (by omega), decide_eq_true_eq]; omega
  case before => rw [hexpires k (by omega), decide_eq_false_iff_not]; omega

/-- Settles O54: the tick runs the taps, which leave the machine running or halted as it was, and then the reset. -/
theorem watchdogTimeOutResets : Obligations.WatchdogTimeOutResets := by
  refine ⟨fun s => ⟨watchdogTimeOut_of_running, fun hhalt => ?warm⟩,
    fun s hexpired => ⟨fun hrun => ?running, fun hhalt => ?halted⟩⟩
  case warm => exact watchdogTimeOut_of_not_running (by rw [hhalt]; nofun)
  case running =>
    have htaps := tickFrame_beforeWatchdog s
    obtain ⟨ram, lcd, hreset, -⟩ := chipReset_of_ne_powerOn (k := .wdtNormal) nofun
      { beforeWatchdog s with wdt := { s.wdt with cnt := false } }
    have hstill : (beforeWatchdog s).power = .running := power_of_running htaps hrun
    have htick := (fsTick_of_expired hexpired).trans (watchdogTimeOut_of_running hstill)
    rw [htick, hreset]
    exact ⟨rfl, rfl, rfl, htaps.frame.pdf, rfl, rfl, rfl, rfl, htaps.frame.acc⟩
  case halted =>
    have htaps := tickFrame_beforeWatchdog s
    have hstopped : s.power ≠ .running := by rw [hhalt]; nofun
    have htick := (fsTick_of_expired hexpired).trans (watchdogTimeOut_of_not_running (htaps.power.ne_running hstopped))
    rw [htick]
    exact ⟨congrArg (fun x : State => { x with mft := s.mft, wdt := s.wdt }) (warmReset_of_tickFrame htaps hstopped), rfl,
      htaps.frame.mft.trans (mft_of_expired hexpired)⟩

end Sys2Proof.Proofs

/-! The timer/event counter: one count, the internal clock, the edges of the TMR pin, and the ticks of an instruction's
cycles (60_exceptions R373 to R379). -/

namespace Sys2Proof.Proofs

open Sys2Proof.Machine Sys2Proof.Safety

/-- Every tick of the system clock input is a count: timer mode on the system clock, on, past its first
enable-then-disable, not being read (60_exceptions R375, R377). -/
structure CountsSystemClock (s : State) : Prop where
  ts : s.timer.ts = true
  tm : s.timer.tm = 0b10
  ton : s.timer.ton = true
  primed : s.timer.primed = true
  free : s.tmrBlocked = false

/-- The counter `n` further, modulo 256. -/
def countedOn (n : Nat) (s : State) : State := { s with timer := { s.timer with cnt := s.timer.cnt + BitVec.ofNat 8 n } }

/-- The level `level` on the TMR pin. -/
def tmrPinAt (level : Bool) (s : State) : State := { s with pins := { s.pins with tmr := level } }

section
variable {s t : State} {level te : Bool}

/-! ### One count -/

theorem timerTick_of_counting (hton : s.timer.ton = true) (hprimed : s.timer.primed = true) (hfree : s.tmrBlocked = false) :
    timerTick s = timerCount s := by
  simp [timerTick, hton, hprimed, hfree]

theorem timerTick_of_off (h : s.timer.ton = false) : timerTick s = s := by
  simp [timerTick, h]

theorem timerCount_of_below (h : s.timer.cnt ≠ 0xFF) :
    timerCount s = { s with timer := { s.timer with cnt := s.timer.cnt + 1 } } := if_neg h

/-- From FFH the counter is reloaded and the PFD phase toggles, with the timer's request (60_exceptions R377). -/
theorem timerCount_of_full (h : s.timer.cnt = 0xFF) : timerCount s =
    raise .tmr { s with timer := { s.timer with cnt := s.timer.pre, pfd := !s.timer.pfd } } := if_pos h

theorem timerNoise_of_primed (h : s.timer.primed = true) : timerNoise s = s := by
  simp [timerNoise, h]

theorem timerNoise_of_off (h : s.timer.ton = false) : timerNoise s = s := by
  simp [timerNoise, h]

/-! ### The internal clock and its sources -/

theorem internalTick_of_timerMode (h : s.timer.tm = 0b10) : internalTick s = timerTick s := if_pos h

theorem internalTick_of_measuring (htm : s.timer.tm = 0b11) (hphase : s.timer.phase = .counting) :
    internalTick s = timerTick s := by
  rw [internalTick, htm, if_neg (by decide), if_pos ⟨rfl, hphase⟩]

theorem internalTick_of_not (htm : s.timer.tm ≠ 0b10) (hidle : s.timer.tm = 0b11 → s.timer.phase ≠ .counting) :
    internalTick s = s := by
  rw [internalTick, if_neg htm, if_neg fun h => hidle h.1 h.2]

theorem rtcTap_of_fires (h : s.mft.toNat % 2 ^ (8 + s.rtcc.rt.toNat) = 0) : rtcTap s =
    if s.timer.ts then raise .rtc s else internalTick (raise .rtc s) := by
  rw [rtcTap, tapFires, beq_iff_eq.mpr h, if_pos rfl]
  dsimp only
  rw [raise_timer]

theorem rtcTap_of_quiet (h : s.mft.toNat % 2 ^ (8 + s.rtcc.rt.toNat) ≠ 0) : rtcTap s = s :=
  if_neg (by rwa [tapFires, beq_iff_eq])

theorem systemTick_of_rtcClock (h : s.timer.ts = false) : systemTick s = s := by
  rw [systemTick, h]
  rfl

/-! ### The system clock's ticks -/

theorem countedOn_zero (s : State) : countedOn 0 s = s := by
  rw [countedOn, BitVec.add_zero]

theorem countedOn_succ (n : Nat) (s : State) : countedOn n (countedOn 1 s) = countedOn (n + 1) s := by
  have hsum : s.timer.cnt + 1#8 + BitVec.ofNat 8 n = s.timer.cnt + BitVec.ofNat 8 (n + 1) := by
    rw [BitVec.add_assoc, ← BitVec.ofNat_add, Nat.add_comm 1 n]
  exact congrArg (fun c : Byte => { s with timer := { s.timer with cnt := c } }) hsum

theorem countedOn_cnt {n : Nat} (h : s.timer.cnt.toNat + n < 256) :
    (countedOn n s).timer.cnt.toNat = s.timer.cnt.toNat + n := by
  change (s.timer.cnt + BitVec.ofNat 8 n).toNat = _
  rw [BitVec.toNat_add, BitVec.toNat_ofNat]
  omega

theorem systemTick_of_counts (h : CountsSystemClock s) (hbelow : s.timer.cnt ≠ 0xFF) : systemTick s = countedOn 1 s := by
  rw [systemTick, if_pos h.ts, internalTick_of_timerMode h.tm, timerTick_of_counting h.ton h.primed h.free]
  exact timerCount_of_below hbelow

/-- Ticks that do not take the counter past FFH add their number to it. -/
theorem systemTicks_of_counts (n : Nat) (h : CountsSystemClock s) (hroom : s.timer.cnt.toNat + n < 256) :
    systemTick^[n] s = countedOn n s := by
  induction n generalizing s with
  | zero => exact (countedOn_zero s).symm
  | succ n ih =>
    have hbelow : s.timer.cnt ≠ 0xFF := by
      intro hfull
      have hnat : s.timer.cnt.toNat = 255 := congrArg BitVec.toNat hfull
      omega
    have hnext := countedOn_cnt (s := s) (n := 1) (by omega)
    calc systemTick^[n + 1] s
      _ = systemTick^[n] (countedOn 1 s) := by rw [Function.iterate_succ_apply, systemTick_of_counts h hbelow]
      _ = countedOn n (countedOn 1 s) := ih { h with } (by omega)
      _ = countedOn (n + 1) s := countedOn_succ n s

/-! ### The ticks of an instruction's cycles -/

theorem dueTicks_one_of_external (o : Config.Options) (h : o.fsSource ≠ .fsysDiv4) :
    dueTicks 1 o = List.replicate (ticksPerCycle o) .clock ++ [.cycleEnd] := by
  simp [dueTicks, cycleTicks, h]

/-- No tick but one of fS can be a chip reset, so a cycle's clock ticks all come (60_exceptions R366). -/
theorem runDue_clocks (n : Nat) (s : State) : runDue (List.replicate n .clock ++ [.cycleEnd]) s =
    applyTick .cycleEnd (systemTick^[n] s) := by
  induction n generalizing s with
  | zero => rfl
  | succ n ih => exact ih (systemTick s)

/-- A cycle of clock ticks in timer mode adds their number to the counter, where they are its clock (R373, R375). -/
theorem cnt_of_cycle {n : Nat} (s : State) (htm : s.timer.tm = 0b10) (hton : s.timer.ton = true)
    (hprimed : s.timer.primed = true) (hfree : s.tmrBlocked = false) (hroom : s.timer.cnt.toNat + n < 256) :
    (timerNoise (runDue (List.replicate n .clock ++ [.cycleEnd]) s)).timer.cnt.toNat =
      s.timer.cnt.toNat + if s.timer.ts = false then 0 else n := by
  rw [runDue_clocks]
  cases hts : s.timer.ts with
  | false =>
    rw [Function.iterate_fixed (systemTick_of_rtcClock hts), timerNoise_of_primed (s := applyTick .cycleEnd s) hprimed]
    rfl
  | true =>
    rw [systemTicks_of_counts n ⟨hts, htm, hton, hprimed, hfree⟩ hroom,
      timerNoise_of_primed (s := applyTick .cycleEnd (countedOn n s)) hprimed]
    exact countedOn_cnt hroom

/-- The step of an instruction that completes, with nothing from outside: the ticks of its cycles come after it, in their
order, then the unprimed timer's effects. -/
theorem step_of_exec {w : Word} {i : Instr} (h : AtInstruction s) (hinputs : s.inputs = [])
    (hw : Rom.word s.rom s.pc = some w) (hi : enc s.opts w = .ok i) (hexec : exec i (afterFetch s) = .next t) :
    step s = .next (timerNoise (runDue (dueTicks (cyclesOf i (afterFetch s) t) t.opts)
      { t with unseen := Marks.clear })) := by
  obtain ⟨hrun, -, hnone⟩ := h
  rw [step_of_no_inputs hinputs, boundary_of_running [] hrun hnone, fetchAndRun_of_enc [] hw hi, runInstr, hexec,
    andThen_of_next]
  rfl

/-! ### The TMR pin -/

theorem tmrPinEvent_of_same (h : level = s.pins.tmr) :
    applyEvent s (.tmrPin level) = tmrPinAt level s := by
  rw [applyEvent, tmrPinEvent]
  exact if_pos h

theorem tmrPinEvent_of_edge (h : level ≠ s.pins.tmr) :
    applyEvent s (.tmrPin level) = tmrEdge level (tmrPinAt level s) := by
  rw [applyEvent, tmrPinEvent]
  exact if_neg h

theorem tmrEdge_of_selected (htm : s.timer.tm = 0b01) (hte : level = !s.timer.te) : tmrEdge level s = timerTick s := by
  rw [tmrEdge, if_pos htm, if_pos hte]

theorem tmrEdge_of_not_selected (htm : s.timer.tm = 0b01) (hte : level ≠ !s.timer.te) : tmrEdge level s = s := by
  rw [tmrEdge, if_pos htm, if_neg hte]

theorem tmrEdge_of_start (htm : s.timer.tm = 0b11) (hte : level = s.timer.te) : tmrEdge level s = startEdge s := by
  rw [tmrEdge, htm, if_neg (by decide), if_pos rfl, if_pos hte]

theorem tmrEdge_of_stop (htm : s.timer.tm = 0b11) (hte : level ≠ s.timer.te) : tmrEdge level s = stopEdge s := by
  rw [tmrEdge, htm, if_neg (by decide), if_pos rfl, if_neg hte]

theorem startEdge_of_armed (hton : s.timer.ton = true) (harmed : s.timer.phase = .armed) :
    startEdge s = { s with timer := { s.timer with phase := .counting } } := if_pos ⟨hton, harmed⟩

theorem startEdge_of_off (hton : s.timer.ton = false) : startEdge s = s :=
  if_neg fun h => Bool.false_ne_true (hton.symm.trans h.1)

theorem stopEdge_of_counting (h : s.timer.phase = .counting) : stopEdge s =
    { s with timer := { s.timer with phase := .idle, ton := false, primed := s.timer.primed || s.timer.ton } } := if_pos h

theorem stopEdge_of_not (h : s.timer.phase ≠ .counting) : stopEdge s = s := if_neg h

/-- In pulse width mode the edge to the level TE names is the start edge (60_exceptions R378). -/
theorem tmrPin_startEdge (htm : s.timer.tm = 0b11) (hte : s.timer.te = te) (hpin : s.pins.tmr = !te) :
    applyEvent s (.tmrPin te) = startEdge (tmrPinAt te s) := by
  have hedge : te ≠ s.pins.tmr := by rw [hpin]; exact Bool.self_ne_not te
  exact (tmrPinEvent_of_edge hedge).trans (tmrEdge_of_start (s := tmrPinAt te s) htm hte.symm)

theorem tmrPin_stopEdge (htm : s.timer.tm = 0b11) (hte : s.timer.te = te) (hpin : s.pins.tmr = te) :
    applyEvent s (.tmrPin (!te)) = stopEdge (tmrPinAt (!te) s) := by
  have hedge : (!te) ≠ s.pins.tmr := by rw [hpin]; exact Bool.not_ne_self te
  exact (tmrPinEvent_of_edge hedge).trans (tmrEdge_of_stop (s := tmrPinAt (!te) s) htm (hte ▸ Bool.not_ne_self te))

theorem measurementStarted (htm : s.timer.tm = 0b11) (hte : s.timer.te = te) (hton : s.timer.ton = true)
    (harmed : s.timer.phase = .armed) (hpin : s.pins.tmr = !te) : applyEvent s (.tmrPin te) =
      { tmrPinAt te s with timer := { s.timer with phase := .counting } } :=
  (tmrPin_startEdge htm hte hpin).trans (startEdge_of_armed (s := tmrPinAt te s) hton harmed)

theorem measurementStopped (htm : s.timer.tm = 0b11) (hte : s.timer.te = te) (hcounting : s.timer.phase = .counting)
    (hpin : s.pins.tmr = te) : applyEvent s (.tmrPin (!te)) = { tmrPinAt (!te) s with
      timer := { s.timer with phase := .idle, ton := false, primed := s.timer.primed || s.timer.ton } } :=
  (tmrPin_stopEdge htm hte hpin).trans (stopEdge_of_counting (s := tmrPinAt (!te) s) hcounting)

/-- A pulse at a timer that is off and not measuring changes nothing once it is over. -/
theorem pulse_of_off (htm : s.timer.tm = 0b11) (hte : s.timer.te = te) (hton : s.timer.ton = false)
    (hphase : s.timer.phase ≠ .counting) (hpin : s.pins.tmr = !te) :
    applyEvent (applyEvent s (.tmrPin te)) (.tmrPin (!te)) = s := by
  rw [tmrPin_startEdge htm hte hpin, startEdge_of_off (s := tmrPinAt te s) hton,
    tmrPin_stopEdge (s := tmrPinAt te s) htm hte rfl, stopEdge_of_not (s := tmrPinAt (!te) (tmrPinAt te s)) hphase,
    ← hpin]
  rfl

end

/-- Settles O49: one count; the clock by mode and source; and a NOP's cycle, whose clock ticks each count. -/
theorem timerCountsAndReloads : Obligations.TimerCountsAndReloads := by
  refine ⟨fun s hton hprimed hfree => ?count, fun s => timerTick_of_off, fun s => ?clock, ?step⟩
  case count =>
    rw [timerTick_of_counting hton hprimed hfree]
    refine ⟨timerCount_of_below, fun hfull => ?_⟩
    rw [timerCount_of_full hfull, raise_timer, raise_intc, raise_pc, raise_acc]
    exact ⟨rfl, rfl, rfl, rfl⟩
  case clock =>
    refine ⟨internalTick_of_timerMode, internalTick_of_measuring, fun htm hidle => ?notMeasuring, fun htm => ?eventMode,
      fun hfires hts => ?rtcClock, fun hfires hts => ?systemClock, rtcTap_of_quiet⟩
    case notMeasuring => exact internalTick_of_not (by rw [htm]; decide) fun _ => hidle
    case eventMode => exact internalTick_of_not (by rw [htm]; decide) (by rw [htm]; exact fun h => absurd h (by decide))
    case rtcClock => rw [rtcTap_of_fires hfires, hts]; rfl
    case systemClock => rw [rtcTap_of_fires hfires, hts]; rfl
  case step =>
    intro s w hat hinputs hw hi hfs htm hton hprimed hroom
    refine ⟨_, step_of_exec hat hinputs hw hi (exec_nop (afterFetch s)), ?_⟩
    rw [afterFetch_opts]
    change (timerNoise (runDue (dueTicks 1 s.opts) { afterFetch s with unseen := Marks.clear })).timer.cnt.toNat = _
    have hticks : ticksPerCycle s.opts = if s.opts.tmrClk = .fsys then 4 else 1 := by
      cases hclk : s.opts.tmrClk <;> simp [ticksPerCycle, hclk]
    have hinRange : s.timer.cnt.toNat + ticksPerCycle s.opts < 256 := by
      rw [hticks]
      split <;> omega
    rw [dueTicks_one_of_external _ hfs, ← hticks]
    exact cnt_of_cycle { afterFetch s with unseen := Marks.clear } htm hton hprimed rfl hinRange

/-- Settles O50: the selected edge is a clock tick, and no other change of the pin is. -/
theorem eventModeCountsEdges : Obligations.EventModeCountsEdges := by
  intro s level htm hton hprimed hfree hbelow
  by_cases hsame : level = s.pins.tmr
  case pos =>
    rw [tmrPinEvent_of_same hsame, if_neg fun h => h.1 hsame]
    exact ⟨rfl, rfl⟩
  case neg =>
    rw [tmrPinEvent_of_edge hsame]
    by_cases hselected : level = !s.timer.te
    case pos =>
      rw [tmrEdge_of_selected (s := tmrPinAt level s) htm hselected, if_pos ⟨hsame, hselected⟩,
        timerTick_of_counting (s := tmrPinAt level s) hton hprimed hfree,
        timerCount_of_below (s := tmrPinAt level s) hbelow]
      exact ⟨rfl, rfl⟩
    case neg =>
      rw [tmrEdge_of_not_selected (s := tmrPinAt level s) htm hselected, if_neg fun h => hselected h.2]
      exact ⟨rfl, rfl⟩

/-- Settles O51: the start edge starts an armed measurement, the stop edge ends it with TON cleared, and then neither edge
does anything. -/
theorem pulseWidthMeasuresOnce : Obligations.PulseWidthMeasuresOnce := by
  intro s a b te htm hte hton harmed hpin ha hb
  have hstarted := ha.trans (measurementStarted htm hte hton harmed hpin)
  have htm' : a.timer.tm = 0b11 := by rw [hstarted]; exact htm
  have hte' : a.timer.te = te := by rw [hstarted]; exact hte
  have hstopped := hb.trans (measurementStopped htm' hte' (by rw [hstarted]) (by rw [hstarted]; rfl))
  have hpulse : applyEvent (applyEvent b (.tmrPin te)) (.tmrPin (!te)) = b :=
    pulse_of_off (by rw [hstopped]; exact htm') (by rw [hstopped]; exact hte') (by rw [hstopped]) (by rw [hstopped]; nofun)
      (by rw [hstopped]; rfl)
  have hcount : a.timer.cnt = s.timer.cnt := by rw [hstarted]
  exact ⟨by rw [hstarted], by rw [hstarted]; exact hton, hcount, by rw [hstopped], by rw [hstopped],
    by rw [hstopped, hcount], hpulse⟩

end Sys2Proof.Proofs

/-! The halted machine and the start-up delay, with nothing clocked (60_exceptions R392, R393, R397). -/

namespace Sys2Proof.Proofs

open Sys2Proof.Machine

/-- Nothing comes from outside, and no device is clocked by the instruction cycles. -/
structure Unclocked (s : State) : Prop where
  inputs : s.inputs = []
  ton : s.timer.ton = false
  ts : s.timer.ts = false
  fs : s.opts.fsSource ≠ .fsysDiv4
  free : s.tmrBlocked = false

section
variable {s t : State}

theorem with_tmrBlocked_false (h : s.tmrBlocked = false) : { s with tmrBlocked := false } = s := by
  rw [← h]

/-- With the system clock stopped nothing comes due in a halted machine's cycle (60_exceptions R393). -/
theorem idle_of_stopped (hosc : s.opts.oscType ≠ .rtc32k) (hton : s.timer.ton = false) (hfree : s.tmrBlocked = false) :
    idle [] s = s := by
  rw [idle, if_neg hosc, with_tmrBlocked_false hfree]
  exact timerNoise_of_off hton

theorem cycle_of_unclocked (h : Unclocked s) :
    timerNoise (runDue (dueTicks 1 s.opts) { s with tmrBlocked := false }) = s := by
  rw [with_tmrBlocked_false h.free, dueTicks_one_of_external _ h.fs, runDue_clocks,
    Function.iterate_fixed (systemTick_of_rtcClock h.ts),
    timerNoise_of_off (s := applyTick .cycleEnd s) h.ton]
  exact with_tmrBlocked_false h.free

/-- A cycle of the start-up delay only takes its four periods off (60_exceptions R397). -/
theorem step_of_waking (h : Unclocked s) (n : Nat) : step { s with power := .waking n } =
    .next (settle { s with power := .waking (n - 4) }) := by
  have hleft : Unclocked { s with power := .waking (n - 4) } := { h with }
  have hcycle : wakingCycle [] n { s with power := .waking n } = settle { s with power := .waking (n - 4) } :=
    congrArg settle (cycle_of_unclocked hleft)
  exact (step_of_no_inputs (s := { s with power := .waking n }) h.inputs).trans (congrArg Host.Outcome.next hcycle)

theorem run_succ_of_step (k : Nat) (h : step s = .next t) : Host.Core.run core (k + 1) s = Host.Core.run core k t := by
  have hstep : core.step s = .next t := h
  simp only [Host.Core.run, hstep]

/-- `n` cycles of the delay take `4 * n` periods off, as long as periods are left (60_exceptions R397). -/
theorem run_of_waking (h : Unclocked s) (n k : Nat) :
    Host.Core.run core (n + k) { s with power := .waking (4 * n + 4) } =
      Host.Core.run core k { s with power := .waking 4 } := by
  induction n with
  | zero => rw [Nat.zero_add]
  | succ n ih =>
    rw [Nat.add_right_comm, run_succ_of_step _ (step_of_waking h _)]
    exact ih

end

/-- Settles O57: the idle cycle is the identity; the delay's last cycle, the 256th, takes off the last four periods. -/
theorem haltAndStartUpDelay : Obligations.HaltAndStartUpDelay := by
  refine fun s hinputs hton hfree => ⟨fun hhalt hosc => ?halted, fun hwaking hfs hts => ?delay⟩
  case halted =>
    rw [step_of_no_inputs hinputs, boundary, hhalt]
    exact congrArg _ (idle_of_stopped hosc hton hfree)
  case delay =>
    have hclock : Unclocked s := ⟨hinputs, hton, hts, hfs, hfree⟩
    have hstart : { s with power := .waking (4 * 255 + 4) } = s := by rw [← hwaking]
    have hrun := fun k => run_of_waking hclock 255 k
    rw [hstart] at hrun
    exact ⟨hrun 0, (hrun 1).trans (run_succ_of_step 0 (step_of_waking hclock 4))⟩

end Sys2Proof.Proofs

/-! Instruction cycles, and the divider that counts them (70_reset R441, 60_exceptions R360, R361). -/

namespace Sys2Proof.Proofs

open Sys2Proof.Machine Sys2Proof.Claims Sys2Proof.Safety

section
variable {s t : State} {i : Instr} {m : DataAddr} {f : Byte → Byte} {b : Bool}

/-! ### The cycles of a skip -/

theorem cycles_of_skips (h : Skips (b = true) i s t) : cyclesOf i s t = if b then 2 else 1 := h.2

theorem cycles_of_testSkip {c : Byte → Bool} (hexec : exec i s = testSkip m c s)
    (hcycles : ∀ t, cyclesOf i s t = skipCycles s t) (hcond : c (operand m s) = b) (hnext : exec i s = .next t) :
    cyclesOf i s t = if b then 2 else 1 := by
  obtain ⟨-, rfl⟩ := testSkip_next.mp (hexec.symm.trans hnext)
  exact cycles_of_skips (skips_skipIf hcycles (hcond.trans Bool.decide_eq_true.symm) (readEffect_pc _ s))

theorem cycles_of_loadSkip (hexec : exec i s = loadSkip m f s) (hcycles : ∀ t, cyclesOf i s t = skipCycles s t)
    (hcond : (f (operand m s) == 0) = b) (hnext : exec i s = .next t) : cyclesOf i s t = if b then 2 else 1 := by
  obtain ⟨-, rfl⟩ := loadSkip_next.mp (hexec.symm.trans hnext)
  exact cycles_of_skips (skips_skipIf hcycles (hcond.trans Bool.decide_eq_true.symm) (readEffect_pc _ s))

theorem cycles_of_modifySkip (hexec : exec i s = modifySkip m f s) (hcycles : ∀ t, cyclesOf i s t = skipCycles s t)
    (hcond : (f (operand m s) == 0) = b) (hnext : exec i s = .next t) : cyclesOf i s t = if b then 2 else 1 := by
  obtain ⟨-, hpcl, -, rfl⟩ := modifySkip_next.mp (hexec.symm.trans hnext)
  exact cycles_of_skips (skips_skipIf hcycles (hcond.trans Bool.decide_eq_true.symm)
    ((writeLoc_pc hpcl _ _).trans (readEffect_pc _ s)))

theorem add_one_beq_zero (v : Byte) : (v + 1 == 0) = decide (v.toNat = 255) := by
  rw [beq_zero_eq_decide, decide_eq_decide, BitVec.toNat_add]
  have hv := v.isLt
  change (v.toNat + 1) % 256 = 0 ↔ _
  omega

theorem add_255_beq_zero (v : Byte) : (v + 255 == 0) = decide (v.toNat = 1) := by
  rw [beq_zero_eq_decide, decide_eq_decide, BitVec.toNat_add]
  have hv := v.isLt
  change (v.toNat + 255) % 256 = 0 ↔ _
  omega

theorem cycles_of_twoCycle (m : DataAddr) (x : Byte) (addr : ProgAddr) (s t : State) :
    ∀ i ∈ twoCycle m x addr, cyclesOf i s t = 2 := by
  simp [twoCycle, cyclesOf]

theorem cycles_of_destinations (m : DataAddr) (b : BitNo) (s t : State) :
    ∀ i ∈ destinations m b, cyclesOf i s t = if locate m s = .pcl then 2 else 1 := by
  simp [destinations, cyclesOf, destCycles]

theorem cycles_of_oneCycle (m : DataAddr) (x : Byte) (s t : State) : ∀ i ∈ oneCycle m x, cyclesOf i s t = 1 := by
  simp [oneCycle, cyclesOf]

theorem cycles_of_skipInstr (m : DataAddr) (b : BitNo) (s t : State) :
    ∀ p ∈ skips m b s, exec p.1 s = .next t → cyclesOf p.1 s t = if p.2 then 2 else 1 := by
  simp only [skips, List.forall_mem_cons, List.not_mem_nil, false_imp_iff, implies_true, and_true]
  refine ⟨?szM, ?szaM, ?szBit, ?snzBit, ?sizM, ?sdzM, ?sizaM, ?sdzaM⟩
  case szM => exact cycles_of_testSkip (exec_szM m s) (fun _ => rfl) (beq_zero_eq_decide _)
  case szaM => exact cycles_of_loadSkip (exec_szaM m s) (fun _ => rfl) (beq_zero_eq_decide _)
  case szBit => exact cycles_of_testSkip (exec_szBit b m s) (fun _ => rfl) rfl
  case snzBit => exact cycles_of_testSkip (exec_snzBit b m s) (fun _ => rfl) rfl
  case sizM => exact cycles_of_modifySkip (exec_sizM m s) (fun _ => rfl) (add_one_beq_zero _)
  case sdzM => exact cycles_of_modifySkip (exec_sdzM m s) (fun _ => rfl) (add_255_beq_zero _)
  case sizaM => exact cycles_of_loadSkip (exec_sizaM m s) (fun _ => rfl) (add_one_beq_zero _)
  case sdzaM => exact cycles_of_loadSkip (exec_sdzaM m s) (fun _ => rfl) (add_255_beq_zero _)

/-! ### The divider's count -/

theorem count_fs_dueTicks {o : Config.Options} (h : o.fsSource = .fsysDiv4) (n : Nat) :
    (dueTicks n o).count .fs = n := by
  have hcycle : (cycleTicks o).count .fs = 1 := by
    rw [cycleTicks, if_pos h, List.count_append, List.count_append, List.count_replicate]
    rfl
  rw [dueTicks, List.count_flatten, List.map_replicate, hcycle, List.sum_replicate]
  exact Nat.mul_one n

/-- With the watchdog disabled a tick of fS is the divider's count, whatever its taps request. -/
theorem fsTick_of_wdt_disabled (h : s.opts.wdtEnable = false) : (fsTick s).mft = s.mft + 1 ∧ (fsTick s).pc = s.pc := by
  have hframe := (tickFrame_beforeWatchdog s).frame
  rw [fsTick_of_not_expired (by rw [watchdogExpires, h, Bool.false_and, Bool.false_and])]
  exact ⟨hframe.mft, hframe.pc⟩

theorem applyTick_of_wdt_disabled (tick : Tick) (h : s.opts.wdtEnable = false) :
    (applyTick tick s).mft = s.mft + BitVec.ofNat 15 ([tick].count .fs) ∧ (applyTick tick s).pc = s.pc := by
  cases tick with
  | fs => exact fsTick_of_wdt_disabled h
  | clock => exact ⟨(systemTick_mft s).trans (BitVec.add_zero _).symm, systemTick_pc s⟩
  | cycleEnd => exact ⟨(BitVec.add_zero _).symm, rfl⟩

/-- With the watchdog disabled the due ticks add the fS ticks among them to the divider and leave PC. -/
theorem runDue_counts (due : List Tick) (h : s.opts.wdtEnable = false) :
    (runDue due s).mft = s.mft + BitVec.ofNat 15 (due.count .fs) ∧ (runDue due s).pc = s.pc := by
  rw [runDue_of_wdt_disabled due h]
  induction due generalizing s with
  | nil => exact ⟨(BitVec.add_zero _).symm, rfl⟩
  | cons tick rest ih =>
    obtain ⟨hmft, hpc⟩ := ih (s := applyTick tick s) ((applyTick_opts tick s).symm ▸ h)
    obtain ⟨htick, hkept⟩ := applyTick_of_wdt_disabled tick h
    have hcount : (tick :: rest).count .fs = [tick].count .fs + rest.count .fs := List.count_append (l₁ := [tick])
    rw [hcount, BitVec.ofNat_add, ← BitVec.add_assoc, ← htick, ← hkept]
    exact ⟨hmft, hpc⟩

/-- What an instruction's step leaves in PC and in the divider that its cycles clock. -/
theorem step_counts {w : Word} (h : AtInstruction s) (hinputs : s.inputs = []) (hw : Rom.word s.rom s.pc = some w)
    (hi : enc s.opts w = .ok i) (hfs : s.opts.fsSource = .fsysDiv4) (hwdt : s.opts.wdtEnable = false)
    (hexec : exec i (afterFetch s) = .next t) : ∃ u, step s = .next u ∧ u.pc = t.pc ∧
      u.mft = t.mft + BitVec.ofNat 15 (cyclesOf i (afterFetch s) t) := by
  have hopts : t.opts = s.opts := (effect_of_exec hexec).opts
  obtain ⟨hmft, hpc⟩ := runDue_counts (s := { t with unseen := Marks.clear })
    (dueTicks (cyclesOf i (afterFetch s) t) t.opts) (hopts ▸ hwdt)
  rw [count_fs_dueTicks (hopts ▸ hfs)] at hmft
  exact ⟨_, step_of_exec h hinputs hw hi hexec, (timerNoise_pc _).trans hpc, (timerNoise_mft _).trans hmft⟩

end

/-- Settles O58: each list's cycles; then the step's divider, which the instruction left alone unless it was HALT. -/
theorem cyclesCountAndTick : Obligations.CyclesCountAndTick := by
  refine ⟨fun m b x addr s t => ⟨cycles_of_twoCycle m x addr s t, cycles_of_destinations m b s t,
    cycles_of_oneCycle m x s t, cycles_of_skipInstr m b s t⟩, ?_⟩
  intro s t w i hat hinputs hw hi hfs hwdt hexec
  obtain ⟨u, hstep, hpc, hmft⟩ := step_counts hat hinputs hw hi hfs hwdt hexec
  refine ⟨u, hstep, hpc, fun hi => ?other, fun hi => ?halt⟩
  case other =>
    have hkept : t.mft = s.mft := (effect_of_exec hexec).mft hi
    rw [hkept] at hmft
    exact hmft
  case halt =>
    subst hi
    obtain rfl := Host.Outcome.next.inj ((exec_halt (afterFetch s)).symm.trans hexec)
    have hcleared := prescalerCleared_toNat s.mft
    rw [hmft, BitVec.toNat_add]
    change ((0#7 ++ s.mft.extractLsb' 0 8).toNat + 1) % 2 ^ 15 = _
    rw [hcleared]
    omega

end Sys2Proof.Proofs
